-- ==== Sys2Proof/Word.lean ====
section
/-! DEFINITION. The word types of MLKEM-CORE: the 32-bit command and bus word, the byte of the two
byte stores, the 16-bit pattern of a coefficient (00_scope.md R9, R10). -/

namespace Sys2Proof

/-- A bus word and a command word (R62, R90). -/
abbrev Word := BitVec 32

/-- A byte of BBUF or of the XOF FIFO (R35, R39). -/
abbrev Byte := BitVec 8

/-- The bit pattern of an int16 coefficient (R20). -/
abbrev Half := BitVec 16

/-- A slot field of a command word, a number in 0..15 (R91). -/
abbrev SlotNo := BitVec 4

end Sys2Proof
end

