-- ==== Sys2Proof/Syntax.lean ====
section
/-! DEFINITION. The commands of MLKEM-CORE, one constructor per row of spec/opcode_table.json
(30_encoding.md R92, R93, R98). `d`, `a` and `b` are slot numbers, in the order D, A, B (R101). -/

namespace Sys2Proof

inductive Instr where
  | nop
  | ntt (d a : SlotNo)
  | nttb (d a : SlotNo)
  | intt (d a : SlotNo)
  | pmul (d a b : SlotNo)
  | padd (d a b : SlotNo)
  | psub (d a b : SlotNo)
  | pred (d a : SlotNo)
  | pscale (d a : SlotNo) (imm : BitVec 12)
  | pcanon (d a : SlotNo)
  | enc1 (a : SlotNo)
  | enc4 (a : SlotNo)
  | enc5 (a : SlotNo)
  | enc10 (a : SlotNo)
  | enc11 (a : SlotNo)
  | enc12 (a : SlotNo)
  | dec1 (d : SlotNo)
  | dec4 (d : SlotNo)
  | dec5 (d : SlotNo)
  | dec10 (d : SlotNo)
  | dec11 (d : SlotNo)
  | dec12 (d : SlotNo)
  | cbd2 (d : SlotNo)
  | cbd3 (d : SlotNo)
  | rej (d : SlotNo)
  | smul
  | smred
  | sbar
  | shw
  deriving DecidableEq, Repr

end Sys2Proof
end

