-- ==== Sys2Proof/Decode.lean ====
section
/-! DEFINITION. The decoder of command words, total, rejecting by the name of the first failing
test (30_encoding.md R90 to R93, R97 steps 1 to 3, R98, R99), and the encoder (R90). -/

namespace Sys2Proof

/-- Why a word is no command; the order of the constructors is the order of the tests (R97).
Raised by `decode`; the engine records the error of the same name (R306), which is no fault. -/
inductive DecodeError where
  | illegalOp
  | reservedField
  | badParam
  deriving DecidableEq, Repr

/-- OP, bits 4:0 (R90). -/
def fieldOp (w : Word) : BitVec 5 := w.extractLsb' 0 5
/-- P, bits 7:5 (R90). -/
def fieldP (w : Word) : BitVec 3 := w.extractLsb' 5 3
/-- D, bits 11:8 (R90). -/
def fieldD (w : Word) : SlotNo := w.extractLsb' 8 4
/-- A, bits 15:12 (R90). -/
def fieldA (w : Word) : SlotNo := w.extractLsb' 12 4
/-- B, bits 19:16 (R90). -/
def fieldB (w : Word) : SlotNo := w.extractLsb' 16 4
/-- IMM, bits 31:20 (R90). -/
def fieldImm (w : Word) : BitVec 12 := w.extractLsb' 20 12

/-- The fields an opcode uses (R92). -/
structure FieldUse where
  p : Bool
  d : Bool
  a : Bool
  b : Bool
  imm : Bool
  deriving DecidableEq, Repr

/-- The table of R92; `none` for the illegal opcodes (R97 step 1, R99). -/
def fieldUse (op : BitVec 5) : Option FieldUse :=
  match op.toNat with
  | 0x00 => some ⟨false, false, false, false, false⟩
  | 0x01 => some ⟨false, true, true, false, false⟩
  | 0x02 => some ⟨false, true, true, false, false⟩
  | 0x03 => some ⟨false, true, true, false, false⟩
  | 0x04 => some ⟨false, true, true, true, false⟩
  | 0x05 => some ⟨false, true, true, true, false⟩
  | 0x06 => some ⟨false, true, true, true, false⟩
  | 0x07 => some ⟨false, true, true, false, false⟩
  | 0x08 => some ⟨false, true, true, false, true⟩
  | 0x09 => some ⟨false, true, true, false, false⟩
  | 0x0A => some ⟨true, false, true, false, false⟩
  | 0x0B => some ⟨true, true, false, false, false⟩
  | 0x0C => some ⟨true, true, false, false, false⟩
  | 0x0D => some ⟨false, true, false, false, false⟩
  | 0x10 => some ⟨false, false, false, false, false⟩
  | 0x11 => some ⟨false, false, false, false, false⟩
  | 0x12 => some ⟨false, false, false, false, false⟩
  | 0x13 => some ⟨false, false, false, false, false⟩
  | _ => none

/-- R97 step 2 passes: every field the opcode does not use is zero. -/
def unusedZero (u : FieldUse) (w : Word) : Bool :=
  (u.p || fieldP w == 0) && (u.d || fieldD w == 0) && (u.a || fieldA w == 0) &&
    (u.b || fieldB w == 0) && (u.imm || fieldImm w == 0)

/-- ENC by width code (R93). -/
def encOf (p : BitVec 3) (a : SlotNo) : Option Instr :=
  match p.toNat with
  | 0 => some (.enc1 a)
  | 1 => some (.enc4 a)
  | 2 => some (.enc5 a)
  | 3 => some (.enc10 a)
  | 4 => some (.enc11 a)
  | 5 => some (.enc12 a)
  | _ => none

/-- DEC by width code (R93). -/
def decOf (p : BitVec 3) (d : SlotNo) : Option Instr :=
  match p.toNat with
  | 0 => some (.dec1 d)
  | 1 => some (.dec4 d)
  | 2 => some (.dec5 d)
  | 3 => some (.dec10 d)
  | 4 => some (.dec11 d)
  | 5 => some (.dec12 d)
  | _ => none

/-- CBD by η code (R93). -/
def cbdOf (p : BitVec 3) (d : SlotNo) : Option Instr :=
  match p.toNat with
  | 0 => some (.cbd2 d)
  | 1 => some (.cbd3 d)
  | _ => none

/-- The command of a legal opcode from its fields (R98); `none` for a reserved P code (R97 step 3). -/
def commandOf (op : BitVec 5) (p : BitVec 3) (d a b : SlotNo) (imm : BitVec 12) : Option Instr :=
  match op.toNat with
  | 0x00 => some .nop
  | 0x01 => some (.ntt d a)
  | 0x02 => some (.nttb d a)
  | 0x03 => some (.intt d a)
  | 0x04 => some (.pmul d a b)
  | 0x05 => some (.padd d a b)
  | 0x06 => some (.psub d a b)
  | 0x07 => some (.pred d a)
  | 0x08 => some (.pscale d a imm)
  | 0x09 => some (.pcanon d a)
  | 0x0A => encOf p a
  | 0x0B => decOf p d
  | 0x0C => cbdOf p d
  | 0x0D => some (.rej d)
  | 0x10 => some .smul
  | 0x11 => some .smred
  | 0x12 => some .sbar
  | 0x13 => some .shw
  | _ => none

/-- R97 steps 1 to 3, in order: the first failing test decides. -/
def decode (w : Word) : Except DecodeError Instr :=
  match fieldUse (fieldOp w) with
  | none => .error .illegalOp
  | some u =>
    if unusedZero u w then
      match commandOf (fieldOp w) (fieldP w) (fieldD w) (fieldA w) (fieldB w) (fieldImm w) with
      | some i => .ok i
      | none => .error .badParam
    else .error .reservedField

/-- `word = OP | P<<5 | D<<8 | A<<12 | B<<16 | IMM<<20` (R90). -/
def packWord (op : BitVec 5) (p : BitVec 3) (d a b : SlotNo) (imm : BitVec 12) : Word :=
  imm ++ b ++ a ++ d ++ p ++ op

/-- The word of a command; unused fields are 0 (R92, R93, R98, R101). -/
def encode : Instr → Word
  | .nop => packWord 0x00 0 0 0 0 0
  | .ntt d a => packWord 0x01 0 d a 0 0
  | .nttb d a => packWord 0x02 0 d a 0 0
  | .intt d a => packWord 0x03 0 d a 0 0
  | .pmul d a b => packWord 0x04 0 d a b 0
  | .padd d a b => packWord 0x05 0 d a b 0
  | .psub d a b => packWord 0x06 0 d a b 0
  | .pred d a => packWord 0x07 0 d a 0 0
  | .pscale d a imm => packWord 0x08 0 d a 0 imm
  | .pcanon d a => packWord 0x09 0 d a 0 0
  | .enc1 a => packWord 0x0A 0 0 a 0 0
  | .enc4 a => packWord 0x0A 1 0 a 0 0
  | .enc5 a => packWord 0x0A 2 0 a 0 0
  | .enc10 a => packWord 0x0A 3 0 a 0 0
  | .enc11 a => packWord 0x0A 4 0 a 0 0
  | .enc12 a => packWord 0x0A 5 0 a 0 0
  | .dec1 d => packWord 0x0B 0 d 0 0 0
  | .dec4 d => packWord 0x0B 1 d 0 0 0
  | .dec5 d => packWord 0x0B 2 d 0 0 0
  | .dec10 d => packWord 0x0B 3 d 0 0 0
  | .dec11 d => packWord 0x0B 4 d 0 0 0
  | .dec12 d => packWord 0x0B 5 d 0 0 0
  | .cbd2 d => packWord 0x0C 0 d 0 0 0
  | .cbd3 d => packWord 0x0C 1 d 0 0 0
  | .rej d => packWord 0x0D 0 d 0 0 0
  | .smul => packWord 0x10 0 0 0 0 0
  | .smred => packWord 0x11 0 0 0 0 0
  | .sbar => packWord 0x12 0 0 0 0 0
  | .shw => packWord 0x13 0 0 0 0 0

/-- The command the decoder reads from a word whose low `nbits` bits are those of `w` and whose
other bits are 0. A command is one 32-bit word and no byte order enters (R67, R90, R100). -/
def decodeTableWord (nbits w : Nat) : Option Instr :=
  match decode (BitVec.ofNat 32 (w % 2 ^ nbits)) with
  | .ok i => some i
  | .error _ => none

end Sys2Proof
end

