-- ==== Sys2Proof/Config.lean ====
section
/-! DEFINITION. What an instance of MLKEM-CORE fixes (00_scope.md R7) and what the spec fixes for
every instance (R8). The hardware has no undefined result, so the model needs no free value. -/

namespace Sys2Proof

/-- The field's modulus (R2, R8). -/
def q : Int := 3329

/-- The parameters of an instance (R7). They are kept in the state's field `params`, which no step
changes, so that a statement about every state is one about every instance. DESIGN CHOICE, safe
(log 1). The timing parameters of R360 are left out: a model is untimed (R360;
log 18). -/
structure Params where
  /-- `P_SLOTS`. -/
  slots : Nat
  /-- `CMDQ_DEPTH`. -/
  queueDepth : Nat
  /-- `XOF_FIFO_BYTES`. -/
  fifoBytes : Nat
  /-- `BASE`, a host bus address. -/
  base : Nat
  deriving DecidableEq, Repr

/-- The default instance (R7). `BASE` is OPEN in the spec; 0 is a DESIGN CHOICE, unsafe (log 1). -/
def Params.default : Params := { slots := 16, queueDepth := 8, fifoBytes := 504, base := 0 }

/-- The legal ranges (R7). -/
structure Params.Legal (p : Params) : Prop where
  slots_ge : 4 ≤ p.slots
  slots_le : p.slots ≤ 16
  depth_ge : 1 ≤ p.queueDepth
  depth_le : p.queueDepth ≤ 255
  fifo_ge : 168 ≤ p.fifoBytes
  fifo_le : p.fifoBytes ≤ 65532
  fifo_words : p.fifoBytes % 4 = 0
  base_aligned : p.base % 0x4000 = 0

end Sys2Proof
end

