-- ==== Sys2Proof/Machine/State.lean ====
section
/-! DEFINITION. The state of MLKEM-CORE as plain data (10_state.md R20 to R47), the reasons a model
stops, and the state after a hardware reset (R47, 70_reset_and_hazards.md R340). -/

namespace Sys2Proof.Machine

/-- The slot memory and BBUF as one list of (window offset, byte) cells, offsets strictly rising
(20_memory.md R61, R65, R66, R68; log 9). An unlisted cell has no value (R341; log 2). -/
abbrev Memory := List Host.Cell

/-- The canonical form: offsets strictly rising. A cell without a value is not listed at all, so no
entry can equal what an unlisted cell reads as. -/
def Memory.wf : Memory → Bool
  | [] => true
  | [_] => true
  | x :: y :: rest => decide (x.1 < y.1) && Memory.wf (y :: rest)

/-- The interrupt enables of CTRL (R25). -/
structure Ctrl where
  ieDone : Bool
  ieErr : Bool
  ieXof : Bool
  deriving DecidableEq, Repr

/-- IRQ_STATUS, the three sticky event bits (R27). -/
structure IrqStatus where
  done : Bool
  err : Bool
  xofNeed : Bool
  deriving DecidableEq, Repr

/-- The error codes (60_exceptions.md R300). -/
inductive ErrorCode where
  | none
  | illegalOp
  | reservedField
  | badParam
  | badSlot
  | cmdqOverflow
  | hostBusyAccess
  | xofOverflow
  deriving DecidableEq, Repr

/-- ERR_CAUSE (R28). -/
structure ErrCause where
  code : ErrorCode
  op : BitVec 5
  multi : Bool
  deriving DecidableEq, Repr

/-- The engine's state (R41). -/
inductive Engine where
  | idle
  | exec (w : Word)
  | xwait (w : Word)
  deriving DecidableEq, Repr

/-- One access of the host (R62): a bus address, and for a write the byte-lane enables, which the
block ignores, and the value. -/
inductive HostAccess where
  | read (addr : Nat)
  | write (addr : Nat) (lanes : BitVec 4) (v : Word)
  deriving DecidableEq, Repr

/-- Who acts next (00_scope.md R15, 20_memory.md R71): the engine, the host, or the reset input
(R340). -/
inductive Event where
  | engine
  | host (a : HostAccess)
  | reset
  deriving DecidableEq, Repr

/-- The state. Every field but the last two and `params` is one the spec names. -/
structure State where
  /-- The instance's parameters, changed by no step (R7; log 1). -/
  params : Params
  /-- Slot memory and BBUF (R20, R35). -/
  mem : Memory
  /-- SA (R36). -/
  sa : Word
  /-- SB, bits 15:0 (R37). -/
  sb : BitVec 16
  /-- SR (R38). -/
  sr : BitVec 16
  /-- The XOF FIFO, oldest byte first (R39). -/
  fifo : List Byte
  /-- The command queue, oldest word first (R40). -/
  cmdq : List Word
  /-- The engine (R41). -/
  engine : Engine
  /-- rej_buf, first accepted coefficient first; its length is rej_n (R41). -/
  rejBuf : List Half
  /-- rej_used, without a bound (R41, R228; log 19). -/
  rejUsed : Nat
  /-- CTRL (R25). -/
  ctrl : Ctrl
  /-- IRQ_STATUS (R27). -/
  irq : IrqStatus
  /-- ERR_CAUSE (R28). -/
  errCause : ErrCause
  /-- ERR_INFO (R29). -/
  errInfo : Word
  /-- CMD_COUNT (R32). -/
  cmdCount : BitVec 32
  /-- REJ_CONSUMED (R34). -/
  rejConsumed : BitVec 32
  /-- The model's own: what acts next, in order; when it is empty the engine acts. DESIGN CHOICE,
  safe (log 3). -/
  script : List Event
  /-- The model's own: the value the block last drove for a host read. DESIGN CHOICE (log 4). -/
  rdata : Word
  deriving DecidableEq, Repr

/-- Why the model stops (70_reset_and_hazards.md R341: each such read "is a fault in a model"). All
are safe: the hardware goes on with some bit pattern that no program may depend on. -/
inductive Fault where
  /-- A command reads a source slot with a coefficient that holds no value. Raised by the commands
  with a source slot. -/
  | unwrittenSlot (n : SlotNo)
  /-- A command reads a byte of BBUF that holds no value. Raised by DEC and CBD. -/
  | unwrittenBbuf
  /-- The host reads, while the block is idle, a window word with a byte that holds no value; the
  offset of the word. Raised by a host read. -/
  | unwrittenWindow (off : Nat)
  deriving DecidableEq, Repr

/-- Why an instruction has no meaning. -/
inductive Refusal where
  /-- Raised by exec for an instruction the model has no meaning for; no arm raises it now. Safe. -/
  | notModelled (mnemonic : String)
  deriving DecidableEq, Repr

/-- What a step, a command or a host access answers. -/
abbrev Result := Host.Outcome State Fault Refusal

/-- After a hardware reset (R47, R340), on the default instance (R7). `params.base`, `script` and
`rdata` are the model's choices: DESIGN CHOICE (log 1, log 3, log 4). -/
def State.reset : State where
  params := Params.default
  mem := []
  sa := 0
  sb := 0
  sr := 0
  fifo := []
  cmdq := []
  engine := .idle
  rejBuf := []
  rejUsed := 0
  ctrl := ⟨false, false, false⟩
  irq := ⟨false, false, false⟩
  errCause := ⟨.none, 0, false⟩
  errInfo := 0
  cmdCount := 0
  rejConsumed := 0
  script := []
  rdata := 0

end Sys2Proof.Machine
end

