-- ==== Sys2Proof/Machine/Flags.lean ====
section
/-! DEFINITION. The status bits. The block has no condition codes and no command sets a flag
(10_state.md R44); its only status bits are those of STATUS and IRQ_STATUS (R26, R27), with the
interrupt line over them (R46). -/

namespace Sys2Proof.Machine

/-- A bit of a register word. -/
def bit (b : Bool) : BitVec 1 := BitVec.ofBool b

/-- `busy` (R42). -/
def State.busy (s : State) : Bool := s.engine != .idle || !s.cmdq.isEmpty

/-- `xwait` (R42). -/
def State.xwait (s : State) : Bool :=
  match s.engine with
  | .xwait _ => true
  | _ => false

/-- The interrupt line (R46). -/
def State.irqLine (s : State) : Bool :=
  s.irq.done && s.ctrl.ieDone || s.irq.err && s.ctrl.ieErr || s.irq.xofNeed && s.ctrl.ieXof

/-- STATUS (R26). -/
def State.statusWord (s : State) : Word :=
  (0 : BitVec 16) ++ BitVec.ofNat 8 s.cmdq.length ++ (0 : BitVec 3) ++ bit (s.engine != .idle) ++
    bit (decide (s.cmdq.length = s.params.queueDepth)) ++ bit s.xwait ++ bit s.irq.err ++ bit s.busy

/-- CTRL as read: the W1P bits read 0 (R25). -/
def Ctrl.word (c : Ctrl) : Word :=
  (0 : BitVec 25) ++ bit c.ieXof ++ bit c.ieErr ++ bit c.ieDone ++ (0 : BitVec 4)

/-- IRQ_STATUS as read (R27). -/
def IrqStatus.word (i : IrqStatus) : Word :=
  (0 : BitVec 29) ++ bit i.xofNeed ++ bit i.err ++ bit i.done

/-- The value of an error code (R300). -/
def errorNumber : ErrorCode → BitVec 8
  | .none => 0x00
  | .illegalOp => 0x01
  | .reservedField => 0x02
  | .badParam => 0x03
  | .badSlot => 0x04
  | .cmdqOverflow => 0x10
  | .hostBusyAccess => 0x11
  | .xofOverflow => 0x12

/-- ERR_CAUSE as read (R28). -/
def ErrCause.word (c : ErrCause) : Word :=
  (0 : BitVec 15) ++ bit c.multi ++ (0 : BitVec 3) ++ c.op ++ errorNumber c.code

/-- ID (R24): MAGIC, VERSION, QDEPTH, SLOTS. -/
def idWord (p : Params) : Word :=
  (0x4B : BitVec 8) ++ (0x01 : BitVec 8) ++ BitVec.ofNat 8 p.queueDepth ++ BitVec.ofNat 8 p.slots

/-- XOF_LEVEL (R31). -/
def State.xofLevelWord (s : State) : Word := (0 : BitVec 16) ++ BitVec.ofNat 16 s.fifo.length

/-- XOF_CAP (R45). -/
def xofCapWord (p : Params) : Word := (0 : BitVec 16) ++ BitVec.ofNat 16 p.fifoBytes

/-- The DONE rule (60_exceptions.md R320): `t` is the state after an engine step or an error action
that began in a state with `busy` as given; DONE is set if the block was busy and is not any more. -/
def State.noteDone (t : State) (wasBusy : Bool) : State :=
  if wasBusy && !t.busy then { t with irq := { t.irq with done := true } } else t

end Sys2Proof.Machine
end

