-- ==== Sys2Proof/Machine/Operands.lean ====
section
/-! DEFINITION. Conversions (00_scope.md R10), bit streams (44_codec.md R267, 43_sampler.md R235),
and the operands of commands: coefficients of slots and bytes of BBUF (R11, 20_memory.md R65, R66). -/

namespace Sys2Proof.Machine

/-- `sext_16` of a number below 2^16 (R10). -/
def sext16 (u : Int) : Int := if u < 32768 then u else u - 65536

/-- `wrap16(v) = sext_16(v mod 2^16)` (R10). -/
def wrap16 (v : Int) : Int := sext16 (v % 65536)

/-- `sext_32` of a number below 2^32 (R10). -/
def sext32 (u : Int) : Int := if u < 2147483648 then u else u - 4294967296

/-- `wrap32(v) = sext_32(v mod 2^32)` (R10). -/
def wrap32 (v : Int) : Int := sext32 (v % 4294967296)

/-- The 16-bit pattern of an int16, `lo16` (R10). -/
def toHalf (v : Int) : Half := BitVec.ofInt 16 v

/-- The bytes of a coefficient in storage, low byte first (R66, R67). -/
def halfBytes (h : Half) : List Byte := [h.extractLsb' 0 8, h.extractLsb' 8 8]

/-- The int16 held by two bytes of storage (R66, R67). -/
def bytesCoeff (lo hi : Byte) : Int := (hi ++ lo : BitVec 16).toInt

/-- The word of four bytes, byte 0 in bits 7:0 (R65, R67). -/
def bytesWord (b0 b1 b2 b3 : Byte) : Word := b3 ++ b2 ++ b1 ++ b0

/-- The bytes of a word, bits 7:0 first (R65, R67, R221). -/
def wordBytes (v : Word) : List Byte :=
  [v.extractLsb' 0 8, v.extractLsb' 8 8, v.extractLsb' 16 8, v.extractLsb' 24 8]

/-- The low `n` bits of a number, least significant first (R67, R267). -/
def toBits : Nat → Nat → List Bool
  | 0, _ => []
  | n + 1, v => (v % 2 == 1) :: toBits n (v / 2)

/-- The number whose bits are given least significant first (R262). -/
def ofBits : List Bool → Nat
  | [] => 0
  | b :: bs => (if b then 1 else 0) + 2 * ofBits bs

/-- `k` consecutive fields of `n` bits of a stream. -/
def fields (n : Nat) : Nat → List Bool → List (List Bool)
  | 0, _ => []
  | k + 1, bs => bs.take n :: fields n k (bs.drop n)

/-- The bit stream of bytes: bit k is bit (k mod 8) of byte k/8 (R235, R267). -/
def byteStream (bytes : List Byte) : List Bool := bytes.flatMap fun b => toBits 8 b.toNat

/-- popcount of an `n`-bit pattern (R123). -/
def popcount (n v : Nat) : Nat := (toBits n v).count true

/-- All of the values, if every one is there. -/
def allSome {α : Type} : List (Option α) → Option (List α)
  | [] => some []
  | none :: _ => none
  | some a :: rest => (allSome rest).map (a :: ·)

/-- The byte of storage at a window offset, if it holds a value (R341). -/
def readByte (m : Memory) (off : Nat) : Option Byte :=
  match m with
  | [] => none
  | x :: rest => if x.1 = off then some x.2 else readByte rest off

/-- The cells of consecutive bytes from an offset up. -/
def cellsAt : Nat → List Byte → Memory
  | _, [] => []
  | off, b :: bs => (off, b) :: cellsAt (off + 1) bs

/-- Storage with consecutive bytes written from an offset up. It keeps the canonical form: the cells
below, the bytes, the cells above. -/
def writeBytes (m : Memory) (off : Nat) (bs : List Byte) : Memory :=
  m.filter (fun x => decide (x.1 < off)) ++ cellsAt off bs ++
    m.filter (fun x => decide (off + bs.length ≤ x.1))

/-- Offset of BBUF[0] (R61, R65). -/
def bbufBase : Nat := 0x400

/-- Offset of coefficient 0 of slot `n` (R61, R66). -/
def slotBase (n : Nat) : Nat := 0x1000 + 0x200 * n

/-- `Slot[n][i]`, if it holds a value (R11, R20, R66, R341). -/
def coeff (m : Memory) (n : SlotNo) (i : Nat) : Option Int :=
  match readByte m (slotBase n.toNat + 2 * i), readByte m (slotBase n.toNat + 2 * i + 1) with
  | some lo, some hi => some (bytesCoeff lo hi)
  | _, _ => none

/-- The 256 coefficients of a slot, if every one holds a value (R150, R341). -/
def loadSlot (m : Memory) (n : SlotNo) : Option (List Int) :=
  allSome ((List.range 256).map (coeff m n))

/-- `Slot[n] <- f`, each value as its int16 pattern (R11, R66). -/
def storeSlot (m : Memory) (n : SlotNo) (f : List Int) : Memory :=
  writeBytes m (slotBase n.toNat) (f.flatMap fun v => halfBytes (toHalf v))

/-- `BBUF[k]`, if it holds a value (R11, R35, R341). -/
def bbufByte (m : Memory) (k : Nat) : Option Byte := readByte m (bbufBase + k)

/-- `BBUF[0 .. n-1]`, if every byte holds a value (R78, R341). -/
def loadBbuf (m : Memory) (n : Nat) : Option (List Byte) :=
  allSome ((List.range n).map (bbufByte m))

/-- `BBUF[0 ..] <- bs` (R11, R260). -/
def storeBbuf (m : Memory) (bs : List Byte) : Memory := writeBytes m bbufBase bs

/-- The word of a window at an offset, if its four bytes hold values (R65, R66, R341). -/
def loadWord (m : Memory) (off : Nat) : Option Word :=
  match readByte m off, readByte m (off + 1), readByte m (off + 2), readByte m (off + 3) with
  | some b0, some b1, some b2, some b3 => some (bytesWord b0 b1 b2 b3)
  | _, _, _, _ => none

/-- The word of a window written whole (R62, R65, R66). -/
def storeWord (m : Memory) (off : Nat) (v : Word) : Memory := writeBytes m off (wordBytes v)

end Sys2Proof.Machine
end

