-- ==== Sys2Proof/WellFormed.lean ====
section
/-! DEFINITION. Which commands are well formed on an instance: every used slot field is below
P_SLOTS, the last step of the command check (30_encoding.md R91, R97 step 4). The earlier steps of
the check are the decoder's. -/

namespace Sys2Proof

/-- The used slot fields of a command (R92). -/
def Instr.slotsUsed : Instr → List SlotNo
  | .nop | .smul | .smred | .sbar | .shw => []
  | .ntt d a | .nttb d a | .intt d a | .pred d a | .pscale d a _ | .pcanon d a => [d, a]
  | .pmul d a b | .padd d a b | .psub d a b => [d, a, b]
  | .enc1 a | .enc4 a | .enc5 a | .enc10 a | .enc11 a | .enc12 a => [a]
  | .dec1 d | .dec4 d | .dec5 d | .dec10 d | .dec11 d | .dec12 d => [d]
  | .cbd2 d | .cbd3 d | .rej d => [d]

/-- R97 step 4 passes: no used slot field is at or above P_SLOTS. -/
def Instr.wf (p : Params) (i : Instr) : Bool :=
  i.slotsUsed.all fun n => decide (n.toNat < p.slots)

end Sys2Proof
end

