-- ==== Sys2Proof/Machine/Ops.lean ====
section
/-! DEFINITION. The named operations over the state: recording an error (the block's exception,
60_exceptions.md R305, R306) and its recovery (R308), completing a command (R320, R325), the command
check's last step (30_encoding.md R97), the resets (70_reset_and_hazards.md R340, R343), leaving XWAIT
(43_sampler.md R226), and the shapes the meanings share (41_ring.md R150). -/

namespace Sys2Proof.Machine

/-- `raise Error(code, info)` (R305), without the DONE rule: `op` is w[4:0] for a command error and 0
for a host error. The first error is kept and a further one sets MULTI; the queue is emptied. -/
def raiseError (code : ErrorCode) (op : BitVec 5) (info : Word) (s : State) : State :=
  if s.irq.err then
    { s with errCause := { s.errCause with multi := true }, cmdq := [] }
  else
    { s with
      errCause := ⟨code, op, false⟩
      errInfo := info
      irq := { s.irq with err := true }
      cmdq := [] }

/-- The recovery from an error, the W1C of IRQ_STATUS.ERR (R27, R308): while ERR = 0 it does
nothing (log 13). -/
def clearError (s : State) : State :=
  if s.irq.err then
    { s with irq := { s.irq with err := false }, errCause := ⟨.none, 0, false⟩, errInfo := 0 }
  else s

/-- A host error, an error action of the host (R305, R306, R320): the command that is executing goes
on. ERR_INFO is the byte offset of the access (R29). -/
def hostError (code : ErrorCode) (off : Nat) (s : State) : State :=
  (raiseError code 0 (BitVec.ofNat 32 off) s).noteDone s.busy

/-- The error code of a failed test of the decoder (R97, R300). -/
def decodeErrorCode : DecodeError → ErrorCode
  | .illegalOp => .illegalOp
  | .reservedField => .reservedField
  | .badParam => .badParam

/-- The word `w` the engine has taken fails its check (R306): the error is recorded, nothing else of
the command happens, the engine is IDLE and, the queue being empty, DONE is set (R320). -/
def failCommand (code : ErrorCode) (w : Word) (s : State) : State :=
  ({ raiseError code (fieldOp w) w s with engine := .idle }).noteDone true

/-- A command that passed its check completes (R95, R320, R325). -/
def finish (s : State) : State :=
  ({ s with engine := .idle, cmdCount := s.cmdCount + 1 }).noteDone true

/-- The engine takes the word `w` at the head of the queue; `rest` stays queued (R95). -/
def takeWord (w : Word) (rest : List Word) (s : State) : State :=
  { s with engine := .exec w, cmdq := rest }

/-- The last step of the command check (R97 step 4): a command that names a slot at or above P_SLOTS
fails with BAD_SLOT and has no other effect (R306); its word is `encode i` (log 11). -/
def checked (i : Instr) (s : State) (k : Result) : Result :=
  if i.wf s.params then k else .next (failCommand .badSlot (encode i) s)

/-- A command's source slot; a coefficient with no value is a fault (R150, R341). -/
def withSlot (n : SlotNo) (s : State) (k : List Int → Result) : Result :=
  match loadSlot s.mem n with
  | some f => k f
  | none => .fault (.unwrittenSlot n)

/-- A command's source bytes BBUF[0 .. n-1]; a byte with no value is a fault (R78, R341). -/
def withBbuf (n : Nat) (s : State) (k : List Byte → Result) : Result :=
  match loadBbuf s.mem n with
  | some bytes => k bytes
  | none => .fault .unwrittenBbuf

/-- A command that completes by writing slot D (R150). -/
def finishSlot (d : SlotNo) (f : List Int) (s : State) : State :=
  finish { s with mem := storeSlot s.mem d f }

/-- D <- F(A), all sources read first (R150). -/
def slotCommand (i : Instr) (d a : SlotNo) (F : List Int → List Int) (s : State) : Result :=
  checked i s (withSlot a s fun f => .next (finishSlot d (F f) s))

/-- D <- F(A, B), all sources read first (R150). -/
def slotCommand2 (i : Instr) (d a b : SlotNo) (F : List Int → List Int → List Int) (s : State) :
    Result :=
  checked i s (withSlot a s fun f => withSlot b s fun g => .next (finishSlot d (F f g) s))

/-- D <- F(BBUF[0 .. n-1]). -/
def bbufCommand (i : Instr) (n : Nat) (d : SlotNo) (F : List Byte → List Int) (s : State) : Result :=
  checked i s (withBbuf n s fun bytes => .next (finishSlot d (F bytes) s))

/-- SR <- v (40_field.md, section 3). -/
def scalarCommand (v : Int) (s : State) : Result :=
  .next (finish { s with sr := toHalf v })

/-- The engine leaves XWAIT for EXEC as soon as the FIFO holds at least 3 bytes (R226, R364; log 6). -/
def wake (s : State) : State :=
  match s.engine with
  | .xwait w => if 3 ≤ s.fifo.length then { s with engine := .exec w } else s
  | _ => s

/-- The soft reset (R343): slots and BBUF are kept, DONE is not set. -/
def softReset (s : State) : State :=
  { s with
    engine := .idle
    rejBuf := []
    rejUsed := 0
    cmdq := []
    fifo := []
    ctrl := ⟨false, false, false⟩
    irq := ⟨false, false, false⟩
    errCause := ⟨.none, 0, false⟩
    errInfo := 0
    cmdCount := 0
    rejConsumed := 0
    sa := 0
    sb := 0
    sr := 0 }

/-- The hardware reset of an instance (R47, R340): slots and BBUF hold no value any more (R342; log
10). What the host does next (log 3) and what it last read (log 4) are not the block's state. -/
def hardReset (s : State) : State :=
  { State.reset with params := s.params, script := s.script, rdata := s.rdata }

end Sys2Proof.Machine
end

