-- ==== Sys2Proof/Machine/Codec.lean ====
section
/-! DEFINITION. The codec: ENC.N and DEC.N (44_codec.md R260, R262, R267). -/

namespace Sys2Proof.Machine

/-- ByteEncode_N: the low N bits of each coefficient's pattern, least significant first, in bytes
filled from their least significant bit up (R260, R267). -/
def byteEncode (n : Nat) (f : List Int) : List Byte :=
  (fields 8 (32 * n) (f.flatMap fun v => toBits n (toHalf v).toNat)).map fun bs =>
    BitVec.ofNat 8 (ofBits bs)

/-- ByteDecode_N: 256 fields of N bits, not reduced (R262, R263, R267). -/
def byteDecode (n : Nat) (bytes : List Byte) : List Int :=
  (fields n 256 (byteStream bytes)).map fun bs => (ofBits bs : Int)

/-- ENC.N: BBUF[0 .. 32N-1] <- ByteEncode_N(A); the bytes beyond are not written (R260). -/
def encCommand (i : Instr) (n : Nat) (a : SlotNo) (s : State) : Result :=
  checked i s (withSlot a s fun f => .next (finish { s with mem := storeBbuf s.mem (byteEncode n f) }))

/-- DEC.N: D <- ByteDecode_N(BBUF[0 .. 32N-1]) (R262). -/
def decCommand (i : Instr) (n : Nat) (d : SlotNo) (s : State) : Result :=
  bbufCommand i (32 * n) d (byteDecode n) s

/-- ENC.1 (R260). -/
def execEnc1 (a : SlotNo) (s : State) : Result := encCommand (.enc1 a) 1 a s
/-- ENC.4 (R260). -/
def execEnc4 (a : SlotNo) (s : State) : Result := encCommand (.enc4 a) 4 a s
/-- ENC.5 (R260). -/
def execEnc5 (a : SlotNo) (s : State) : Result := encCommand (.enc5 a) 5 a s
/-- ENC.10 (R260). -/
def execEnc10 (a : SlotNo) (s : State) : Result := encCommand (.enc10 a) 10 a s
/-- ENC.11 (R260). -/
def execEnc11 (a : SlotNo) (s : State) : Result := encCommand (.enc11 a) 11 a s
/-- ENC.12 (R260). -/
def execEnc12 (a : SlotNo) (s : State) : Result := encCommand (.enc12 a) 12 a s
/-- DEC.1 (R262). -/
def execDec1 (d : SlotNo) (s : State) : Result := decCommand (.dec1 d) 1 d s
/-- DEC.4 (R262). -/
def execDec4 (d : SlotNo) (s : State) : Result := decCommand (.dec4 d) 4 d s
/-- DEC.5 (R262). -/
def execDec5 (d : SlotNo) (s : State) : Result := decCommand (.dec5 d) 5 d s
/-- DEC.10 (R262). -/
def execDec10 (d : SlotNo) (s : State) : Result := decCommand (.dec10 d) 10 d s
/-- DEC.11 (R262). -/
def execDec11 (d : SlotNo) (s : State) : Result := decCommand (.dec11 d) 11 d s
/-- DEC.12 (R262). -/
def execDec12 (d : SlotNo) (s : State) : Result := decCommand (.dec12 d) 12 d s

end Sys2Proof.Machine
end

