-- ==== Sys2Proof/Machine/Field.lean ====
section
/-! DEFINITION. The arithmetic primitives (40_field.md R120 to R122). Values are exact integers; every
narrowing is written out (R12, R124). -/

namespace Sys2Proof.Machine

/-- `mont_reduce` of an int32 (R120). -/
def montReduce (v : Int) : Int :=
  let k := sext16 (v * 62209 % 65536)
  let c := k * 3329 / 65536
  let vh := v / 65536
  wrap16 (vh - c)

/-- `mont_mul` of two int16 values (R121). -/
def montMul (a b : Int) : Int := montReduce (a * b)

/-- `barrett` of an int16 (R122). -/
def barrett (x : Int) : Int :=
  let t := x * 20159 + 33554432
  let quot := t / 67108864
  x - quot * 3329

end Sys2Proof.Machine
end

