-- ==== Sys2Proof/Machine/Ntt.lean ====
section
/-! DEFINITION. The forward NTT, its variant for binomial inputs, and the inverse NTT (42_ntt.md R181
to R188). -/

namespace Sys2Proof.Machine

/-- The Cooley-Tukey butterfly (R183). -/
def ct (z a b : Int) : Int × Int :=
  let t := montMul b z
  (wrap16 (a + t), wrap16 (a - t))

/-- The layer-7 butterfly of NTTB, a plain product by -1600 (R186). -/
def ctPlain (a b : Int) : Int × Int :=
  let t := wrap16 (b * -1600)
  (wrap16 (a + t), wrap16 (a - t))

/-- The Gentleman-Sande butterfly (R184). -/
def gs (z a b : Int) : Int × Int :=
  (barrett (wrap16 (a + b)), montMul (wrap16 (b - a)) z)

/-- One group of a layer: the butterfly on f[j] and f[j+len], for the first 2*len values (R182, R185). -/
def butterflyGroup (bf : Int → Int → Int × Int) (len : Nat) (f : List Int) : List Int :=
  let pairs := List.zipWith bf (f.take len) ((f.drop len).take len)
  pairs.map Prod.fst ++ pairs.map Prod.snd

/-- One layer: its groups in order, the butterfly of group number g being `bf g` (R182). -/
def butterflyLayer (bf : Nat → Int → Int → Int × Int) (len : Nat) : Nat → Nat → List Int → List Int
  | 0, _, _ => []
  | groups + 1, g, f =>
    butterflyGroup (bf g) len f ++ butterflyLayer bf len groups (g + 1) (f.drop (2 * len))

/-- Layers 7-k+1 … of the forward NTT: the layers L listed, from ROM index `i` up (R185). -/
def forwardLayers : List Nat → Nat → List Int → List Int
  | [], _, f => f
  | L :: rest, i, f =>
    forwardLayers rest (i + 2 ^ (7 - L))
      (butterflyLayer (fun g => ct (zrom (i + g))) (2 ^ L) (2 ^ (7 - L)) 0 f)

/-- The layers L listed of the inverse NTT, from ROM index `i` down (R188). -/
def inverseLayers : List Nat → Nat → List Int → List Int
  | [], _, f => f
  | L :: rest, i, f =>
    inverseLayers rest (i - 2 ^ (7 - L))
      (butterflyLayer (fun g => gs (zrom (i - g))) (2 ^ L) (2 ^ (7 - L)) 0 f)

/-- The forward NTT (R185; log 15). -/
def forwardNtt (f : List Int) : List Int := (forwardLayers [7, 6, 5, 4, 3, 2, 1] 1 f).map barrett

/-- The forward NTT with the layer-7 shortcut (R186). -/
def forwardNttB (f : List Int) : List Int :=
  (forwardLayers [6, 5, 4, 3, 2, 1] 2 (butterflyLayer (fun _ => ctPlain) 128 1 0 f)).map barrett

/-- The inverse NTT, scaled by 128 (R188). -/
def inverseNtt (f : List Int) : List Int :=
  (inverseLayers [1, 2, 3, 4, 5, 6, 7] 127 f).map barrett

/-- NTT (R185). -/
def execNtt (d a : SlotNo) (s : State) : Result := slotCommand (.ntt d a) d a forwardNtt s

/-- NTTB (R186). -/
def execNttb (d a : SlotNo) (s : State) : Result := slotCommand (.nttb d a) d a forwardNttB s

/-- INTT (R188). -/
def execIntt (d a : SlotNo) (s : State) : Result := slotCommand (.intt d a) d a inverseNtt s

end Sys2Proof.Machine
end

