-- ==== Sys2Proof/Machine/Ring.lean ====
section
/-! DEFINITION. The ring commands (41_ring.md R151 to R159). -/

namespace Sys2Proof.Machine

/-- NOP (R151). -/
def execNop (s : State) : Result := .next (finish s)

/-- PADD (R152). -/
def execPadd (d a b : SlotNo) (s : State) : Result :=
  slotCommand2 (.padd d a b) d a b (List.zipWith fun x y => wrap16 (x + y)) s

/-- PSUB (R153). -/
def execPsub (d a b : SlotNo) (s : State) : Result :=
  slotCommand2 (.psub d a b) d a b (List.zipWith fun x y => wrap16 (x - y)) s

/-- PRED (R154). -/
def execPred (d a : SlotNo) (s : State) : Result :=
  slotCommand (.pred d a) d a (List.map barrett) s

/-- PSCALE (R156): the immediate is read unsigned (R91). -/
def execPscale (d a : SlotNo) (imm : BitVec 12) (s : State) : Result :=
  slotCommand (.pscale d a imm) d a (List.map fun x => montMul x imm.toNat) s

/-- One coefficient of PCANON (R157). -/
def canon (x : Int) : Int := if x < 0 then x + 3329 else x

/-- PCANON (R157). -/
def execPcanon (d a : SlotNo) (s : State) : Result :=
  slotCommand (.pcanon d a) d a (List.map canon) s

/-- The base-case product of one pair with its constant `g` (R159). -/
def basePair (g a0 a1 b0 b1 : Int) : List Int :=
  let t := montReduce (a1 * b1)
  [montReduce (wrap32 (a0 * b0 + t * g)), montReduce (wrap32 (a0 * b1 + a1 * b0))]

/-- The base-case products of the pairs p, p+1, … of two polynomials (R159). -/
def baseMul : Nat → List Int → List Int → List Int
  | p, a0 :: a1 :: fa, b0 :: b1 :: fb => basePair (gamma p) a0 a1 b0 b1 ++ baseMul (p + 1) fa fb
  | _, _, _ => []

/-- PMUL (R159). -/
def execPmul (d a b : SlotNo) (s : State) : Result :=
  slotCommand2 (.pmul d a b) d a b (baseMul 0) s

end Sys2Proof.Machine
end

