-- ==== Sys2Proof/Machine/Sampler.lean ====
section
/-! DEFINITION. The samplers: REJ, a sequence of engine steps (43_sampler.md R223 to R227), and CBD
(R235, R236). -/

namespace Sys2Proof.Machine

/-- The two candidates of a triple of stream bytes (R223). -/
def candidates (b0 b1 b2 : Byte) : Nat × Nat :=
  (b0.toNat + 256 * (b1.toNat % 16), b1.toNat / 16 + 16 * b2.toNat)

/-- A candidate is appended iff it is below 3329 and fewer than 256 are accepted (R224, R225). -/
def accept (buf : List Half) (c : Nat) : List Half :=
  if c < 3329 ∧ buf.length < 256 then buf ++ [BitVec.ofNat 16 c] else buf

/-- A REJ's step takes a triple (R225). -/
def rejTriple (b0 b1 b2 : Byte) (rest : List Byte) (s : State) : State :=
  { s with
    fifo := rest
    rejUsed := s.rejUsed + 3
    rejBuf := accept (accept s.rejBuf (candidates b0 b1 b2).1) (candidates b0 b1 b2).2 }

/-- A REJ enters XWAIT and asks for bytes (R226, 60_exceptions.md R321). -/
def rejWait (w : Word) (s : State) : State :=
  { s with engine := .xwait w, irq := { s.irq with xofNeed := true } }

/-- A REJ completes into slot D (R227). -/
def rejComplete (d : SlotNo) (s : State) : State :=
  finish { s with
    mem := storeSlot s.mem d (s.rejBuf.map BitVec.toInt)
    rejConsumed := BitVec.ofNat 32 s.rejUsed
    fifo := [] }

/-- The label `step` of R225, with the engine in EXEC(w); slot D is w's field (R90). -/
def rejStep (w : Word) (s : State) : State :=
  if s.rejBuf.length = 256 then rejComplete (fieldD w) s
  else
    match s.fifo with
    | b0 :: b1 :: b2 :: rest => rejTriple b0 b1 b2 rest s
    | _ => rejWait w s

/-- REJ: the label `start` of R225, one engine step of its own (DEDUCED, safe; log 5). -/
def execRej (d : SlotNo) (s : State) : Result :=
  checked (.rej d) s
    (.next { s with engine := .exec (encode (.rej d)), rejBuf := [], rejUsed := 0 })

/-- The coefficient of 2η bits: the weight of the first η less the weight of the last η (R236). -/
def cbdCoeff (eta : Nat) (bits : List Bool) : Int :=
  ((bits.take eta).count true : Int) - ((bits.drop eta).count true : Int)

/-- SamplePolyCBD of 64η bytes (R235, R236). -/
def cbdSample (eta : Nat) (bytes : List Byte) : List Int :=
  (fields (2 * eta) 256 (byteStream bytes)).map (cbdCoeff eta)

/-- CBD.2 (R236). -/
def execCbd2 (d : SlotNo) (s : State) : Result := bbufCommand (.cbd2 d) 128 d (cbdSample 2) s

/-- CBD.3 (R236). -/
def execCbd3 (d : SlotNo) (s : State) : Result := bbufCommand (.cbd3 d) 192 d (cbdSample 3) s

end Sys2Proof.Machine
end

