-- ==== Sys2Proof/Machine/Scalar.lean ====
section
/-! DEFINITION. The scalar commands (40_field.md R130 to R133). -/

namespace Sys2Proof.Machine

/-- SA[15:0] read as an int16 (R36). -/
def saHalf (s : State) : Int := (s.sa.extractLsb' 0 16).toInt

/-- SMUL (R130). -/
def execSmul (s : State) : Result := scalarCommand (montMul (saHalf s) s.sb.toInt) s

/-- SMRED (R131). -/
def execSmred (s : State) : Result := scalarCommand (montReduce s.sa.toInt) s

/-- SBAR (R132). -/
def execSbar (s : State) : Result := scalarCommand (barrett (saHalf s)) s

/-- SHW (R133). -/
def execShw (s : State) : Result := scalarCommand (popcount 32 s.sa.toNat) s

end Sys2Proof.Machine
end

