-- ==== Sys2Proof/Machine/Dispatch.lean ====
section
/-! DEFINITION. The meaning of every command: one arm per constructor (30_encoding.md R98). -/

namespace Sys2Proof.Machine

def exec (i : Instr) (s : State) : Host.Outcome State Fault Refusal :=
  match i with
  | .nop => Sys2Proof.Machine.execNop s
  | .ntt d a => Sys2Proof.Machine.execNtt d a s
  | .nttb d a => Sys2Proof.Machine.execNttb d a s
  | .intt d a => Sys2Proof.Machine.execIntt d a s
  | .pmul d a b => Sys2Proof.Machine.execPmul d a b s
  | .padd d a b => Sys2Proof.Machine.execPadd d a b s
  | .psub d a b => Sys2Proof.Machine.execPsub d a b s
  | .pred d a => Sys2Proof.Machine.execPred d a s
  | .pscale d a imm => Sys2Proof.Machine.execPscale d a imm s
  | .pcanon d a => Sys2Proof.Machine.execPcanon d a s
  | .enc1 a => Sys2Proof.Machine.execEnc1 a s
  | .enc4 a => Sys2Proof.Machine.execEnc4 a s
  | .enc5 a => Sys2Proof.Machine.execEnc5 a s
  | .enc10 a => Sys2Proof.Machine.execEnc10 a s
  | .enc11 a => Sys2Proof.Machine.execEnc11 a s
  | .enc12 a => Sys2Proof.Machine.execEnc12 a s
  | .dec1 d => Sys2Proof.Machine.execDec1 d s
  | .dec4 d => Sys2Proof.Machine.execDec4 d s
  | .dec5 d => Sys2Proof.Machine.execDec5 d s
  | .dec10 d => Sys2Proof.Machine.execDec10 d s
  | .dec11 d => Sys2Proof.Machine.execDec11 d s
  | .dec12 d => Sys2Proof.Machine.execDec12 d s
  | .cbd2 d => Sys2Proof.Machine.execCbd2 d s
  | .cbd3 d => Sys2Proof.Machine.execCbd3 d s
  | .rej d => Sys2Proof.Machine.execRej d s
  | .smul => Sys2Proof.Machine.execSmul s
  | .smred => Sys2Proof.Machine.execSmred s
  | .sbar => Sys2Proof.Machine.execSbar s
  | .shw => Sys2Proof.Machine.execShw s

end Sys2Proof.Machine
end

