-- ==== Sys2Proof/Machine/Engine.lean ====
section
/-! DEFINITION. The engine agent: taking a word from the queue, checking it, and the steps of a running
REJ (30_encoding.md R95, R97; 20_memory.md R71; 43_sampler.md R225, R226). -/

namespace Sys2Proof.Machine

/-- The engine has taken the word `w`: a word that fails R97 steps 1 to 3 records its error (R306),
any other is executed; step 4 is part of each meaning (log 11). -/
def runWord (w : Word) (s : State) : Result :=
  match decode w with
  | .ok i => exec i s
  | .error e => .next (failCommand (decodeErrorCode e) w s)

/-- One turn of the engine. With nothing to do, or in XWAIT for bytes, it changes nothing (R226, R335,
R364; log 7). In EXEC the word is a REJ's, every other command being one step (R71; log 16). -/
def engineStep (s : State) : Result :=
  match s.engine, s.cmdq with
  | .idle, [] => .next s
  | .idle, w :: rest => runWord w (takeWord w rest s)
  | .exec w, _ => .next (rejStep w s)
  | .xwait _, _ => .next (wake s)

end Sys2Proof.Machine
end

