-- ==== Sys2Proof/Machine/Fetch.lean ====
section
/-! DEFINITION. Where the engine takes its next word from (10_state.md R43, 30_encoding.md R95). -/

namespace Sys2Proof.Machine

/-- The state with a word as the head of the queue, in the place of an older head if there is one, the
engine IDLE, and the engine's turn next (log 8). -/
def placeWord (w : Word) (s : State) : State :=
  { s with engine := .idle, cmdq := w :: s.cmdq.drop 1, script := .engine :: s.script }

end Sys2Proof.Machine
end

