-- ==== Sys2Proof/Machine/HostBus.lean ====
section
/-! DEFINITION. The host agent: the address map and what each access does (20_memory.md R60 to R70,
10_state.md R24 to R38, 30_encoding.md R94, 43_sampler.md R221, R222). -/

namespace Sys2Proof.Machine

/-- What stands at an offset (R61). -/
inductive Port where
  | id | ctrl | status | irqStatus | errCause | errInfo | cmd | cmdCount
  | xofData | xofLevel | rejConsumed | xofCap | sa | sb | sr
  /-- A word of the BBUF window or of the window of a slot below P_SLOTS. -/
  | storage
  /-- Unmapped or reserved (R64). -/
  | unmapped
  deriving DecidableEq, Repr

/-- The registers of the address map (R61). -/
def registerMap : List (Nat × Port) :=
  [(0x000, .id), (0x004, .ctrl), (0x008, .status), (0x00C, .irqStatus), (0x010, .errCause),
    (0x014, .errInfo), (0x018, .cmd), (0x01C, .cmdCount), (0x020, .xofData), (0x024, .xofLevel),
    (0x028, .rejConsumed), (0x02C, .xofCap), (0x030, .sa), (0x034, .sb), (0x038, .sr)]

/-- The offset lies in the BBUF window or in the window of a slot below P_SLOTS (R61, R65, R66;
log 20). -/
def inWindow (p : Params) (off : Nat) : Bool :=
  decide (bbufBase ≤ off ∧ off < bbufBase + 384) ||
    decide (slotBase 0 ≤ off ∧ off < slotBase p.slots ∧ off < slotBase 16)

/-- The address map (R61), at an offset with bits 1:0 clear. -/
def portAt (p : Params) (off : Nat) : Port :=
  match registerMap.lookup off with
  | some port => port
  | none => if inWindow p off then .storage else .unmapped

/-- The locked resources (R70). -/
def Port.locked : Port → Bool
  | .sa | .sb | .sr | .storage => true
  | _ => false

/-- The offset of a bus address in the block, bits 1:0 cleared; `none` outside the block's 16 KiB (R60,
R62; log 12, log 17). -/
def blockOffset (p : Params) (addr : Nat) : Option Nat :=
  if p.base ≤ addr ∧ addr < p.base + 0x4000 then some ((addr - p.base) / 4 * 4) else none

/-- The block drives a value for a host read (log 4). -/
def answer (v : Word) (s : State) : Result := .next { s with rdata := v }

/-- `MemRead(off, 4)` (R62 to R66, R69, R70); an idle window read of a byte with no value is a fault
(70_reset_and_hazards.md R341). A locked read while only a queued word makes the block busy empties
the queue (R70, R305), so that the same read again is one of an idle block, against the last sentence
of R69: DEDUCED, unsafe (log 21). -/
def hostRead (off : Nat) (s : State) : Result :=
  let port := portAt s.params off
  if port.locked && s.busy then answer 0 (hostError .hostBusyAccess off s)
  else
    match port with
    | .id => answer (idWord s.params) s
    | .ctrl => answer s.ctrl.word s
    | .status => answer s.statusWord s
    | .irqStatus => answer s.irq.word s
    | .errCause => answer s.errCause.word s
    | .errInfo => answer s.errInfo s
    | .cmd => answer 0 s
    | .cmdCount => answer s.cmdCount s
    | .xofData => answer 0 s
    | .xofLevel => answer s.xofLevelWord s
    | .rejConsumed => answer s.rejConsumed s
    | .xofCap => answer (xofCapWord s.params) s
    | .sa => answer s.sa s
    | .sb => answer (s.sb.setWidth 32) s
    | .sr => answer (s.sr.signExtend 32) s
    | .storage =>
      match loadWord s.mem off with
      | some v => answer v s
      | none => .fault (.unwrittenWindow off)
    | .unmapped => answer 0 s

/-- A CMD write (R94). -/
def writeCmd (w : Word) (s : State) : State :=
  if s.irq.err then { s with errCause := { s.errCause with multi := true } }
  else if s.cmdq.length = s.params.queueDepth then hostError .cmdqOverflow 0x018 s
  else { s with cmdq := s.cmdq ++ [w] }

/-- An XOF_DATA write (R221); it may lift a stall (R226; log 6). -/
def writeXofData (v : Word) (s : State) : State :=
  if s.fifo.length + 4 ≤ s.params.fifoBytes then wake { s with fifo := s.fifo ++ wordBytes v }
  else hostError .xofOverflow 0x020 s

/-- A CTRL write (R25): a soft reset discards the other bits; XOF_FLUSH empties the FIFO (R222). -/
def writeCtrl (v : Word) (s : State) : State :=
  if v.getLsbD 0 then softReset s
  else
    { s with
      ctrl := ⟨v.getLsbD 4, v.getLsbD 5, v.getLsbD 6⟩
      fifo := if v.getLsbD 1 then [] else s.fifo }

/-- An IRQ_STATUS write (R27, R308): a bit written 1 is cleared. -/
def writeIrqStatus (v : Word) (s : State) : State :=
  let s := if v.getLsbD 1 then clearError s else s
  { s with
    irq := { s.irq with
      done := s.irq.done && !v.getLsbD 0
      xofNeed := s.irq.xofNeed && !v.getLsbD 2 } }

/-- `MemWrite(off, 4, v)` (R62 to R66, R70). Read-only and unmapped offsets ignore it (R63, R64). -/
def hostWrite (off : Nat) (v : Word) (s : State) : State :=
  let port := portAt s.params off
  if port.locked && s.busy then hostError .hostBusyAccess off s
  else
    match port with
    | .ctrl => writeCtrl v s
    | .irqStatus => writeIrqStatus v s
    | .cmd => writeCmd v s
    | .xofData => writeXofData v s
    | .sa => { s with sa := v }
    | .sb => { s with sb := v.extractLsb' 0 16 }
    | .storage => { s with mem := storeWord s.mem off v }
    | .id | .status | .errCause | .errInfo | .cmdCount | .xofLevel | .rejConsumed | .xofCap => s
    | .sr | .unmapped => s

/-- One access of the host. The byte lanes of a write are ignored (R62; log 12); an access outside the
block's 16 KiB is none of the block's (R60; log 17). -/
def hostAccess (a : HostAccess) (s : State) : Result :=
  match a with
  | .read addr =>
    match blockOffset s.params addr with
    | some off => hostRead off s
    | none => .next s
  | .write addr _ v =>
    match blockOffset s.params addr with
    | some off => .next (hostWrite off v s)
    | none => .next s

end Sys2Proof.Machine
end

