-- ==== Sys2Proof/Machine/Step.lean ====
section
/-! DEFINITION. One step of the machine: one indivisible action of the host, of the engine or of the
reset input (00_scope.md R15, 20_memory.md R71, R72). The interleaving is the plain data `script`
(log 3). -/

namespace Sys2Proof.Machine

/-- The next action of the script, or the engine's turn when the script is empty (log 3). -/
def step (s : State) : Host.Outcome State Fault Refusal :=
  match s.script with
  | [] => engineStep s
  | .engine :: rest => engineStep { s with script := rest }
  | .host a :: rest => hostAccess a { s with script := rest }
  | .reset :: rest => .next (hardReset { s with script := rest })

/-- `s` with the command word `w` where the engine takes its next word: the head of the queue, the
engine IDLE and having its turn (R43, R95; log 8). -/
def State.withFetchWord (s : State) (nbits w : Nat) : State :=
  placeWord (BitVec.ofNat 32 (w % 2 ^ nbits)) s

end Sys2Proof.Machine
end

