-- ==== Sys2Proof/Safety.lean ====
section
/-! DEFINITION. The terms claims use: the machine's invariant, what a command leaves alone, how an
operand is held in storage, and the pseudocode of the NTT commands as the spec writes it, with an
array updated in place (42_ntt.md R183 to R186, R188). -/

namespace Sys2Proof.Machine

/-! ### Operands and frames -/

/-- Slot n holds the coefficients f 0 .. f 255. -/
def HoldsSlot (m : Memory) (n : SlotNo) (f : Nat → Int) : Prop :=
  ∀ i, i < 256 → coeff m n i = some (f i)

/-- BBUF[0 .. n-1] holds the bytes b 0 .. b (n-1). -/
def HoldsBbuf (m : Memory) (n : Nat) (b : Nat → Byte) : Prop :=
  ∀ k, k < n → bbufByte m k = some (b k)

/-- Every byte of storage outside the `len` bytes from `lo` up reads as before. -/
def SameOutside (lo len : Nat) (m m' : Memory) : Prop :=
  ∀ off, off < lo ∨ lo + len ≤ off → readByte m' off = readByte m off

/-- `t` is `s` after a command that passed its check has completed, whatever it wrote to storage and
to SR: the engine is IDLE, CMD_COUNT counts it (R325), DONE is set if nothing is queued (R320), and
every other piece of state is as before (R150). -/
def CompletedFrom (s t : State) : Prop :=
  t = { s with
    mem := t.mem
    sr := t.sr
    engine := .idle
    cmdCount := s.cmdCount + 1
    irq := { s.irq with done := s.irq.done || s.cmdq.isEmpty } }

/-- `t` is `s` after the word `w`, which the engine had taken, failed its check with `code`: R305 and
R306, and DONE by R320. -/
def FailedFrom (code : ErrorCode) (w : Word) (s t : State) : Prop :=
  t = { s with
    engine := .idle
    cmdq := []
    irq := { s.irq with err := true, done := true }
    errCause := if s.irq.err then { s.errCause with multi := true }
      else { code := code, op := fieldOp w, multi := false }
    errInfo := if s.irq.err then s.errInfo else w }

/-- `t` is `s` after a command that has completed by writing h 0 .. h 255 to slot d and nothing else
(R98, R150). -/
def WroteSlot (d : SlotNo) (h : Nat → Int) (s t : State) : Prop :=
  CompletedFrom s t ∧ t.sr = s.sr ∧ HoldsSlot t.mem d h ∧
    SameOutside (0x1000 + 0x200 * d.toNat) 512 s.mem t.mem

/-- `t` is `s` after a scalar command that has completed: nothing but SR is written (R130 to R133). -/
def WroteSr (s t : State) : Prop := CompletedFrom s t ∧ t.mem = s.mem

/-- The state after a host error at an offset (R29, R305, R306), DONE by R320: it is set if the error
emptied the queue of an idle engine. -/
def afterHostError (code : ErrorCode) (off : Nat) (s : State) : State :=
  { s with
    cmdq := []
    irq := { s.irq with
      err := true
      done := s.irq.done || (s.engine == .idle && !s.cmdq.isEmpty) }
    errCause := if s.irq.err then { s.errCause with multi := true }
      else { code := code, op := 0, multi := false }
    errInfo := if s.irq.err then s.errInfo else BitVec.ofNat 32 off }

/-- The BBUF window and the windows of slots below P_SLOTS by offset (R61). -/
def WindowOffset (p : Params) (off : Nat) : Prop :=
  (0x400 ≤ off ∧ off < 0x580) ∨ (0x1000 ≤ off ∧ off < 0x1000 + 0x200 * p.slots)

/-- The state in which the host is about to make an access. -/
def State.offering (a : HostAccess) (s : State) : State := { s with script := .host a :: s.script }

/-- The next action is the engine's turn (log 3). -/
def EngineTurn (s : State) : Prop := s.script = [] ∨ ∃ sc, s.script = .engine :: sc

/-- The next action is the reset input (R340) or a soft reset (R343). -/
def ResetsNow (s : State) : Prop :=
  (∃ sc, s.script = .reset :: sc) ∨
    ∃ addr lanes v sc, s.script = .host (.write addr lanes v) :: sc ∧
      blockOffset s.params addr = some 0x004 ∧ v.getLsbD 0 = true

/-- The next action completes a command that passed its check, if it answers a next state (R325): the
engine takes the word of a command other than REJ, or a running REJ has its 256 coefficients. -/
def CompletesNow (s : State) : Prop :=
  EngineTurn s ∧
    ((∃ w rest i, s.engine = .idle ∧ s.cmdq = w :: rest ∧ decode w = .ok i ∧
        i.wf s.params = true ∧ ∀ d, i ≠ .rej d) ∨
      ((∃ w d, s.engine = .exec w ∧ decode w = .ok (.rej d)) ∧ s.rejBuf.length = 256))

/-- The locked resources by offset (R61, R70): SA, SB, SR, the BBUF window, the window of a slot below
P_SLOTS. -/
def LockedOffset (p : Params) (off : Nat) : Prop :=
  off = 0x030 ∨ off = 0x034 ∨ off = 0x038 ∨ WindowOffset p off

/-- The window offset and the length of the storage a command writes (R98): a slot of 512 bytes, 32N
bytes of BBUF, or nothing. REJ writes its slot only when it completes (R225). -/
def writtenRange : Instr → Nat × Nat
  | .nop | .smul | .smred | .sbar | .shw | .rej _ => (0, 0)
  | .ntt d _ | .nttb d _ | .intt d _ | .pred d _ | .pscale d _ _ | .pcanon d _ =>
    (0x1000 + 0x200 * d.toNat, 512)
  | .pmul d _ _ | .padd d _ _ | .psub d _ _ => (0x1000 + 0x200 * d.toNat, 512)
  | .enc1 _ => (0x400, 32)
  | .enc4 _ => (0x400, 128)
  | .enc5 _ => (0x400, 160)
  | .enc10 _ => (0x400, 320)
  | .enc11 _ => (0x400, 352)
  | .enc12 _ => (0x400, 384)
  | .dec1 d | .dec4 d | .dec5 d | .dec10 d | .dec11 d | .dec12 d => (0x1000 + 0x200 * d.toNat, 512)
  | .cbd2 d | .cbd3 d => (0x1000 + 0x200 * d.toNat, 512)

/-- Whether a command is one of the scalar commands, the only ones that write SR (R98). -/
def writesSr (i : Instr) : Bool :=
  i == .smul || i == .smred || i == .sbar || i == .shw

/-- The source slots of a command (R92, R98). -/
def sourceSlots : Instr → List SlotNo
  | .ntt _ a | .nttb _ a | .intt _ a | .pred _ a | .pscale _ a _ | .pcanon _ a => [a]
  | .pmul _ a b | .padd _ a b | .psub _ a b => [a, b]
  | .enc1 a | .enc4 a | .enc5 a | .enc10 a | .enc11 a | .enc12 a => [a]
  | .nop | .smul | .smred | .sbar | .shw | .rej _ => []
  | .dec1 _ | .dec4 _ | .dec5 _ | .dec10 _ | .dec11 _ | .dec12 _ | .cbd2 _ | .cbd3 _ => []

/-- How many bytes of BBUF a command reads (R35, R93, R236, R262). -/
def sourceBytes : Instr → Nat
  | .dec1 _ => 32
  | .dec4 _ => 128
  | .dec5 _ => 160
  | .dec10 _ => 320
  | .dec11 _ => 352
  | .dec12 _ => 384
  | .cbd2 _ => 128
  | .cbd3 _ => 192
  | .nop | .smul | .smred | .sbar | .shw | .rej _ => 0
  | .ntt _ _ | .nttb _ _ | .intt _ _ | .pred _ _ | .pscale _ _ _ | .pcanon _ _ => 0
  | .pmul _ _ _ | .padd _ _ _ | .psub _ _ _ => 0
  | .enc1 _ | .enc4 _ | .enc5 _ | .enc10 _ | .enc11 _ | .enc12 _ => 0

/-- The state without the contents that commands compute on: slots, BBUF, SA, SB, SR and the FIFO's
bytes (R362). -/
def State.withoutData (s : State) : State :=
  { s with mem := [], sa := 0, sb := 0, sr := 0, fifo := [] }

/-- `bit(k)` of a byte sequence (R235, R267). -/
def bitOf (b : Nat → Byte) (k : Nat) : Nat := (b (k / 8)).toNat / 2 ^ (k % 8) % 2

/-- `brv7(i)`: i with its 7 bits reversed (R180). -/
def brv7 (i : Nat) : Nat :=
  i % 2 * 64 + i / 2 % 2 * 32 + i / 4 % 2 * 16 + i / 8 % 2 * 8 + i / 16 % 2 * 4 + i / 32 % 2 * 2 +
    i / 64 % 2

/-! ### The command word -/

/-- The bits an opcode reserves, from the table of R92; meant for legal opcodes. -/
def reservedMask (op : Nat) : Word :=
  match op with
  | 0x01 | 0x02 | 0x03 | 0x07 | 0x09 => 0xFFFF00E0
  | 0x04 | 0x05 | 0x06 => 0xFFF000E0
  | 0x08 => 0x000F00E0
  | 0x0A => 0xFFFF0F00
  | 0x0B | 0x0C => 0xFFFFF000
  | 0x0D => 0xFFFFF0E0
  | _ => 0xFFFFFFE0

/-- The slot fields D, A, B of a word that its opcode uses (R92). -/
def usedSlots (op : Nat) (w : Word) : List SlotNo :=
  (if reservedMask op &&& 0x00000F00 = 0 then [w.extractLsb' 8 4] else []) ++
    (if reservedMask op &&& 0x0000F000 = 0 then [w.extractLsb' 12 4] else []) ++
    (if reservedMask op &&& 0x000F0000 = 0 then [w.extractLsb' 16 4] else [])

/-! ### The NTT commands as the spec writes them -/

/-- `f[k] <- v`. -/
def setAt (f : Nat → Int) (k : Nat) (v : Int) : Nat → Int := fun n => if n = k then v else f n

/-- `for j in start .. start + len - 1: (f[j], f[j+len]) <- bf(f[j], f[j+len])`. -/
def groupLoop (bf : Int → Int → Int × Int) (len start : Nat) (f : Nat → Int) : Nat → Int :=
  (List.range len).foldl (fun f k =>
    let j := start + k
    let r := bf (f j) (f (j + len))
    setAt (setAt f j r.1) (j + len) r.2) f

/-- The Cooley-Tukey butterfly as R183 writes it; wrap16 is the balanced remainder (R10). -/
def ctSpec (z a b : Int) : Int × Int :=
  let t := montMul b z
  ((a + t).bmod 65536, (a - t).bmod 65536)

/-- The butterfly of layer 7 as R186 writes it. -/
def ctPlainSpec (a b : Int) : Int × Int :=
  let t := (b * -1600).bmod 65536
  ((a + t).bmod 65536, (a - t).bmod 65536)

/-- The Gentleman-Sande butterfly as R184 writes it. -/
def gsSpec (z a b : Int) : Int × Int :=
  (barrett ((a + b).bmod 65536), montMul ((b - a).bmod 65536) z)

/-- `for start in 0, 2*len, …: z <- ZROM[i]; i <- i + 1; group`, on (i, f). -/
def layerLoopUp (len : Nat) (x : Nat × (Nat → Int)) : Nat × (Nat → Int) :=
  (List.range (128 / len)).foldl (fun x g =>
    (x.1 + 1, groupLoop (ctSpec (zrom x.1)) len (2 * len * g) x.2)) x

/-- `for start in 0, 2*len, …: z <- ZROM[i]; i <- i - 1; group`, on (i, f). -/
def layerLoopDown (len : Nat) (x : Nat × (Nat → Int)) : Nat × (Nat → Int) :=
  (List.range (128 / len)).foldl (fun x g =>
    (x.1 - 1, groupLoop (gsSpec (zrom x.1)) len (2 * len * g) x.2)) x

/-- The pseudocode of NTT (R185). -/
def nttLoop (f : Nat → Int) : Nat → Int :=
  fun j => barrett (([7, 6, 5, 4, 3, 2, 1].foldl (fun x L => layerLoopUp (2 ^ L) x) (1, f)).2 j)

/-- The pseudocode of NTTB (R186). -/
def nttbLoop (f : Nat → Int) : Nat → Int :=
  fun j => barrett (([6, 5, 4, 3, 2, 1].foldl (fun x L => layerLoopUp (2 ^ L) x)
    (2, groupLoop ctPlainSpec 128 0 f)).2 j)

/-- The pseudocode of INTT (R188). -/
def inttLoop (f : Nat → Int) : Nat → Int :=
  fun j => barrett (([1, 2, 3, 4, 5, 6, 7].foldl (fun x L => layerLoopDown (2 ^ L) x) (127, f)).2 j)

/-! ### Rejection sampling as a function of the byte stream -/

/-- The accepted candidates of a byte stream, triple after triple (R223, R224). -/
def acceptedOf : List Byte → List Nat
  | b0 :: b1 :: b2 :: rest =>
    [b0.toNat + 256 * (b1.toNat % 16), b1.toNat / 16 + 16 * b2.toNat].filter (fun d => decide (d < 3329)) ++
      acceptedOf rest
  | _ => []

/-- What may act while a REJ runs without disturbing it: the engine; a host read of no locked resource;
a host write that brings bytes (R221) or clears other bits of IRQ_STATUS than DONE (R27), or that is
none of the block's. -/
def FeedsRej (p : Params) : Event → Prop
  | .engine => True
  | .host (.read addr) => ∀ off, blockOffset p addr = some off → ¬ LockedOffset p off
  | .host (.write addr _ v) => ∀ off, blockOffset p addr = some off →
      off = 0x020 ∨ (off = 0x00C ∧ v.getLsbD 0 = false)
  | .reset => False

/-- The bytes that the XOF_DATA writes among the events bring, in order (R221). -/
def pushedBytes (p : Params) : List Event → List Byte
  | .host (.write addr _ v) :: rest =>
    (if blockOffset p addr = some 0x020 then
      [v.extractLsb' 0 8, v.extractLsb' 8 8, v.extractLsb' 16 8, v.extractLsb' 24 8] else []) ++
      pushedBytes p rest
  | .host (.read _) :: rest | .engine :: rest | .reset :: rest => pushedBytes p rest
  | [] => []

/-- Until a command completes in the run from `s`, every XOF_DATA write finds room for its four bytes
(R221, R352). -/
def KeepsRoom (s : State) : Prop :=
  ∀ j u addr lanes v sc, Host.Core.run Sys2Proof.core j s = .next u → u.cmdCount = s.cmdCount →
    u.script = .host (.write addr lanes v) :: sc → blockOffset u.params addr = some 0x020 →
      u.fifo.length + 4 ≤ u.params.fifoBytes

/-! ### The invariant -/

/-- What holds of the machine after every step from a state in which it holds. -/
structure State.Inv (s : State) : Prop where
  /-- The instance is a legal one (R7). -/
  legal : s.params.Legal
  /-- The storage is in canonical form. -/
  memWf : s.mem.wf = true
  /-- Only bytes of BBUF and of slots below P_SLOTS are listed (R61). -/
  memMapped : ∀ x ∈ s.mem, (0x400 ≤ x.1 ∧ x.1 < 0x580) ∨
    (0x1000 ≤ x.1 ∧ x.1 < 0x1000 + 0x200 * s.params.slots)
  /-- The queue holds at most CMDQ_DEPTH words (R40). -/
  queueBound : s.cmdq.length ≤ s.params.queueDepth
  /-- The FIFO holds at most XOF_FIFO_BYTES bytes (R39). -/
  fifoBound : s.fifo.length ≤ s.params.fifoBytes
  /-- While ERR = 1 nothing is queued (R94, R305). -/
  errorEmptiesQueue : s.irq.err = true → s.cmdq = []
  /-- While ERR = 0 no error is recorded (R28, R29, R308). -/
  noErrorRecorded : s.irq.err = false →
    s.errCause = { code := .none, op := 0, multi := false } ∧ s.errInfo = 0
  /-- While ERR = 1 an error is recorded (R305). -/
  errorRecorded : s.irq.err = true → s.errCause.code ≠ .none
  /-- Between steps the engine executes nothing but a REJ with a legal slot (R71, R97). -/
  runningRej : ∀ w, s.engine = .exec w ∨ s.engine = .xwait w →
    ∃ d : SlotNo, decode w = .ok (.rej d) ∧ d.toNat < s.params.slots
  /-- In XWAIT the FIFO holds fewer than 3 bytes (R226, R364). -/
  waiting : ∀ w, s.engine = .xwait w → s.fifo.length < 3
  /-- rej_n is in 0..256 (R41). -/
  rejBound : s.rejBuf.length ≤ 256
  /-- Every accepted coefficient is below q (R224, R228). -/
  rejRange : ∀ c ∈ s.rejBuf, c.toNat < 3329
  /-- rej_used counts whole triples (R34, R225, R228). -/
  rejTriples : s.rejUsed % 3 = 0
  /-- A triple gives at most two coefficients (R223). -/
  rejYield : 3 * s.rejBuf.length ≤ 2 * s.rejUsed

/-- Every word of a window is written whole or not at all (R62, R78, R341). -/
def WordsWhole (m : Memory) : Prop :=
  ∀ w k, k < 4 → ((readByte m (4 * w + k)).isSome ↔ (readByte m (4 * w)).isSome)

end Sys2Proof.Machine
end

