-- ==== Sys2Proof/Certificates/Slice0/Obligations.lean ====
section
/-! DEFINITION. The statements for the provers. Each docstring names the rules of spec/ it formalises.
Commands are stated through exec, the machine's actions through step. -/

open Sys2Proof Sys2Proof.Machine

/-! ### The engine takes, checks and runs a word -/

/-- R43, R95: with the engine IDLE and having its turn, the word at the head of the queue that decodes
to a command is taken off the queue, the engine is in EXEC(w), and the command is executed. When the
engine has its turn is the model's (log 3). The third clause says the same of a word placed by
`withFetchWord`, which is the model's (log 8). -/
def Obligations.StepRunsDecodedCommand : Prop :=
  (∀ (s : State) (w : Word) (rest : List Word) (i : Instr),
    s.script = [] → s.engine = .idle → s.cmdq = w :: rest → decode w = .ok i →
      step s = exec i { s with engine := .exec w, cmdq := rest }) ∧
  (∀ (s : State) (sc : List Event) (w : Word) (rest : List Word) (i : Instr),
    s.script = .engine :: sc → s.engine = .idle → s.cmdq = w :: rest → decode w = .ok i →
      step s = exec i { s with script := sc, engine := .exec w, cmdq := rest }) ∧
  (∀ (s : State) (w : Word) (i : Instr), decode w = .ok i →
      step (s.withFetchWord 32 w.toNat) = exec i { s with engine := .exec w, cmdq := s.cmdq.drop 1 })

/-- R97, R306, R310: the word the engine takes is checked in the order of R97, the first failing test
decides, and a failing word has no effect but the error (DONE by R320, the block being idle now); a
word that passes is executed. When the engine has its turn is the model's (log 3): the script is empty,
or loses its entry for the turn. -/
def Obligations.CommandCheckOrder : Prop :=
  ∀ (s : State) (w : Word) (rest : List Word),
    EngineTurn s → s.engine = .idle → s.cmdq = w :: rest →
    let u := { s with script := s.script.drop 1 }
    let op := (w.extractLsb' 0 5).toNat
    let p := (w.extractLsb' 5 3).toNat
    if op = 0x0E ∨ op = 0x0F ∨ 0x14 ≤ op then
      ∃ t, step s = .next t ∧ FailedFrom .illegalOp w u t
    else if w &&& reservedMask op ≠ 0 then
      ∃ t, step s = .next t ∧ FailedFrom .reservedField w u t
    else if ((op = 0x0A ∨ op = 0x0B) ∧ 5 < p) ∨ (op = 0x0C ∧ 1 < p) then
      ∃ t, step s = .next t ∧ FailedFrom .badParam w u t
    else if (usedSlots op w).any (fun n => decide (s.params.slots ≤ n.toNat)) then
      ∃ t, step s = .next t ∧ FailedFrom .badSlot w u t
    else
      ∃ i, decode w = .ok i ∧ i.wf s.params = true ∧
        step s = exec i { u with engine := .exec w, cmdq := rest }

/-- R103: the encoding examples of the spec, one or more of every family, read and written. -/
def Obligations.SpecWordsDecode : Prop :=
  ∀ x ∈ ([(0x00000000, .nop), (0x00000101, .ntt 1 0), (0x00002202, .nttb 2 2),
      (0x00001303, .intt 3 1), (0x00021404, .pmul 4 1 2), (0x00034505, .padd 5 4 3),
      (0x00034506, .psub 5 4 3), (0x00005607, .pred 6 5), (0x5A106708, .pscale 7 6 1441),
      (0x20003308, .pscale 3 3 512), (0x00007809, .pcanon 8 7), (0x000080AA, .enc12 8),
      (0x0000000A, .enc1 0), (0x000009AB, .dec12 9), (0x0000002B, .dec4 0), (0x00000A0C, .cbd2 10),
      (0x00000B2C, .cbd3 11), (0x00000C0D, .rej 12), (0x00000010, .smul), (0x00000011, .smred),
      (0x00000012, .sbar), (0x00000013, .shw), (0x54900108, .pscale 1 0 1353)] :
      List (Word × Instr)), decode x.1 = .ok x.2 ∧ encode x.2 = x.1

/-- R90 to R93, R98: decoding the word of a command gives the command back, every operand at every
value its field admits. -/
def Obligations.DecodeEncode : Prop := ∀ i : Instr, decode (encode i) = .ok i

/-- R99: a word that is a command is that command's only word. -/
def Obligations.EncodeDecode : Prop :=
  ∀ (w : Word) (i : Instr), decode w = .ok i → encode i = w

/-! ### Results: ring commands -/

/-- R151, R320, R325: NOP does nothing but complete. -/
def Obligations.NopCompletes : Prop :=
  ∀ s : State, exec .nop s = .next { s with
    engine := .idle
    cmdCount := s.cmdCount + 1
    irq := { s.irq with done := s.irq.done || s.cmdq.isEmpty } }

/-- R152, R150: PADD completes with the wrapped sums in slot D. -/
def Obligations.PaddResult : Prop :=
  ∀ (s : State) (d a b : SlotNo) (f g : Nat → Int),
    d.toNat < s.params.slots → a.toNat < s.params.slots → b.toNat < s.params.slots →
    HoldsSlot s.mem a f → HoldsSlot s.mem b g →
      ∃ t, exec (.padd d a b) s = .next t ∧ WroteSlot d (fun i => (f i + g i).bmod 65536) s t

/-- R153, R150: PSUB completes with the wrapped differences in slot D. -/
def Obligations.PsubResult : Prop :=
  ∀ (s : State) (d a b : SlotNo) (f g : Nat → Int),
    d.toNat < s.params.slots → a.toNat < s.params.slots → b.toNat < s.params.slots →
    HoldsSlot s.mem a f → HoldsSlot s.mem b g →
      ∃ t, exec (.psub d a b) s = .next t ∧ WroteSlot d (fun i => (f i - g i).bmod 65536) s t

/-- R154, R126: PRED completes with the centred representative of every coefficient, which the two
conditions determine. -/
def Obligations.PredResult : Prop :=
  ∀ (s : State) (d a : SlotNo) (f : Nat → Int),
    d.toNat < s.params.slots → a.toNat < s.params.slots → HoldsSlot s.mem a f →
      ∃ t h, exec (.pred d a) s = .next t ∧ WroteSlot d h s t ∧
        ∀ i, i < 256 → -1664 ≤ h i ∧ h i ≤ 1664 ∧ (3329 : Int) ∣ h i - f i

/-- R156, R120, R121: PSCALE completes with the Montgomery product by the unsigned immediate: the exact
value of R125, below 3713 in magnitude, and congruent to x imm / R. -/
def Obligations.PscaleResult : Prop :=
  ∀ (s : State) (d a : SlotNo) (imm : BitVec 12) (f : Nat → Int),
    d.toNat < s.params.slots → a.toNat < s.params.slots → HoldsSlot s.mem a f →
      ∃ t h, exec (.pscale d a imm) s = .next t ∧ WroteSlot d h s t ∧
        ∀ i, i < 256 →
          h i = (f i * imm.toNat - (f i * imm.toNat * 62209).bmod 65536 * 3329) / 65536 ∧
          -3713 < h i ∧ h i < 3713 ∧ (3329 : Int) ∣ h i * 65536 - f i * imm.toNat

/-- R157: PCANON completes with q added once to the negative coefficients. -/
def Obligations.PcanonResult : Prop :=
  ∀ (s : State) (d a : SlotNo) (f : Nat → Int),
    d.toNat < s.params.slots → a.toNat < s.params.slots → HoldsSlot s.mem a f →
      ∃ t, exec (.pcanon d a) s = .next t ∧
        WroteSlot d (fun i => if f i < 0 then f i + 3329 else f i) s t

/-- R159, R158: PMUL completes with the base-case products, computed with three Montgomery reductions a
pair and the constant gamma of the pair. -/
def Obligations.PmulResult : Prop :=
  ∀ (s : State) (d a b : SlotNo) (f g : Nat → Int),
    d.toNat < s.params.slots → a.toNat < s.params.slots → b.toNat < s.params.slots →
    HoldsSlot s.mem a f → HoldsSlot s.mem b g →
      ∃ t h, exec (.pmul d a b) s = .next t ∧ WroteSlot d h s t ∧
        ∀ p, p < 128 →
          let gam := if p % 2 = 0 then zrom (64 + p / 2) else -zrom (64 + (p - 1) / 2)
          h (2 * p) = montReduce ((f (2 * p) * g (2 * p) +
            montReduce (f (2 * p + 1) * g (2 * p + 1)) * gam).bmod (2 ^ 32)) ∧
          h (2 * p + 1) = montReduce ((f (2 * p) * g (2 * p + 1) +
            f (2 * p + 1) * g (2 * p)).bmod (2 ^ 32))

/-- R159: on inputs in [-1664, 1664] the outputs of PMUL lie in (-q, q) and, times R, are the FIPS 203
base-case product with the constant 17^(2 brv7(p) + 1). -/
def Obligations.PmulIsBaseCaseProduct : Prop :=
  ∀ (s : State) (d a b : SlotNo) (f g : Nat → Int),
    d.toNat < s.params.slots → a.toNat < s.params.slots → b.toNat < s.params.slots →
    HoldsSlot s.mem a f → HoldsSlot s.mem b g →
    (∀ i, i < 256 → -1664 ≤ f i ∧ f i ≤ 1664) → (∀ i, i < 256 → -1664 ≤ g i ∧ g i ≤ 1664) →
      ∃ t h, exec (.pmul d a b) s = .next t ∧ HoldsSlot t.mem d h ∧
        (∀ i, i < 256 → -3329 < h i ∧ h i < 3329) ∧
        ∀ p, p < 128 →
          (3329 : Int) ∣ h (2 * p) * 65536 - (f (2 * p) * g (2 * p) +
            f (2 * p + 1) * g (2 * p + 1) * 17 ^ (2 * brv7 p + 1)) ∧
          (3329 : Int) ∣ h (2 * p + 1) * 65536 - (f (2 * p) * g (2 * p + 1) +
            f (2 * p + 1) * g (2 * p))

/-! ### Results: the NTT commands -/

/-- R185, R182, R183: NTT completes with what the pseudocode leaves in f, layer by layer and group by
group in place, whatever wraps: the butterfly is written out with the balanced remainder for wrap16
(`ctSpec`). Its mont_mul, barrett and zetas are the model's, whose values are those of `MontMulLaw`,
`PredResult` and `ZetaConstants`. -/
def Obligations.NttResult : Prop :=
  ∀ (s : State) (d a : SlotNo) (f : Nat → Int),
    d.toNat < s.params.slots → a.toNat < s.params.slots → HoldsSlot s.mem a f →
      ∃ t, exec (.ntt d a) s = .next t ∧ WroteSlot d (nttLoop f) s t

/-- R186: NTTB completes with what its pseudocode leaves in f, whatever wraps, layer 7 written out
(`ctPlainSpec`) and the other layers as in `NttResult`. -/
def Obligations.NttbResult : Prop :=
  ∀ (s : State) (d a : SlotNo) (f : Nat → Int),
    d.toNat < s.params.slots → a.toNat < s.params.slots → HoldsSlot s.mem a f →
      ∃ t, exec (.nttb d a) s = .next t ∧ WroteSlot d (nttbLoop f) s t

/-- R188, R184: INTT completes with what its pseudocode leaves in f, whatever wraps, the butterfly
written out (`gsSpec`). -/
def Obligations.InttResult : Prop :=
  ∀ (s : State) (d a : SlotNo) (f : Nat → Int),
    d.toNat < s.params.slots → a.toNat < s.params.slots → HoldsSlot s.mem a f →
      ∃ t, exec (.intt d a) s = .next t ∧ WroteSlot d (inttLoop f) s t

/-- R189: for inputs up to 15309 in magnitude NTT is exact: the outputs are centred, and output 2p + b is
congruent to the sum of f[2k + b] 17^((2 brv7(p) + 1) k), the FIPS 203 NTT that R189 names; the
formula is FIPS 203's, from outside the spec. -/
def Obligations.NttIsExact : Prop :=
  ∀ (s : State) (d a : SlotNo) (f : Nat → Int),
    d.toNat < s.params.slots → a.toNat < s.params.slots → HoldsSlot s.mem a f →
    (∀ i, i < 256 → -15309 ≤ f i ∧ f i ≤ 15309) →
      ∃ t h, exec (.ntt d a) s = .next t ∧ WroteSlot d h s t ∧
        ∀ p b, p < 128 → b < 2 →
          -1664 ≤ h (2 * p + b) ∧ h (2 * p + b) ≤ 1664 ∧
          (3329 : Int) ∣ h (2 * p + b) -
            ((List.range 128).map fun k => f (2 * k + b) * 17 ^ ((2 * brv7 p + 1) * k)).sum

/-- R187: where every input coefficient is at most 11 in magnitude, NTTB is NTT bit for bit. -/
def Obligations.NttbEqualsNtt : Prop :=
  ∀ (s : State) (d a : SlotNo) (f : Nat → Int),
    d.toNat < s.params.slots → a.toNat < s.params.slots → HoldsSlot s.mem a f →
    (∀ i, i < 256 → -11 ≤ f i ∧ f i ≤ 11) →
      ∃ t, exec (.nttb d a) s = .next t ∧ exec (.ntt d a) s = .next t

/-- R190: INTT after NTT gives 128 p mod q, centred, for inputs up to 15309 in magnitude. -/
def Obligations.InttNttScales128 : Prop :=
  ∀ (s : State) (d e a : SlotNo) (f : Nat → Int),
    d.toNat < s.params.slots → e.toNat < s.params.slots → a.toNat < s.params.slots →
    HoldsSlot s.mem a f → (∀ i, i < 256 → -15309 ≤ f i ∧ f i ≤ 15309) →
      ∃ t u h, exec (.ntt d a) s = .next t ∧ exec (.intt e d) t = .next u ∧ HoldsSlot u.mem e h ∧
        ∀ i, i < 256 → -1664 ≤ h i ∧ h i ≤ 1664 ∧ (3329 : Int) ∣ h i - 128 * f i

/-! ### Results: codec and samplers -/

/-- R260, R267: ENC.N completes with bit j of coefficient i, of its two's-complement pattern, at stream
bit N i + j, and BBUF beyond byte 32N - 1 and every slot as before. -/
def Obligations.EncResult : Prop :=
  ∀ (s : State) (a : SlotNo) (f : Nat → Int), a.toNat < s.params.slots → HoldsSlot s.mem a f →
    ∀ x ∈ [(1, Instr.enc1 a), (4, .enc4 a), (5, .enc5 a), (10, .enc10 a), (11, .enc11 a),
        (12, .enc12 a)],
      ∃ t b, exec x.2 s = .next t ∧ CompletedFrom s t ∧ t.sr = s.sr ∧
        HoldsBbuf t.mem (32 * x.1) b ∧
        (∀ i j, i < 256 → j < x.1 → bitOf b (x.1 * i + j) = (f i % 65536).toNat / 2 ^ j % 2) ∧
        SameOutside 0x400 (32 * x.1) s.mem t.mem

/-- R262, R267, R263: DEC.N completes with the N-bit fields, zero-extended and not reduced. -/
def Obligations.DecResult : Prop :=
  ∀ (s : State) (d : SlotNo) (b : Nat → Byte), d.toNat < s.params.slots →
    ∀ x ∈ [(1, Instr.dec1 d), (4, .dec4 d), (5, .dec5 d), (10, .dec10 d), (11, .dec11 d),
        (12, .dec12 d)],
      HoldsBbuf s.mem (32 * x.1) b →
        ∃ t, exec x.2 s = .next t ∧
          WroteSlot d (fun i => ((List.range x.1).map fun j => bitOf b (x.1 * i + j) * 2 ^ j).sum) s t

/-- R264: ENC.N then DEC.N gives back N-bit coefficients, and DEC.N then ENC.N gives back the bytes. -/
def Obligations.CodecRoundTrip : Prop :=
  ∀ (s : State) (a d : SlotNo), a.toNat < s.params.slots → d.toNat < s.params.slots →
    ∀ x ∈ [(1, Instr.enc1 a, Instr.enc1 d, Instr.dec1 d), (4, .enc4 a, .enc4 d, .dec4 d),
        (5, .enc5 a, .enc5 d, .dec5 d), (10, .enc10 a, .enc10 d, .dec10 d),
        (11, .enc11 a, .enc11 d, .dec11 d), (12, .enc12 a, .enc12 d, .dec12 d)],
      (∀ f : Nat → Int, HoldsSlot s.mem a f → (∀ i, i < 256 → 0 ≤ f i ∧ f i < 2 ^ x.1) →
        ∃ t u, exec x.2.1 s = .next t ∧ exec x.2.2.2 t = .next u ∧ HoldsSlot u.mem d f) ∧
      (∀ b : Nat → Byte, HoldsBbuf s.mem (32 * x.1) b →
        ∃ t u, exec x.2.2.2 s = .next t ∧ exec x.2.2.1 t = .next u ∧ HoldsBbuf u.mem (32 * x.1) b)

/-- R235, R236, R237: CBD.η completes with the weight of the first η bits less that of the last η bits
of every 2η, which lies in [-η, η]. -/
def Obligations.CbdResult : Prop :=
  ∀ (s : State) (d : SlotNo) (b : Nat → Byte), d.toNat < s.params.slots →
    ∀ x ∈ [(2, Instr.cbd2 d), (3, .cbd3 d)],
      HoldsBbuf s.mem (64 * x.1) b →
        ∃ t h, exec x.2 s = .next t ∧ WroteSlot d h s t ∧
          ∀ i, i < 256 →
            h i = (((List.range x.1).map fun j => bitOf b (2 * x.1 * i + j)).sum : Int) -
              (((List.range x.1).map fun j => bitOf b (2 * x.1 * i + x.1 + j)).sum : Int) ∧
            -(x.1 : Int) ≤ h i ∧ h i ≤ x.1

/-- R225 (start), R41: REJ starts: the engine is in EXEC(w), nothing accepted, nothing consumed, and
slot D is not written yet. That the start is a step of its own is the model's reading (log 5). -/
def Obligations.RejStarts : Prop :=
  ∀ (s : State) (d : SlotNo), d.toNat < s.params.slots →
    exec (.rej d) s = .next { s with engine := .exec (encode (.rej d)), rejBuf := [], rejUsed := 0 }

/-- R223, R224, R225 (step): a running REJ (w is a REJ's word, as in every state of a run: the
invariant's runningRej) that needs coefficients and has three bytes takes them,
oldest first, and appends the candidates below q, d1 before d2, as far as 256 are not reached. The script
(log 3) loses the entry of the turn, if it has one. -/
def Obligations.RejTakesTriple : Prop :=
  ∀ (s : State) (w : Word) (d : SlotNo) (b0 b1 b2 : Byte) (rest : List Byte),
    EngineTurn s → s.engine = .exec w → decode w = .ok (.rej d) → s.rejBuf.length < 256 →
    s.fifo = b0 :: b1 :: b2 :: rest →
      step s = .next { s with
        script := s.script.drop 1
        fifo := rest
        rejUsed := s.rejUsed + 3
        rejBuf := s.rejBuf ++
          (([b0.toNat + 256 * (b1.toNat % 16), b1.toNat / 16 + 16 * b2.toNat].filter
            (fun c => decide (c < 3329))).map (BitVec.ofNat 16)).take (256 - s.rejBuf.length) }

/-- R226, R321, R363, R335: a running REJ that needs coefficients and has fewer than three bytes enters
XWAIT and sets XOF_NEED; in XWAIT the engine's turn changes nothing while bytes are lacking, and IDLE
with an empty queue it does nothing, which as a turn of its own is the model's reading (log 7). The
script (log 3) loses the entry of the turn, if it has one. -/
def Obligations.RejWaits : Prop :=
  (∀ (s : State) (w : Word) (d : SlotNo), EngineTurn s → s.engine = .exec w →
    decode w = .ok (.rej d) → s.rejBuf.length < 256 → s.fifo.length < 3 →
      step s = .next { s with
        script := s.script.drop 1
        engine := .xwait w
        irq := { s.irq with xofNeed := true } }) ∧
  (∀ (s : State) (w : Word) (d : SlotNo), EngineTurn s → s.engine = .xwait w →
    decode w = .ok (.rej d) → s.fifo.length < 3 →
      step s = .next { s with script := s.script.drop 1 }) ∧
  (∀ s : State, EngineTurn s → s.engine = .idle → s.cmdq = [] →
      step s = .next { s with script := s.script.drop 1 })

/-- R227, R320, R325: with 256 coefficients accepted, REJ completes in one step: slot D, REJ_CONSUMED, the
FIFO emptied, and the bookkeeping of a completion. That rej_buf and rej_used are as before is the
model's reading (log 14). The script (log 3) loses the entry of the turn, if it has one. -/
def Obligations.RejCompletes : Prop :=
  ∀ (s : State) (w : Word) (d : SlotNo), EngineTurn s → s.engine = .exec w →
    decode w = .ok (.rej d) → s.rejBuf.length = 256 →
    ∃ t, step s = .next t ∧
      t = { s with
        script := s.script.drop 1
        mem := t.mem
        rejConsumed := BitVec.ofNat 32 s.rejUsed
        fifo := []
        engine := .idle
        cmdCount := s.cmdCount + 1
        irq := { s.irq with done := s.irq.done || s.cmdq.isEmpty } } ∧
      HoldsSlot t.mem d (fun i => (s.rejBuf.getD i 0).toInt) ∧
      SameOutside (0x1000 + 0x200 * d.toNat) 512 s.mem t.mem

/-- R225 to R228: a REJ at the head of the queue of an idle engine, with any bytes in the FIFO, any words
queued behind it and any order of engine turns and host accesses to come that feed it (`FeedsRej`),
XOF_DATA writes among them before the REJ starts, between its triples or while it waits: if they find
room and the stream, the bytes in the FIFO and then those written, gives 256 accepted candidates, the
REJ completes with the first 256 of them in slot D, in order; REJ_CONSUMED counts the bytes of the
triples up to the one that completes the 256. When each byte arrives plays no part. The order is the
model's script (log 3), the start a step of its own (log 5), the end of a stall part of the write
(log 6). -/
def Obligations.RejWholeRun : Prop :=
  ∀ (s : State) (d : SlotNo) (rest : List Word), s.engine = .idle →
    s.cmdq = encode (.rej d) :: rest → d.toNat < s.params.slots →
    (∀ e ∈ s.script, FeedsRej s.params e) → KeepsRoom s →
    let stream := s.fifo ++ pushedBytes s.params s.script
    256 ≤ (acceptedOf stream).length →
      ∃ k n t, Host.Core.run Sys2Proof.core k s = .next t ∧
        HoldsSlot t.mem d (fun i => ((acceptedOf stream).getD i 0 : Nat)) ∧
        SameOutside (0x1000 + 0x200 * d.toNat) 512 s.mem t.mem ∧
        t.engine = .idle ∧ t.cmdq = rest ∧ t.fifo = [] ∧ t.cmdCount = s.cmdCount + 1 ∧
        t.irq.done = (s.irq.done || rest.isEmpty) ∧ t.rejConsumed = BitVec.ofNat 32 (3 * n) ∧
        256 ≤ (acceptedOf (stream.take (3 * n))).length ∧
        (acceptedOf (stream.take (3 * (n - 1)))).length < 256

/-! ### Results: scalar commands -/

/-- R130, R121, R127: SMUL completes with the Montgomery product of SA[15:0] and SB in SR, exact and at
most 18048 in magnitude; SA[31:16] does not matter. -/
def Obligations.SmulResult : Prop :=
  ∀ s : State, ∃ t, exec .smul s = .next t ∧ WroteSr s t ∧
    (let v := (s.sa.extractLsb' 0 16).toInt * s.sb.toInt
     t.sr.toInt = (v - (v * 62209).bmod 65536 * 3329) / 65536 ∧
       -18048 ≤ t.sr.toInt ∧ t.sr.toInt ≤ 18048 ∧ (3329 : Int) ∣ t.sr.toInt * 65536 - v)

/-- R131, R120, R125: SMRED completes with the Montgomery reduction of the int32 SA in SR, wrapped to
int16. -/
def Obligations.SmredResult : Prop :=
  ∀ s : State, ∃ t, exec .smred s = .next t ∧ WroteSr s t ∧
    t.sr.toInt = ((s.sa.toInt - (s.sa.toInt * 62209).bmod 65536 * 3329) / 65536).bmod 65536

/-- R132, R126: SBAR completes with the centred representative of SA[15:0] in SR. -/
def Obligations.SbarResult : Prop :=
  ∀ s : State, ∃ t, exec .sbar s = .next t ∧ WroteSr s t ∧
    -1664 ≤ t.sr.toInt ∧ t.sr.toInt ≤ 1664 ∧
    (3329 : Int) ∣ t.sr.toInt - (s.sa.extractLsb' 0 16).toInt

/-- R133, R123: SHW completes with the number of 1 bits of SA in SR. -/
def Obligations.ShwResult : Prop :=
  ∀ s : State, ∃ t, exec .shw s = .next t ∧ WroteSr s t ∧
    t.sr.toNat = ((List.range 32).filter fun i => s.sa.getLsbD i).length

/-! ### What a command reads, changes and leaves alone -/

/-- R341, R150: a command that passed its check and reads a coefficient or a byte of BBUF with no value
is a fault. -/
def Obligations.UnwrittenOperandFaults : Prop :=
  (∀ (i : Instr) (s : State) (n : SlotNo) (k : Nat), i.wf s.params = true → n ∈ sourceSlots i →
    k < 256 → coeff s.mem n k = none →
      ∃ m ∈ sourceSlots i, exec i s = .fault (.unwrittenSlot m)) ∧
  (∀ (i : Instr) (s : State) (k : Nat), i.wf s.params = true → k < sourceBytes i →
    bbufByte s.mem k = none → exec i s = .fault .unwrittenBbuf)

/-- R150, R98: the frame of every command, whichever way it answers a next state: the parameters, SA, SB,
the FIFO, CTRL, REJ_CONSUMED, XOF_NEED, the script and rdata are as before; SR but for a scalar
command, the REJ progress but for REJ; and every byte of storage outside the range the command
writes, whose offset is that of slot D or of BBUF. -/
def Obligations.CommandFrame : Prop :=
  ∀ (i : Instr) (s t : State), exec i s = .next t →
    t.params = s.params ∧ t.sa = s.sa ∧ t.sb = s.sb ∧ t.fifo = s.fifo ∧ t.ctrl = s.ctrl ∧
    t.rejConsumed = s.rejConsumed ∧ t.irq.xofNeed = s.irq.xofNeed ∧ t.script = s.script ∧
    t.rdata = s.rdata ∧
    (writesSr i = false → t.sr = s.sr) ∧
    ((∀ d, i ≠ .rej d) → t.rejBuf = s.rejBuf ∧ t.rejUsed = s.rejUsed) ∧
    SameOutside (writtenRange i).1 (writtenRange i).2 s.mem t.mem

/-- R301, R306: a command that passed its check records no error and discards no queued word, whatever
the data. -/
def Obligations.PassingCommandsRecordNoError : Prop :=
  ∀ (i : Instr) (s t : State), i.wf s.params = true → exec i s = .next t →
    t.errCause = s.errCause ∧ t.errInfo = s.errInfo ∧ t.irq.err = s.irq.err ∧ t.cmdq = s.cmdq

/-- R362, R301: two states that differ only in data (slots, BBUF, SA, SB, SR, the FIFO's bytes) differ
only in data after the same command. -/
def Obligations.DataIndependentStatus : Prop :=
  ∀ (i : Instr) (s₁ s₂ t₁ t₂ : State), s₁.withoutData = s₂.withoutData →
    exec i s₁ = .next t₁ → exec i s₂ = .next t₂ → t₁.withoutData = t₂.withoutData

/-- R99, R341: no step refuses, and a step faults only where the word at the head of the queue reads an
operand with no value or the host reads a window word with a byte without one. -/
def Obligations.StepNeverRefuses : Prop :=
  (∀ (s : State) (r : Refusal), step s ≠ .refused r) ∧
  (∀ (s : State) (r : Fault), step s = .fault r →
    (∃ w rest i, s.cmdq = w :: rest ∧ s.engine = .idle ∧ decode w = .ok i ∧
      ((∃ n ∈ sourceSlots i, ∃ k, k < 256 ∧ coeff s.mem n k = none) ∨
        ∃ k, k < sourceBytes i ∧ bbufByte s.mem k = none)) ∨
    (∃ addr sc off k, s.script = .host (.read addr) :: sc ∧ blockOffset s.params addr = some off ∧
      s.busy = false ∧ k < 4 ∧ readByte s.mem (off + k) = none))

/-! ### Invariants and reset -/

/-- Every step keeps the invariant and the instance's parameters: storage in canonical form and inside
the mapped windows, the bounds of the queue and the FIFO, the error registers consistent with ERR,
the engine between steps in EXEC or XWAIT of a REJ only, the REJ progress in its bounds. -/
def Obligations.StepKeepsInvariant : Prop :=
  ∀ s t : State, s.Inv → step s = .next t → t.Inv ∧ t.params = s.params

/-- The invariant holds after a hardware reset. -/
def Obligations.ResetMeetsInvariant : Prop := State.reset.Inv

/-- R62, R78, R341: after reset no byte of storage holds a value, so that every word of a window is
written whole or not at all, and every step keeps that so. -/
def Obligations.StepKeepsWordsWhole : Prop :=
  (∀ off, readByte State.reset.mem off = none) ∧ WordsWhole State.reset.mem ∧
  ∀ s t : State, WordsWhole s.mem → step s = .next t → WordsWhole t.mem

/-- R47, R340: the values the spec gives for reset, with no coefficient and no byte of BBUF holding a
value, the constant registers of the default instance, and the interrupt line low. -/
def Obligations.ResetState : Prop :=
  let r := State.reset
  (∀ n i, coeff r.mem n i = none) ∧ (∀ k, bbufByte r.mem k = none) ∧ r.fifo = [] ∧ r.cmdq = [] ∧
  r.engine = .idle ∧ r.rejBuf = [] ∧ r.rejUsed = 0 ∧ r.ctrl.word = 0 ∧ r.statusWord = 0 ∧
  r.irq.word = 0 ∧ r.errCause.word = 0 ∧ r.errInfo = 0 ∧ r.cmdCount = 0 ∧ r.xofLevelWord = 0 ∧
  r.rejConsumed = 0 ∧ r.sa = 0 ∧ r.sb = 0 ∧ r.sr = 0 ∧ r.irqLine = false ∧
  idWord r.params = 0x4B010810 ∧ xofCapWord r.params = 504

/-- R340, R342: the reset input puts an instance in the reset state. That slots and BBUF hold no value any
more is the model's reading (log 10); that the rest of the script and the value last read are kept is
the model's choice (log 3, log 4). -/
def Obligations.HardResetRule : Prop :=
  ∀ (s : State) (sc : List Event), s.script = .reset :: sc →
    step s = .next { State.reset with params := s.params, script := sc, rdata := s.rdata }

/-! ### Host accesses; `low` is bits 1:0 of the address, which are ignored (R62) -/

/-- R343, R25: a CTRL write with bit 0 = 1 is a soft reset whatever its other bits; slots and BBUF keep
what they held, and DONE is not set. That what a completed REJ left in rej_buf and rej_used is cleared
too is the model's reading (log 14); that the script and the value last read are kept is the model's
choice (log 3, log 4). -/
def Obligations.SoftResetRule : Prop :=
  ∀ (s : State) (lanes : BitVec 4) (v : Word) (low : Nat), low < 4 → v.getLsbD 0 = true →
    step (s.offering (.write (s.params.base + 0x004 + low) lanes v)) = .next
      { State.reset with params := s.params, mem := s.mem, script := s.script, rdata := s.rdata }

/-- R25, R222, R46, R316: a CTRL write with bit 0 = 0 sets the three enables, at once gating the pending
bits onto the interrupt line, and empties the FIFO if bit 1 = 1; a REJ that is executing keeps what
it accepted. -/
def Obligations.CtrlWriteRule : Prop :=
  ∀ (s : State) (lanes : BitVec 4) (v : Word) (low : Nat), low < 4 → v.getLsbD 0 = false →
    ∃ t, step (s.offering (.write (s.params.base + 0x004 + low) lanes v)) = .next t ∧
      t = { s with
        ctrl := { ieDone := v.getLsbD 4, ieErr := v.getLsbD 5, ieXof := v.getLsbD 6 }
        fifo := if v.getLsbD 1 then [] else s.fifo } ∧
      t.irqLine = (s.irq.done && v.getLsbD 4 || s.irq.err && v.getLsbD 5 ||
        s.irq.xofNeed && v.getLsbD 6)

/-- R94, R305: a CMD write is dropped with MULTI while ERR = 1, dropped with CMDQ_OVERFLOW while the
queue is full, and otherwise appends its word, unchecked. -/
def Obligations.CmdWriteRule : Prop :=
  ∀ (s : State) (lanes : BitVec 4) (w : Word) (low : Nat), low < 4 →
    step (s.offering (.write (s.params.base + 0x018 + low) lanes w)) = .next
      (if s.irq.err then { s with errCause := { s.errCause with multi := true } }
       else if s.cmdq.length = s.params.queueDepth then afterHostError .cmdqOverflow 0x018 s
       else { s with cmdq := s.cmdq ++ [w] })

/-- R221, R226: an XOF_DATA write appends its four bytes, low byte first, if they fit, and a stalled REJ
goes on; otherwise the whole word is dropped with XOF_OVERFLOW. That the stall is lifted inside the
write is the model's reading (log 6). -/
def Obligations.XofDataWriteRule : Prop :=
  ∀ (s : State) (lanes : BitVec 4) (v : Word) (low : Nat), low < 4 →
    step (s.offering (.write (s.params.base + 0x020 + low) lanes v)) = .next
      (if s.fifo.length + 4 ≤ s.params.fifoBytes then
        { s with
          fifo := s.fifo ++
            [v.extractLsb' 0 8, v.extractLsb' 8 8, v.extractLsb' 16 8, v.extractLsb' 24 8]
          engine := match s.engine with
            | .xwait w => .exec w
            | e => e }
       else afterHostError .xofOverflow 0x020 s)

/-- R27, R308: an IRQ_STATUS write clears the bits written 1; bit 1 also sets ERR_CAUSE and ERR_INFO to
0, and does nothing while ERR = 0. -/
def Obligations.IrqStatusWriteRule : Prop :=
  ∀ (s : State) (lanes : BitVec 4) (v : Word) (low : Nat), low < 4 →
    step (s.offering (.write (s.params.base + 0x00C + low) lanes v)) = .next
      { s with
        irq := {
          done := s.irq.done && !v.getLsbD 0
          err := s.irq.err && !v.getLsbD 1
          xofNeed := s.irq.xofNeed && !v.getLsbD 2 }
        errCause := if v.getLsbD 1 && s.irq.err then { code := .none, op := 0, multi := false }
          else s.errCause
        errInfo := if v.getLsbD 1 && s.irq.err then 0 else s.errInfo }

/-- R70, R300: while busy, a read of a locked resource returns 0 and a write has no effect on it; either
records HOST_BUSY_ACCESS with the word's offset. -/
def Obligations.LockedAccessWhileBusy : Prop :=
  ∀ (s : State) (off low : Nat) (lanes : BitVec 4) (v : Word), s.params.slots ≤ 16 → low < 4 →
    off % 4 = 0 → LockedOffset s.params off → s.busy = true →
      step (s.offering (.read (s.params.base + off + low))) =
          .next { afterHostError .hostBusyAccess off s with rdata := 0 } ∧
        step (s.offering (.write (s.params.base + off + low) lanes v)) =
          .next (afterHostError .hostBusyAccess off s)

/-- R64: an unmapped or reserved offset reads 0 and ignores writes, at any time and without an error. -/
def Obligations.UnmappedOffsets : Prop :=
  ∀ (s : State) (off low : Nat) (lanes : BitVec 4) (v : Word), s.params.slots ≤ 16 → low < 4 →
    off % 4 = 0 → ((0x03C ≤ off ∧ off < 0x400) ∨ (0x580 ≤ off ∧ off < 0x1000) ∨
      (0x1000 + 0x200 * s.params.slots ≤ off ∧ off < 0x4000)) →
      step (s.offering (.read (s.params.base + off + low))) = .next { s with rdata := 0 } ∧
        step (s.offering (.write (s.params.base + off + low) lanes v)) = .next s

/-- R65, R66, R67, R341: while the block is idle, a window write stores the word's four bytes at the
offset, low byte first, and nothing else; a window read returns the four bytes; a window read with
a byte that holds no value is a fault. -/
def Obligations.IdleWindowAccess : Prop :=
  ∀ (s : State) (off low : Nat), s.params.slots ≤ 16 → low < 4 → off % 4 = 0 →
    WindowOffset s.params off → s.busy = false →
      (∀ (lanes : BitVec 4) (v : Word),
        ∃ m, step (s.offering (.write (s.params.base + off + low) lanes v)) = .next { s with mem := m } ∧
          (∀ k, k < 4 → readByte m (off + k) = some (v.extractLsb' (8 * k) 8)) ∧
          SameOutside off 4 s.mem m) ∧
      (∀ b0 b1 b2 b3 : Byte, readByte s.mem off = some b0 → readByte s.mem (off + 1) = some b1 →
        readByte s.mem (off + 2) = some b2 → readByte s.mem (off + 3) = some b3 →
        step (s.offering (.read (s.params.base + off + low))) =
          .next { s with rdata := b3 ++ b2 ++ b1 ++ b0 }) ∧
      (∀ k, k < 4 → readByte s.mem (off + k) = none →
        step (s.offering (.read (s.params.base + off + low))) = .fault (.unwrittenWindow off))

/-- R24 to R38, R45, R63, R300: what every register reads as, the numbers of the error codes those of
R300; SA, SB and SR while the block is idle. -/
def Obligations.RegisterReads : Prop :=
  ∀ (s : State) (low : Nat), s.params.Legal → s.cmdq.length ≤ s.params.queueDepth →
    s.fifo.length ≤ s.params.fifoBytes → low < 4 →
      (∀ x ∈ [(0x000, s.params.slots + 0x100 * s.params.queueDepth + 0x4B010000),
          (0x004, 0x10 * s.ctrl.ieDone.toNat + 0x20 * s.ctrl.ieErr.toNat + 0x40 * s.ctrl.ieXof.toNat),
          (0x008, (decide (s.engine ≠ .idle ∨ s.cmdq ≠ [])).toNat + 2 * s.irq.err.toNat +
            4 * (match s.engine with | .xwait _ => 1 | _ => 0) +
            8 * (decide (s.cmdq.length = s.params.queueDepth)).toNat +
            0x10 * (decide (s.engine ≠ .idle)).toNat + 0x100 * s.cmdq.length),
          (0x00C, s.irq.done.toNat + 2 * s.irq.err.toNat + 4 * s.irq.xofNeed.toNat),
          (0x010, (match s.errCause.code with
            | .none => 0x00
            | .illegalOp => 0x01
            | .reservedField => 0x02
            | .badParam => 0x03
            | .badSlot => 0x04
            | .cmdqOverflow => 0x10
            | .hostBusyAccess => 0x11
            | .xofOverflow => 0x12) + 0x100 * s.errCause.op.toNat +
            0x10000 * s.errCause.multi.toNat),
          (0x014, s.errInfo.toNat), (0x018, 0), (0x01C, s.cmdCount.toNat), (0x020, 0),
          (0x024, s.fifo.length), (0x028, s.rejConsumed.toNat), (0x02C, s.params.fifoBytes)],
        step (s.offering (.read (s.params.base + x.1 + low))) =
          .next { s with rdata := BitVec.ofNat 32 x.2 }) ∧
      (s.busy = false →
        step (s.offering (.read (s.params.base + 0x030 + low))) = .next { s with rdata := s.sa } ∧
        step (s.offering (.read (s.params.base + 0x034 + low))) =
          .next { s with rdata := BitVec.ofNat 32 s.sb.toNat } ∧
        step (s.offering (.read (s.params.base + 0x038 + low))) =
          .next { s with rdata := BitVec.ofInt 32 s.sr.toInt })

/-- R36, R37, R38, R63: writes to SA and SB while the block is idle, and the registers that ignore
writes. -/
def Obligations.RegisterWrites : Prop :=
  ∀ (s : State) (low : Nat) (lanes : BitVec 4) (v : Word), low < 4 →
    (∀ off ∈ [0x000, 0x008, 0x010, 0x014, 0x01C, 0x024, 0x028, 0x02C],
      step (s.offering (.write (s.params.base + off + low) lanes v)) = .next s) ∧
    (s.busy = false →
      step (s.offering (.write (s.params.base + 0x030 + low) lanes v)) = .next { s with sa := v } ∧
      step (s.offering (.write (s.params.base + 0x034 + low) lanes v)) =
        .next { s with sb := BitVec.ofNat 16 v.toNat } ∧
      step (s.offering (.write (s.params.base + 0x038 + low) lanes v)) = .next s)

/-- R69: a read that is not one of a locked resource while busy has no side effect: the value it returns
is all that it changes. -/
def Obligations.ReadsHaveNoEffect : Prop :=
  ∀ (s t : State) (addr : Nat), s.params.slots ≤ 16 →
    (s.busy = false ∨ addr < s.params.base ∨
      ¬ LockedOffset s.params ((addr - s.params.base) / 4 * 4)) →
    step (s.offering (.read addr)) = .next t → t = { s with rdata := t.rdata }

/-- R62: bits 1:0 of an address and the byte lanes of a write do not matter. -/
def Obligations.MisalignedHostAccess : Prop :=
  ∀ (s : State) (addr low : Nat) (lanes : BitVec 4) (v : Word), s.params.base % 4 = 0 →
    addr % 4 = 0 → low < 4 →
      step (s.offering (.read (addr + low))) = step (s.offering (.read addr)) ∧
        step (s.offering (.write (addr + low) lanes v)) = step (s.offering (.write addr 0xF v))

/-! ### Rules about the whole machine -/

/-- R316: a pending bit of IRQ_STATUS is cleared only by a host write of 1 to it, by a soft reset or by
the reset input. -/
def Obligations.PendingBitsPersist : Prop :=
  ∀ s t : State, step s = .next t →
    ∀ x ∈ [(0, s.irq.done, t.irq.done), (1, s.irq.err, t.irq.err), (2, s.irq.xofNeed, t.irq.xofNeed)],
      x.2.1 = true → x.2.2 = false →
        (∃ sc, s.script = .reset :: sc) ∨
        (∃ addr lanes v sc, s.script = .host (.write addr lanes v) :: sc ∧
          ((blockOffset s.params addr = some 0x00C ∧ v.getLsbD x.1 = true) ∨
            (blockOffset s.params addr = some 0x004 ∧ v.getLsbD 0 = true)))

/-- R320: a step that is no reset sets DONE exactly when the block was busy before it and is not after
it (and only a host write, R316, clears it); after a soft reset or the reset input DONE is 0. -/
def Obligations.DoneRule : Prop :=
  ∀ s t : State, step s = .next t →
    (ResetsNow s → t.irq.done = false) ∧
    (¬ ResetsNow s →
      (s.busy = true → t.busy = false → t.irq.done = true) ∧
      (¬ (s.busy = true ∧ t.busy = false) → t.irq.done = true → s.irq.done = true))

/-- R43, R94, R95, R305, R325: the queue changes only by losing its head, by being emptied or by a word
appended at its end; CMD_COUNT becomes 0 in a hardware or soft reset, is one more after a step that
completes a command that passed its check (`CompletesNow`), and is as before after any other step. The
premise is part of the invariant (runningRej); without it the engine could be in EXEC of a word that
is no REJ (log 16). -/
def Obligations.QueueAndCountRule : Prop :=
  ∀ s t : State, (∀ w, s.engine = .exec w → ∃ d, decode w = .ok (.rej d)) → step s = .next t →
    (t.cmdq = s.cmdq ∨ t.cmdq = s.cmdq.drop 1 ∨ t.cmdq = [] ∨ ∃ w, t.cmdq = s.cmdq ++ [w]) ∧
    (ResetsNow s → t.cmdCount = 0) ∧
    (CompletesNow s → t.cmdCount = s.cmdCount + 1) ∧
    (¬ ResetsNow s → ¬ CompletesNow s → t.cmdCount = s.cmdCount)

/-! ### Laws of the arithmetic -/

/-- R120, R125: mont_reduce of an int32: its value, its congruence where the value fits int16, its bounds,
and the examples of R125. -/
def Obligations.MontReduceLaw : Prop :=
  (∀ v : Int, -2147483648 ≤ v → v < 2147483648 →
    let e := (v - (v * 62209).bmod 65536 * 3329) / 65536
    (65536 : Int) ∣ v - (v * 62209).bmod 65536 * 3329 ∧ montReduce v = e.bmod 65536 ∧
    (-32768 ≤ e → e ≤ 32767 → montReduce v = e ∧ (3329 : Int) ∣ montReduce v * 65536 - v) ∧
    |e| * 65536 ≤ |v| + 109084672 ∧
    (-109084672 < v → v < 109084672 → -3329 < montReduce v ∧ montReduce v < 3329)) ∧
  montReduce (3329 * 65536) = 3329 ∧ montReduce (-(3329 * 65536)) = -3329 ∧
  montReduce 0x7FFF0001 = -32600

/-- R121, R127: mont_mul of int16 values never wraps: it is the exact value of R125 for the product, and it
is congruent, so that it multiplies by β where its second operand represents β in the Montgomery
domain; with any entry of the zeta ROM it is at most 2494 in magnitude. -/
def Obligations.MontMulLaw : Prop :=
  ∀ a b : Int, -32768 ≤ a → a ≤ 32767 → -32768 ≤ b → b ≤ 32767 →
    -1073741824 ≤ a * b ∧ a * b ≤ 1073741824 ∧
    montMul a b = (a * b - (a * b * 62209).bmod 65536 * 3329) / 65536 ∧
    -18048 ≤ montMul a b ∧ montMul a b ≤ 18048 ∧ (3329 : Int) ∣ montMul a b * 65536 - a * b ∧
    (∀ β : Int, (3329 : Int) ∣ b - β * 65536 → (3329 : Int) ∣ montMul a b - a * β) ∧
    ∀ i, i < 128 → -2494 ≤ montMul a (zrom i) ∧ montMul a (zrom i) ≤ 2494

/-- R180, R158: the zeta ROM and the base-case constants are the powers of 17 in the Montgomery domain
that the spec's formulas give, the ROM's entries centred. -/
def Obligations.ZetaConstants : Prop :=
  (∀ i, i < 128 → -1664 ≤ zrom i ∧ zrom i ≤ 1664 ∧ (zrom i - 17 ^ brv7 i * 65536) % 3329 = 0) ∧
  (∀ p, p < 128 →
    gamma p = (if p % 2 = 0 then zrom (64 + p / 2) else -zrom (64 + (p - 1) / 2)) ∧
    (gamma p - 17 ^ (2 * brv7 p + 1) * 65536) % 3329 = 0)
end

