-- ==== Sys2Proof/Laws/BitStream.lean ====
section
/-! SUPPORT. Bit streams: lengths, the bit at an index, and cutting and joining fields (44_codec.md R267,
43_sampler.md R235). -/

namespace Sys2Proof.Machine

@[simp] theorem length_toBits (n v : Nat) : (toBits n v).length = n := by
  induction n generalizing v with
  | zero => rfl
  | succ n ih => simp [toBits, ih]

/-- Bit j of a number has weight 2^j (R267). -/
theorem getElem?_toBits (n v j : Nat) (h : j < n) :
    (toBits n v)[j]? = some (v / 2 ^ j % 2 == 1) := by
  induction n generalizing v j with
  | zero => omega
  | succ n ih =>
    cases j with
    | zero => simp [toBits]
    | succ j =>
      have h2 : v / 2 / 2 ^ j = v / 2 ^ (j + 1) := by rw [Nat.div_div_eq_div_mul, pow_succ']
      simp [toBits, ih (v / 2) j (by omega), h2]

theorem ofBits_toBits (n v : Nat) : ofBits (toBits n v) = v % 2 ^ n := by
  induction n generalizing v with
  | zero => simp [toBits, ofBits, Nat.mod_one]
  | succ n ih =>
    have h : v % 2 ^ (n + 1) = v % 2 + 2 * (v / 2 % 2 ^ n) := by
      rw [pow_succ', Nat.mod_mul]
    rcases Nat.mod_two_eq_zero_or_one v with h2 | h2 <;> simp [toBits, ofBits, ih, h, h2]

theorem ofBits_lt (bs : List Bool) : ofBits bs < 2 ^ bs.length := by
  induction bs with
  | nil => simp [ofBits]
  | cons b bs ih =>
    rw [List.length_cons, pow_succ']
    cases b <;> simp [ofBits] <;> omega

theorem toBits_ofBits (bs : List Bool) : toBits bs.length (ofBits bs) = bs := by
  induction bs with
  | nil => rfl
  | cons b bs ih =>
    have h1 : ((if b then 1 else 0) + 2 * ofBits bs) / 2 = ofBits bs := by split <;> omega
    have h2 : (((if b then 1 else 0) + 2 * ofBits bs) % 2 == 1) = b := by
      cases b <;> simp
    simp only [List.length_cons, ofBits, toBits, h1, h2, ih]

@[simp] theorem length_fields (n k : Nat) (bs : List Bool) : (fields n k bs).length = k := by
  induction k generalizing bs with
  | zero => rfl
  | succ k ih => simp [fields, ih]

/-- Field i of a stream is its bits n i to n i + n - 1 (R267). -/
theorem getElem?_fields (n k i : Nat) (bs : List Bool) (h : i < k) :
    (fields n k bs)[i]? = some ((bs.drop (n * i)).take n) := by
  induction k generalizing bs i with
  | zero => omega
  | succ k ih =>
    cases i with
    | zero => simp [fields]
    | succ i =>
      simp [fields, ih i (bs.drop n) (by omega), List.drop_drop, Nat.mul_succ, Nat.add_comm]

/-- Cutting a stream that was joined from fields of one width gives the fields back. -/
theorem fields_flatMap {α : Type} (n : Nat) (l : List α) (g : α → List Bool)
    (h : ∀ x ∈ l, (g x).length = n) : fields n l.length (l.flatMap g) = l.map g := by
  induction l with
  | nil => rfl
  | cons x l ih =>
    have hx := h x (List.mem_cons_self ..)
    have ht : (g x ++ l.flatMap g).take n = g x := by rw [← hx]; simp
    have hd : (g x ++ l.flatMap g).drop n = l.flatMap g := by rw [← hx]; simp
    simp only [List.length_cons, List.flatMap_cons, fields, ht, hd, List.map_cons,
      ih fun y hy => h y (List.mem_cons_of_mem _ hy)]

/-- Joining the fields of a stream gives the stream back. -/
theorem flatten_fields (n k : Nat) (bs : List Bool) : (fields n k bs).flatten = bs.take (n * k) := by
  induction k generalizing bs with
  | zero => simp [fields]
  | succ k ih =>
    have h : n * (k + 1) = n + n * k := by rw [Nat.mul_succ, Nat.add_comm]
    simp [fields, ih, h, List.take_add]

theorem length_of_mem_fields {n k : Nat} {bs x : List Bool} (hl : n * k ≤ bs.length)
    (h : x ∈ fields n k bs) : x.length = n := by
  induction k generalizing bs with
  | zero => cases h
  | succ k ih =>
    have h1 : n * (k + 1) = n + n * k := by rw [Nat.mul_succ, Nat.add_comm]
    rcases List.mem_cons.1 h with rfl | h
    · rw [List.length_take]; omega
    · exact ih (by rw [List.length_drop]; omega) h

theorem length_of_mem_fields_le {n k : Nat} {bs x : List Bool} (h : x ∈ fields n k bs) :
    x.length ≤ n := by
  induction k generalizing bs with
  | zero => cases h
  | succ k ih =>
    rcases List.mem_cons.1 h with rfl | h
    · exact List.length_take_le ..
    · exact ih h

theorem length_flatMap_const {α β : Type} (n : Nat) (l : List α) (g : α → List β)
    (h : ∀ x ∈ l, (g x).length = n) : (l.flatMap g).length = n * l.length := by
  induction l with
  | nil => rfl
  | cons x l ih =>
    rw [List.flatMap_cons, List.length_append, h x (List.mem_cons_self ..),
      ih fun y hy => h y (List.mem_cons_of_mem _ hy), List.length_cons, Nat.mul_succ, Nat.add_comm]

/-- The element at an index of a stream joined from pieces of one width. -/
theorem getElem?_flatMap_const {α β : Type} (n : Nat) (hn : 0 < n) (l : List α) (g : α → List β)
    (h : ∀ x ∈ l, (g x).length = n) (k : Nat) :
    (l.flatMap g)[k]? = (l[k / n]?).bind fun x => (g x)[k % n]? := by
  induction l generalizing k with
  | nil => simp
  | cons x l ih =>
    have hx := h x (List.mem_cons_self ..)
    rw [List.flatMap_cons]
    by_cases hk : k < n
    · rw [List.getElem?_append_left (by omega), Nat.div_eq_of_lt hk, Nat.mod_eq_of_lt hk]
      simp
    · have h1 : k / n = (k - n) / n + 1 := by
        rw [Nat.div_eq_sub_div hn (by omega)]
      have h2 : k % n = (k - n) % n := Nat.mod_eq_sub_mod (by omega)
      rw [List.getElem?_append_right (by omega), hx,
        ih fun y hy => h y (List.mem_cons_of_mem _ hy), h1, h2]
      simp

@[simp] theorem length_byteStream (bytes : List Byte) : (byteStream bytes).length = 8 * bytes.length :=
  length_flatMap_const 8 bytes _ fun _ _ => length_toBits 8 _

/-- Stream bit k is bit (k mod 8) of byte k / 8 (R235, R267). -/
theorem getElem?_byteStream (bytes : List Byte) (k : Nat) :
    (byteStream bytes)[k]? = (bytes[k / 8]?).map fun b => b.toNat / 2 ^ (k % 8) % 2 == 1 := by
  rw [byteStream, getElem?_flatMap_const 8 (by omega) bytes _ (fun _ _ => length_toBits 8 _)]
  cases bytes[k / 8]? with
  | none => rfl
  | some b => simp [getElem?_toBits 8 b.toNat (k % 8) (Nat.mod_lt _ (by omega))]

/-- The stream of the bytes that hold the fields of a stream of whole bytes is that stream. -/
theorem byteStream_pack (m : Nat) (bs : List Bool) (h : bs.length = 8 * m) :
    byteStream ((fields 8 m bs).map fun x => BitVec.ofNat 8 (ofBits x)) = bs := by
  have hf : ∀ x ∈ fields 8 m bs, toBits 8 (BitVec.ofNat 8 (ofBits x)).toNat = x := by
    intro x hx
    have hl := length_of_mem_fields (by omega) hx
    have hlt := ofBits_lt x
    rw [hl] at hlt
    rw [BitVec.toNat_ofNat, Nat.mod_eq_of_lt hlt]
    have := toBits_ofBits x
    rwa [hl] at this
  have hmap : (fields 8 m bs).map (fun x => toBits 8 (BitVec.ofNat 8 (ofBits x)).toNat) =
      fields 8 m bs := by
    rw [List.map_congr_left hf]; exact List.map_id' _
  rw [byteStream, List.flatMap_map, List.flatMap_def, hmap, flatten_fields, ← h, List.take_length]

@[simp] theorem length_byteEncode (n : Nat) (f : List Int) : (byteEncode n f).length = 32 * n := by
  simp [byteEncode]

@[simp] theorem length_byteDecode (n : Nat) (bytes : List Byte) : (byteDecode n bytes).length = 256 := by
  simp [byteDecode]

@[simp] theorem length_cbdSample (eta : Nat) (bytes : List Byte) : (cbdSample eta bytes).length = 256 := by
  simp [cbdSample]

end Sys2Proof.Machine
end

