-- ==== Sys2Proof/Laws/Encoding.lean ====
section
/-! SUPPORT. The fields of a packed word, and a word from its fields (30_encoding.md R90). -/

namespace Sys2Proof

theorem getLsbD_packWord (op : BitVec 5) (p : BitVec 3) (d a b : SlotNo) (imm : BitVec 12) (i : Nat) :
    (packWord op p d a b imm).getLsbD i =
      if i < 5 then op.getLsbD i else if i < 8 then p.getLsbD (i - 5)
      else if i < 12 then d.getLsbD (i - 8) else if i < 16 then a.getLsbD (i - 12)
      else if i < 20 then b.getLsbD (i - 16) else imm.getLsbD (i - 20) := by
  simp only [packWord, BitVec.getLsbD_append]
  by_cases h5 : i < 5
  · simp [h5]
  by_cases h8 : i < 8
  · simp [h5, h8, show i - 5 < 3 by omega]
  by_cases h12 : i < 12
  · simp [Nat.sub_sub, h5, h8, h12, show ¬ i - 5 < 3 by omega, show i - 8 < 4 by omega]
  by_cases h16 : i < 16
  · simp [Nat.sub_sub, h5, h8, h12, h16, show ¬ i - 5 < 3 by omega, show ¬ i - 8 < 4 by omega,
      show i - 12 < 4 by omega]
  by_cases h20 : i < 20
  · simp [Nat.sub_sub, h5, h8, h12, h16, h20, show ¬ i - 5 < 3 by omega, show ¬ i - 8 < 4 by omega,
      show ¬ i - 12 < 4 by omega, show i - 16 < 4 by omega]
  · simp [Nat.sub_sub, h5, h8, h12, h16, h20, show ¬ i - 5 < 3 by omega, show ¬ i - 8 < 4 by omega,
      show ¬ i - 12 < 4 by omega, show ¬ i - 16 < 4 by omega]

section
variable (op : BitVec 5) (p : BitVec 3) (d a b : SlotNo) (imm : BitVec 12)

@[simp] theorem fieldOp_packWord : fieldOp (packWord op p d a b imm) = op := by
  apply BitVec.eq_of_getLsbD_eq
  intro i hi
  simp [fieldOp, getLsbD_packWord, hi]

@[simp] theorem fieldP_packWord : fieldP (packWord op p d a b imm) = p := by
  apply BitVec.eq_of_getLsbD_eq
  intro i hi
  simp [fieldP, getLsbD_packWord, hi, show 5 + i < 8 by omega]

@[simp] theorem fieldD_packWord : fieldD (packWord op p d a b imm) = d := by
  apply BitVec.eq_of_getLsbD_eq
  intro i hi
  simp [fieldD, getLsbD_packWord, hi, show ¬ 8 + i < 5 by omega, show 8 + i < 12 by omega]

@[simp] theorem fieldA_packWord : fieldA (packWord op p d a b imm) = a := by
  apply BitVec.eq_of_getLsbD_eq
  intro i hi
  simp [fieldA, getLsbD_packWord, hi, show ¬ 12 + i < 5 by omega, show ¬ 12 + i < 8 by omega,
    show 12 + i < 16 by omega]

@[simp] theorem fieldB_packWord : fieldB (packWord op p d a b imm) = b := by
  apply BitVec.eq_of_getLsbD_eq
  intro i hi
  simp [fieldB, getLsbD_packWord, hi, show ¬ 16 + i < 5 by omega, show ¬ 16 + i < 8 by omega,
    show ¬ 16 + i < 12 by omega, show 16 + i < 20 by omega]

@[simp] theorem fieldImm_packWord : fieldImm (packWord op p d a b imm) = imm := by
  apply BitVec.eq_of_getLsbD_eq
  intro i hi
  simp [fieldImm, getLsbD_packWord, hi, show ¬ 20 + i < 5 by omega, show ¬ 20 + i < 8 by omega,
    show ¬ 20 + i < 12 by omega, show ¬ 20 + i < 16 by omega]

end

/-- A word is the packing of its six fields: no bit of a word lies outside them (R90). -/
theorem packWord_fields (w : Word) :
    packWord (fieldOp w) (fieldP w) (fieldD w) (fieldA w) (fieldB w) (fieldImm w) = w := by
  apply BitVec.eq_of_getLsbD_eq
  intro i hi
  rw [getLsbD_packWord]
  simp only [fieldOp, fieldP, fieldD, fieldA, fieldB, fieldImm, BitVec.getLsbD_extractLsb']
  split
  · rename_i h; simp [h]
  split
  · simp [show i - 5 < 3 by omega, show 5 + (i - 5) = i by omega]
  split
  · simp [show i - 8 < 4 by omega, show 8 + (i - 8) = i by omega]
  split
  · simp [show i - 12 < 4 by omega, show 12 + (i - 12) = i by omega]
  split
  · simp [show i - 16 < 4 by omega, show 16 + (i - 16) = i by omega]
  · simp [show i - 20 < 12 by omega, show 20 + (i - 20) = i by omega]

end Sys2Proof
end

