-- ==== Sys2Proof/Laws/Memory.lean ====
section
/-! SUPPORT. What the operations over storage do: reading after writing, what a write leaves alone, and
that every write keeps the canonical form (20_memory.md R65, R66; 70_reset_and_hazards.md R341). -/

namespace Sys2Proof.Machine

theorem readByte_append (m n : Memory) (off : Nat) :
    readByte (m ++ n) off = (readByte m off).or (readByte n off) := by
  induction m with
  | nil => simp [readByte]
  | cons x m ih => by_cases h : x.1 = off <;> simp [readByte, h, ih]

theorem readByte_filter (m : Memory) (p : Nat → Bool) (off : Nat) :
    readByte (m.filter fun x => p x.1) off = if p off then readByte m off else none := by
  induction m with
  | nil => simp [readByte]
  | cons x m ih =>
    by_cases hx : x.1 = off
    · subst hx
      cases hp : p x.1 <;> simp [readByte, hp, ih]
    · cases hp : p x.1 <;> simp [readByte, hp, hx, ih]

theorem readByte_cellsAt (bs : List Byte) (base off : Nat) :
    readByte (cellsAt base bs) off = if base ≤ off then bs[off - base]? else none := by
  induction bs generalizing base with
  | nil => simp [cellsAt, readByte]
  | cons b bs ih =>
    rcases Nat.lt_trichotomy base off with h | h | h
    · have h1 : off - base = off - (base + 1) + 1 := by omega
      have h2 : base ≠ off := by omega
      simp [cellsAt, readByte, ih, h2, Nat.succ_le_of_lt h, Nat.le_of_lt h, h1]
    · subst h; simp [cellsAt, readByte]
    · have h1 : base ≠ off := by omega
      have h2 : ¬ base + 1 ≤ off := by omega
      have h3 : ¬ base ≤ off := by omega
      simp [cellsAt, readByte, ih, h1, h2, h3]

/-- Reading after a write: the byte written inside the range, the old byte outside it. -/
theorem readByte_writeBytes (m : Memory) (base : Nat) (bs : List Byte) (off : Nat) :
    readByte (writeBytes m base bs) off =
      if base ≤ off ∧ off < base + bs.length then bs[off - base]? else readByte m off := by
  have hlo := readByte_filter m (fun k => decide (k < base)) off
  have hhi := readByte_filter m (fun k => decide (base + bs.length ≤ k)) off
  simp only [decide_eq_true_eq] at hlo hhi
  rw [writeBytes, readByte_append, readByte_append, hlo, hhi, readByte_cellsAt]
  by_cases h1 : off < base
  · have : ¬ (base ≤ off) := by omega
    have h3 : ¬ (base + bs.length ≤ off) := by omega
    simp [h1, this, h3]
  · by_cases h2 : off < base + bs.length
    · have h3 : ¬ (base + bs.length ≤ off) := by omega
      have h4 : base ≤ off := by omega
      simp [h1, h2, h3, h4]
    · have h4 : base ≤ off := by omega
      have h5 : bs[off - base]? = none := by
        apply List.getElem?_eq_none; omega
      have h6 : base + bs.length ≤ off := by omega
      simp [h1, h2, h4, h5, h6]

theorem readByte_writeBytes_outside (m : Memory) (base : Nat) (bs : List Byte) (off : Nat)
    (h : off < base ∨ base + bs.length ≤ off) :
    readByte (writeBytes m base bs) off = readByte m off := by
  rw [readByte_writeBytes, if_neg (by omega)]

theorem readByte_writeBytes_inside (m : Memory) (base : Nat) (bs : List Byte) (k : Nat)
    (h : k < bs.length) : readByte (writeBytes m base bs) (base + k) = some bs[k] := by
  rw [readByte_writeBytes, if_pos (by omega)]
  simp [h]

/-! ### The canonical form -/

theorem wf_iff_pairwise (m : Memory) : m.wf = true ↔ m.Pairwise fun x y => x.1 < y.1 := by
  induction m with
  | nil => simp [Memory.wf]
  | cons x m ih =>
    cases m with
    | nil => simp [Memory.wf]
    | cons y rest =>
      rw [Memory.wf, Bool.and_eq_true, decide_eq_true_eq, ih]
      constructor
      · rintro ⟨h, hp⟩
        refine List.pairwise_cons.2 ⟨?_, hp⟩
        intro z hz
        rcases List.mem_cons.1 hz with rfl | hz
        · exact h
        · exact lt_trans h ((List.pairwise_cons.1 hp).1 z hz)
      · intro hp
        exact ⟨(List.pairwise_cons.1 hp).1 y (List.mem_cons_self ..), (List.pairwise_cons.1 hp).2⟩

theorem mem_cellsAt {base : Nat} {bs : List Byte} {x : Host.Cell} (h : x ∈ cellsAt base bs) :
    base ≤ x.1 ∧ x.1 < base + bs.length := by
  induction bs generalizing base with
  | nil => simp [cellsAt] at h
  | cons b bs ih =>
    rcases List.mem_cons.1 h with rfl | h
    · simp
    · have := ih h
      simp only [List.length_cons]; omega

theorem pairwise_cellsAt (base : Nat) (bs : List Byte) :
    (cellsAt base bs).Pairwise fun x y => x.1 < y.1 := by
  induction bs generalizing base with
  | nil => simp [cellsAt]
  | cons b bs ih =>
    rw [cellsAt, List.pairwise_cons]
    exact ⟨fun y hy => by have := mem_cellsAt hy; simp only; omega, ih _⟩

/-- Every cell of a written storage is an old cell outside the range or lies in the range. -/
theorem mem_writeBytes {m : Memory} {base : Nat} {bs : List Byte} {x : Host.Cell}
    (h : x ∈ writeBytes m base bs) : x ∈ m ∨ (base ≤ x.1 ∧ x.1 < base + bs.length) := by
  simp only [writeBytes, List.mem_append, List.mem_filter] at h
  rcases h with (⟨h, -⟩ | h) | ⟨h, -⟩
  · exact .inl h
  · exact .inr (mem_cellsAt h)
  · exact .inl h

/-- A write keeps the canonical form. -/
theorem wf_writeBytes {m : Memory} (base : Nat) (bs : List Byte) (h : m.wf = true) :
    (writeBytes m base bs).wf = true := by
  rw [wf_iff_pairwise] at h ⊢
  rw [writeBytes, List.pairwise_append, List.pairwise_append]
  refine ⟨⟨h.filter _, pairwise_cellsAt _ _, ?_⟩, h.filter _, ?_⟩
  · intro x hx y hy
    have := mem_cellsAt hy
    have hx := (List.mem_filter.1 hx).2
    simp only [decide_eq_true_eq] at hx
    omega
  · intro x hx y hy
    have hy := (List.mem_filter.1 hy).2
    simp only [decide_eq_true_eq] at hy
    rcases List.mem_append.1 hx with hx | hx
    · have hx := (List.mem_filter.1 hx).2
      simp only [decide_eq_true_eq] at hx
      omega
    · have := mem_cellsAt hx
      omega

theorem wf_storeSlot {m : Memory} (n : SlotNo) (f : List Int) (h : m.wf = true) :
    (storeSlot m n f).wf = true := wf_writeBytes _ _ h

theorem wf_storeBbuf {m : Memory} (bs : List Byte) (h : m.wf = true) :
    (storeBbuf m bs).wf = true := wf_writeBytes _ _ h

theorem wf_storeWord {m : Memory} (off : Nat) (v : Word) (h : m.wf = true) :
    (storeWord m off v).wf = true := wf_writeBytes _ _ h

/-! ### Coefficients -/

theorem length_slotBytes (f : List Int) :
    (f.flatMap fun v => halfBytes (toHalf v)).length = 2 * f.length := by
  induction f with
  | nil => rfl
  | cons v f ih => simp [halfBytes]; omega

theorem getElem?_slotBytes (f : List Int) (i : Nat) :
    (f.flatMap fun v => halfBytes (toHalf v))[2 * i]? =
        f[i]?.map (fun v => (toHalf v).extractLsb' 0 8) ∧
      (f.flatMap fun v => halfBytes (toHalf v))[2 * i + 1]? =
        f[i]?.map (fun v => (toHalf v).extractLsb' 8 8) := by
  induction f generalizing i with
  | nil => simp
  | cons v f ih =>
    cases i with
    | zero => simp [halfBytes]
    | succ i =>
      have h1 : 2 * (i + 1) = 2 * i + 2 := by omega
      simpa [halfBytes, h1] using ih i

theorem bytesCoeff_halfBytes (h : Half) :
    bytesCoeff (h.extractLsb' 0 8) (h.extractLsb' 8 8) = h.toInt := by
  have : (h.extractLsb' 8 8 ++ h.extractLsb' 0 8 : BitVec 16) = h := by
    apply BitVec.eq_of_getLsbD_eq
    intro i hi
    rw [BitVec.getLsbD_append]
    by_cases h8 : i < 8
    · simp [h8]
    · have : i - 8 < 8 := by omega
      simp [h8, this, show 8 + (i - 8) = i by omega]
  rw [bytesCoeff, this]

/-- The bounds of an int16 read from storage (R10, R20). -/
theorem bytesCoeff_bounds (lo hi : Byte) : -32768 ≤ bytesCoeff lo hi ∧ bytesCoeff lo hi < 32768 := by
  have h1 := BitVec.le_toInt (hi ++ lo : BitVec 16)
  have h2 := BitVec.toInt_lt (x := (hi ++ lo : BitVec 16))
  simp only [bytesCoeff]
  constructor
  · simpa using h1
  · simpa using h2

theorem coeff_bounds {m : Memory} {n : SlotNo} {i : Nat} {v : Int} (h : coeff m n i = some v) :
    -32768 ≤ v ∧ v < 32768 := by
  simp only [coeff] at h
  split at h
  · cases h; exact bytesCoeff_bounds _ _
  · cases h

theorem wrap16_eq_bmod (v : Int) : wrap16 v = v.bmod 65536 := by
  simp only [wrap16, sext16, Int.bmod]
  norm_num

theorem toInt_toHalf (v : Int) : (toHalf v).toInt = wrap16 v := by
  rw [toHalf, BitVec.toInt_ofInt, wrap16_eq_bmod]

/-- The slot written holds the int16 wrap of each value (R11, R66). -/
theorem coeff_storeSlot_same (m : Memory) (n : SlotNo) (f : List Int) (i : Nat) (h : i < f.length) :
    coeff (storeSlot m n f) n i = some (wrap16 f[i]) := by
  have hlen := length_slotBytes f
  have h1 : readByte (storeSlot m n f) (slotBase n.toNat + 2 * i) =
      some ((toHalf f[i]).extractLsb' 0 8) := by
    rw [storeSlot, readByte_writeBytes, if_pos (by omega), Nat.add_sub_cancel_left,
      (getElem?_slotBytes f i).1]
    simp [h]
  have h2 : readByte (storeSlot m n f) (slotBase n.toNat + 2 * i + 1) =
      some ((toHalf f[i]).extractLsb' 8 8) := by
    rw [storeSlot, readByte_writeBytes, if_pos (by omega),
      show slotBase n.toNat + 2 * i + 1 - slotBase n.toNat = 2 * i + 1 by omega,
      (getElem?_slotBytes f i).2]
    simp [h]
  simp only [coeff, h1, h2, bytesCoeff_halfBytes, toInt_toHalf]

/-- A write outside a slot's window leaves its coefficients alone. -/
theorem coeff_writeBytes_outside (m : Memory) (base : Nat) (bs : List Byte) (n : SlotNo) (i : Nat)
    (h : slotBase n.toNat + 2 * i + 2 ≤ base ∨ base + bs.length ≤ slotBase n.toNat + 2 * i) :
    coeff (writeBytes m base bs) n i = coeff m n i := by
  simp only [coeff]
  rw [readByte_writeBytes_outside _ _ _ _ (by omega), readByte_writeBytes_outside _ _ _ _ (by omega)]

/-- Writing one slot leaves the others alone (R20: no slot has an alias). -/
theorem coeff_storeSlot_other (m : Memory) (n k : SlotNo) (f : List Int) (i : Nat) (hk : k ≠ n)
    (hf : f.length ≤ 256) (hi : i < 256) : coeff (storeSlot m n f) k i = coeff m k i := by
  have hne : k.toNat ≠ n.toNat := fun h => hk (BitVec.eq_of_toNat_eq h)
  have hlen := length_slotBytes f
  apply coeff_writeBytes_outside
  simp only [slotBase]
  omega

theorem readByte_storeSlot_outside (m : Memory) (n : SlotNo) (f : List Int) (off : Nat)
    (h : off < slotBase n.toNat ∨ slotBase n.toNat + 2 * f.length ≤ off) :
    readByte (storeSlot m n f) off = readByte m off := by
  have hlen := length_slotBytes f
  exact readByte_writeBytes_outside _ _ _ _ (by omega)

theorem bbufByte_storeBbuf (m : Memory) (bs : List Byte) (k : Nat) :
    bbufByte (storeBbuf m bs) k = if k < bs.length then bs[k]? else bbufByte m k := by
  simp only [bbufByte, storeBbuf, readByte_writeBytes]
  by_cases h : k < bs.length <;> simp [h]

theorem bbufByte_storeSlot (m : Memory) (n : SlotNo) (f : List Int) (k : Nat) (h : k < 384) :
    bbufByte (storeSlot m n f) k = bbufByte m k := by
  apply readByte_writeBytes_outside
  simp only [bbufBase, slotBase]
  omega

theorem coeff_storeBbuf (m : Memory) (bs : List Byte) (n : SlotNo) (i : Nat) (h : bs.length ≤ 384) :
    coeff (storeBbuf m bs) n i = coeff m n i := by
  apply coeff_writeBytes_outside
  simp only [bbufBase, slotBase]
  omega

/-! ### Whole slots and byte ranges -/

theorem allSome_eq_some {α : Type} (l : List (Option α)) (r : List α) :
    allSome l = some r ↔ l = r.map some := by
  induction l generalizing r with
  | nil => cases r <;> simp [allSome]
  | cons x l ih =>
    cases x with
    | none => cases r <;> simp [allSome]
    | some a =>
      cases r with
      | nil => simp [allSome]
      | cons b r =>
        simp only [allSome, Option.map_eq_some_iff, List.map_cons, List.cons.injEq, Option.some.injEq]
        constructor
        · rintro ⟨c, hc, rfl, rfl⟩
          exact ⟨rfl, (ih _).1 hc⟩
        · rintro ⟨rfl, h⟩
          exact ⟨r, (ih _).2 h, rfl, rfl⟩

theorem allSome_range {α : Type} (n : Nat) (g : Nat → Option α) (f : Nat → α)
    (h : ∀ i, i < n → g i = some (f i)) :
    allSome ((List.range n).map g) = some ((List.range n).map f) := by
  rw [allSome_eq_some, List.map_map]
  apply List.map_congr_left
  intro i hi
  exact h i (List.mem_range.1 hi)

theorem allSome_none {α : Type} {l : List (Option α)} (h : none ∈ l) : allSome l = none := by
  induction l with
  | nil => cases h
  | cons x l ih =>
    cases x with
    | none => rfl
    | some a =>
      have : none ∈ l := by simpa using h
      simp [allSome, ih this]

theorem allSome_isSome {α : Type} {l : List (Option α)} (h : ∀ x ∈ l, x ≠ none) :
    ∃ r, allSome l = some r := by
  induction l with
  | nil => exact ⟨[], rfl⟩
  | cons x l ih =>
    cases x with
    | none => exact absurd rfl (h none (by simp))
    | some a =>
      obtain ⟨r, hr⟩ := ih fun y hy => h y (List.mem_cons_of_mem _ hy)
      exact ⟨a :: r, by simp [allSome, hr]⟩

/-- A slot all of whose coefficients hold values is loaded whole. -/
theorem loadSlot_eq {m : Memory} {n : SlotNo} {f : Nat → Int}
    (h : ∀ i, i < 256 → coeff m n i = some (f i)) : loadSlot m n = some ((List.range 256).map f) :=
  allSome_range 256 (coeff m n) f h

theorem loadSlot_none {m : Memory} {n : SlotNo} {i : Nat} (hi : i < 256) (h : coeff m n i = none) :
    loadSlot m n = none :=
  allSome_none (List.mem_map.2 ⟨i, List.mem_range.2 hi, h⟩)

theorem loadBbuf_eq {m : Memory} {n : Nat} {f : Nat → Byte}
    (h : ∀ k, k < n → bbufByte m k = some (f k)) : loadBbuf m n = some ((List.range n).map f) :=
  allSome_range n (bbufByte m) f h

theorem loadBbuf_none {m : Memory} {n k : Nat} (hk : k < n) (h : bbufByte m k = none) :
    loadBbuf m n = none :=
  allSome_none (List.mem_map.2 ⟨k, List.mem_range.2 hk, h⟩)

theorem length_loadSlot {m : Memory} {n : SlotNo} {f : List Int} (h : loadSlot m n = some f) :
    f.length = 256 := by
  have h' := congrArg List.length ((allSome_eq_some _ _).1 h)
  simpa using h'.symm

theorem length_loadBbuf {m : Memory} {n : Nat} {bs : List Byte} (h : loadBbuf m n = some bs) :
    bs.length = n := by
  have h' := congrArg List.length ((allSome_eq_some _ _).1 h)
  simpa using h'.symm

/-- What a loaded slot holds. -/
theorem coeff_of_loadSlot {m : Memory} {n : SlotNo} {f : List Int} (h : loadSlot m n = some f)
    (i : Nat) (hi : i < 256) : coeff m n i = some (f.getD i 0) := by
  have h' := (allSome_eq_some _ _).1 h
  have hlen := length_loadSlot h
  have := congrArg (fun l => l[i]?) h'
  simpa [hi, hlen] using this

/-- A word window read after it is written (R65, R66). -/
theorem loadWord_storeWord_same (m : Memory) (off : Nat) (v : Word) :
    loadWord (storeWord m off v) off = some v := by
  have hv : bytesWord (v.extractLsb' 0 8) (v.extractLsb' 8 8) (v.extractLsb' 16 8)
      (v.extractLsb' 24 8) = v := by
    apply BitVec.eq_of_getLsbD_eq
    intro i hi
    simp only [bytesWord, BitVec.getLsbD_append, BitVec.getLsbD_extractLsb']
    by_cases h0 : i < 8
    · simp [h0]
    · by_cases h1 : i < 16
      · simp [h0, show i - 8 < 8 by omega, show 8 + (i - 8) = i by omega]
      · by_cases h2 : i < 24
        · simp [h0, show ¬ i - 8 < 8 by omega, show i - 8 - 8 < 8 by omega,
            show 16 + (i - 8 - 8) = i by omega]
        · simp [h0, show ¬ i - 8 < 8 by omega, show ¬ i - 8 - 8 < 8 by omega,
            show i - 8 - 8 - 8 < 8 by omega, show 24 + (i - 8 - 8 - 8) = i by omega]
  have h0 := readByte_writeBytes_inside m off (wordBytes v) 0 (by simp [wordBytes])
  have h1 := readByte_writeBytes_inside m off (wordBytes v) 1 (by simp [wordBytes])
  have h2 := readByte_writeBytes_inside m off (wordBytes v) 2 (by simp [wordBytes])
  have h3 := readByte_writeBytes_inside m off (wordBytes v) 3 (by simp [wordBytes])
  simp only [Nat.add_zero] at h0
  simp only [loadWord, storeWord, h0, h1, h2, h3]
  simp [wordBytes, hv]

end Sys2Proof.Machine
end

