-- ==== Sys2Proof/Laws/State.lean ====
section
/-! SUPPORT. The small lemmas of the state's updates: for each update the fields it leaves alone, and
for the updates with a condition in them the whole result. -/

namespace Sys2Proof.Machine

/-! ### raiseError: what it leaves alone -/

@[simp] theorem raiseError_params (code : ErrorCode) (op : BitVec 5) (info : Word) (s : State) :
    (raiseError code op info s).params = s.params := by rw [raiseError]; split <;> rfl
@[simp] theorem raiseError_mem (code : ErrorCode) (op : BitVec 5) (info : Word) (s : State) :
    (raiseError code op info s).mem = s.mem := by rw [raiseError]; split <;> rfl
@[simp] theorem raiseError_sa (code : ErrorCode) (op : BitVec 5) (info : Word) (s : State) :
    (raiseError code op info s).sa = s.sa := by rw [raiseError]; split <;> rfl
@[simp] theorem raiseError_sb (code : ErrorCode) (op : BitVec 5) (info : Word) (s : State) :
    (raiseError code op info s).sb = s.sb := by rw [raiseError]; split <;> rfl
@[simp] theorem raiseError_sr (code : ErrorCode) (op : BitVec 5) (info : Word) (s : State) :
    (raiseError code op info s).sr = s.sr := by rw [raiseError]; split <;> rfl
@[simp] theorem raiseError_fifo (code : ErrorCode) (op : BitVec 5) (info : Word) (s : State) :
    (raiseError code op info s).fifo = s.fifo := by rw [raiseError]; split <;> rfl
@[simp] theorem raiseError_engine (code : ErrorCode) (op : BitVec 5) (info : Word) (s : State) :
    (raiseError code op info s).engine = s.engine := by rw [raiseError]; split <;> rfl
@[simp] theorem raiseError_rejBuf (code : ErrorCode) (op : BitVec 5) (info : Word) (s : State) :
    (raiseError code op info s).rejBuf = s.rejBuf := by rw [raiseError]; split <;> rfl
@[simp] theorem raiseError_rejUsed (code : ErrorCode) (op : BitVec 5) (info : Word) (s : State) :
    (raiseError code op info s).rejUsed = s.rejUsed := by rw [raiseError]; split <;> rfl
@[simp] theorem raiseError_ctrl (code : ErrorCode) (op : BitVec 5) (info : Word) (s : State) :
    (raiseError code op info s).ctrl = s.ctrl := by rw [raiseError]; split <;> rfl
@[simp] theorem raiseError_cmdCount (code : ErrorCode) (op : BitVec 5) (info : Word) (s : State) :
    (raiseError code op info s).cmdCount = s.cmdCount := by rw [raiseError]; split <;> rfl
@[simp] theorem raiseError_rejConsumed (code : ErrorCode) (op : BitVec 5) (info : Word) (s : State) :
    (raiseError code op info s).rejConsumed = s.rejConsumed := by rw [raiseError]; split <;> rfl
@[simp] theorem raiseError_script (code : ErrorCode) (op : BitVec 5) (info : Word) (s : State) :
    (raiseError code op info s).script = s.script := by rw [raiseError]; split <;> rfl
@[simp] theorem raiseError_rdata (code : ErrorCode) (op : BitVec 5) (info : Word) (s : State) :
    (raiseError code op info s).rdata = s.rdata := by rw [raiseError]; split <;> rfl

/-! ### clearError: what it leaves alone -/

@[simp] theorem clearError_params (s : State) :
    (clearError s).params = s.params := by rw [clearError]; split <;> rfl
@[simp] theorem clearError_mem (s : State) :
    (clearError s).mem = s.mem := by rw [clearError]; split <;> rfl
@[simp] theorem clearError_sa (s : State) :
    (clearError s).sa = s.sa := by rw [clearError]; split <;> rfl
@[simp] theorem clearError_sb (s : State) :
    (clearError s).sb = s.sb := by rw [clearError]; split <;> rfl
@[simp] theorem clearError_sr (s : State) :
    (clearError s).sr = s.sr := by rw [clearError]; split <;> rfl
@[simp] theorem clearError_fifo (s : State) :
    (clearError s).fifo = s.fifo := by rw [clearError]; split <;> rfl
@[simp] theorem clearError_cmdq (s : State) :
    (clearError s).cmdq = s.cmdq := by rw [clearError]; split <;> rfl
@[simp] theorem clearError_engine (s : State) :
    (clearError s).engine = s.engine := by rw [clearError]; split <;> rfl
@[simp] theorem clearError_rejBuf (s : State) :
    (clearError s).rejBuf = s.rejBuf := by rw [clearError]; split <;> rfl
@[simp] theorem clearError_rejUsed (s : State) :
    (clearError s).rejUsed = s.rejUsed := by rw [clearError]; split <;> rfl
@[simp] theorem clearError_ctrl (s : State) :
    (clearError s).ctrl = s.ctrl := by rw [clearError]; split <;> rfl
@[simp] theorem clearError_cmdCount (s : State) :
    (clearError s).cmdCount = s.cmdCount := by rw [clearError]; split <;> rfl
@[simp] theorem clearError_rejConsumed (s : State) :
    (clearError s).rejConsumed = s.rejConsumed := by rw [clearError]; split <;> rfl
@[simp] theorem clearError_script (s : State) :
    (clearError s).script = s.script := by rw [clearError]; split <;> rfl
@[simp] theorem clearError_rdata (s : State) :
    (clearError s).rdata = s.rdata := by rw [clearError]; split <;> rfl

/-! ### noteDone: what it leaves alone -/

@[simp] theorem noteDone_params (s : State) (b : Bool) :
    (s.noteDone b).params = s.params := by rw [State.noteDone]; split <;> rfl
@[simp] theorem noteDone_mem (s : State) (b : Bool) :
    (s.noteDone b).mem = s.mem := by rw [State.noteDone]; split <;> rfl
@[simp] theorem noteDone_sa (s : State) (b : Bool) :
    (s.noteDone b).sa = s.sa := by rw [State.noteDone]; split <;> rfl
@[simp] theorem noteDone_sb (s : State) (b : Bool) :
    (s.noteDone b).sb = s.sb := by rw [State.noteDone]; split <;> rfl
@[simp] theorem noteDone_sr (s : State) (b : Bool) :
    (s.noteDone b).sr = s.sr := by rw [State.noteDone]; split <;> rfl
@[simp] theorem noteDone_fifo (s : State) (b : Bool) :
    (s.noteDone b).fifo = s.fifo := by rw [State.noteDone]; split <;> rfl
@[simp] theorem noteDone_cmdq (s : State) (b : Bool) :
    (s.noteDone b).cmdq = s.cmdq := by rw [State.noteDone]; split <;> rfl
@[simp] theorem noteDone_engine (s : State) (b : Bool) :
    (s.noteDone b).engine = s.engine := by rw [State.noteDone]; split <;> rfl
@[simp] theorem noteDone_rejBuf (s : State) (b : Bool) :
    (s.noteDone b).rejBuf = s.rejBuf := by rw [State.noteDone]; split <;> rfl
@[simp] theorem noteDone_rejUsed (s : State) (b : Bool) :
    (s.noteDone b).rejUsed = s.rejUsed := by rw [State.noteDone]; split <;> rfl
@[simp] theorem noteDone_ctrl (s : State) (b : Bool) :
    (s.noteDone b).ctrl = s.ctrl := by rw [State.noteDone]; split <;> rfl
@[simp] theorem noteDone_errCause (s : State) (b : Bool) :
    (s.noteDone b).errCause = s.errCause := by rw [State.noteDone]; split <;> rfl
@[simp] theorem noteDone_errInfo (s : State) (b : Bool) :
    (s.noteDone b).errInfo = s.errInfo := by rw [State.noteDone]; split <;> rfl
@[simp] theorem noteDone_cmdCount (s : State) (b : Bool) :
    (s.noteDone b).cmdCount = s.cmdCount := by rw [State.noteDone]; split <;> rfl
@[simp] theorem noteDone_rejConsumed (s : State) (b : Bool) :
    (s.noteDone b).rejConsumed = s.rejConsumed := by rw [State.noteDone]; split <;> rfl
@[simp] theorem noteDone_script (s : State) (b : Bool) :
    (s.noteDone b).script = s.script := by rw [State.noteDone]; split <;> rfl
@[simp] theorem noteDone_rdata (s : State) (b : Bool) :
    (s.noteDone b).rdata = s.rdata := by rw [State.noteDone]; split <;> rfl

/-! ### hostError: what it leaves alone -/

@[simp] theorem hostError_params (code : ErrorCode) (off : Nat) (s : State) :
    (hostError code off s).params = s.params := by simp [hostError]
@[simp] theorem hostError_mem (code : ErrorCode) (off : Nat) (s : State) :
    (hostError code off s).mem = s.mem := by simp [hostError]
@[simp] theorem hostError_sa (code : ErrorCode) (off : Nat) (s : State) :
    (hostError code off s).sa = s.sa := by simp [hostError]
@[simp] theorem hostError_sb (code : ErrorCode) (off : Nat) (s : State) :
    (hostError code off s).sb = s.sb := by simp [hostError]
@[simp] theorem hostError_sr (code : ErrorCode) (off : Nat) (s : State) :
    (hostError code off s).sr = s.sr := by simp [hostError]
@[simp] theorem hostError_fifo (code : ErrorCode) (off : Nat) (s : State) :
    (hostError code off s).fifo = s.fifo := by simp [hostError]
@[simp] theorem hostError_engine (code : ErrorCode) (off : Nat) (s : State) :
    (hostError code off s).engine = s.engine := by simp [hostError]
@[simp] theorem hostError_rejBuf (code : ErrorCode) (off : Nat) (s : State) :
    (hostError code off s).rejBuf = s.rejBuf := by simp [hostError]
@[simp] theorem hostError_rejUsed (code : ErrorCode) (off : Nat) (s : State) :
    (hostError code off s).rejUsed = s.rejUsed := by simp [hostError]
@[simp] theorem hostError_ctrl (code : ErrorCode) (off : Nat) (s : State) :
    (hostError code off s).ctrl = s.ctrl := by simp [hostError]
@[simp] theorem hostError_cmdCount (code : ErrorCode) (off : Nat) (s : State) :
    (hostError code off s).cmdCount = s.cmdCount := by simp [hostError]
@[simp] theorem hostError_rejConsumed (code : ErrorCode) (off : Nat) (s : State) :
    (hostError code off s).rejConsumed = s.rejConsumed := by simp [hostError]
@[simp] theorem hostError_script (code : ErrorCode) (off : Nat) (s : State) :
    (hostError code off s).script = s.script := by simp [hostError]
@[simp] theorem hostError_rdata (code : ErrorCode) (off : Nat) (s : State) :
    (hostError code off s).rdata = s.rdata := by simp [hostError]

/-! ### failCommand: what it leaves alone -/

@[simp] theorem failCommand_params (code : ErrorCode) (w : Word) (s : State) :
    (failCommand code w s).params = s.params := by simp [failCommand]
@[simp] theorem failCommand_mem (code : ErrorCode) (w : Word) (s : State) :
    (failCommand code w s).mem = s.mem := by simp [failCommand]
@[simp] theorem failCommand_sa (code : ErrorCode) (w : Word) (s : State) :
    (failCommand code w s).sa = s.sa := by simp [failCommand]
@[simp] theorem failCommand_sb (code : ErrorCode) (w : Word) (s : State) :
    (failCommand code w s).sb = s.sb := by simp [failCommand]
@[simp] theorem failCommand_sr (code : ErrorCode) (w : Word) (s : State) :
    (failCommand code w s).sr = s.sr := by simp [failCommand]
@[simp] theorem failCommand_fifo (code : ErrorCode) (w : Word) (s : State) :
    (failCommand code w s).fifo = s.fifo := by simp [failCommand]
@[simp] theorem failCommand_rejBuf (code : ErrorCode) (w : Word) (s : State) :
    (failCommand code w s).rejBuf = s.rejBuf := by simp [failCommand]
@[simp] theorem failCommand_rejUsed (code : ErrorCode) (w : Word) (s : State) :
    (failCommand code w s).rejUsed = s.rejUsed := by simp [failCommand]
@[simp] theorem failCommand_ctrl (code : ErrorCode) (w : Word) (s : State) :
    (failCommand code w s).ctrl = s.ctrl := by simp [failCommand]
@[simp] theorem failCommand_cmdCount (code : ErrorCode) (w : Word) (s : State) :
    (failCommand code w s).cmdCount = s.cmdCount := by simp [failCommand]
@[simp] theorem failCommand_rejConsumed (code : ErrorCode) (w : Word) (s : State) :
    (failCommand code w s).rejConsumed = s.rejConsumed := by simp [failCommand]
@[simp] theorem failCommand_script (code : ErrorCode) (w : Word) (s : State) :
    (failCommand code w s).script = s.script := by simp [failCommand]
@[simp] theorem failCommand_rdata (code : ErrorCode) (w : Word) (s : State) :
    (failCommand code w s).rdata = s.rdata := by simp [failCommand]

/-! ### finish: what it leaves alone -/

@[simp] theorem finish_params (s : State) :
    (finish s).params = s.params := by simp [finish]
@[simp] theorem finish_mem (s : State) :
    (finish s).mem = s.mem := by simp [finish]
@[simp] theorem finish_sa (s : State) :
    (finish s).sa = s.sa := by simp [finish]
@[simp] theorem finish_sb (s : State) :
    (finish s).sb = s.sb := by simp [finish]
@[simp] theorem finish_sr (s : State) :
    (finish s).sr = s.sr := by simp [finish]
@[simp] theorem finish_fifo (s : State) :
    (finish s).fifo = s.fifo := by simp [finish]
@[simp] theorem finish_cmdq (s : State) :
    (finish s).cmdq = s.cmdq := by simp [finish]
@[simp] theorem finish_rejBuf (s : State) :
    (finish s).rejBuf = s.rejBuf := by simp [finish]
@[simp] theorem finish_rejUsed (s : State) :
    (finish s).rejUsed = s.rejUsed := by simp [finish]
@[simp] theorem finish_ctrl (s : State) :
    (finish s).ctrl = s.ctrl := by simp [finish]
@[simp] theorem finish_errCause (s : State) :
    (finish s).errCause = s.errCause := by simp [finish]
@[simp] theorem finish_errInfo (s : State) :
    (finish s).errInfo = s.errInfo := by simp [finish]
@[simp] theorem finish_rejConsumed (s : State) :
    (finish s).rejConsumed = s.rejConsumed := by simp [finish]
@[simp] theorem finish_script (s : State) :
    (finish s).script = s.script := by simp [finish]
@[simp] theorem finish_rdata (s : State) :
    (finish s).rdata = s.rdata := by simp [finish]

/-! ### takeWord: what it leaves alone -/

@[simp] theorem takeWord_params (w : Word) (rest : List Word) (s : State) :
    (takeWord w rest s).params = s.params := rfl
@[simp] theorem takeWord_mem (w : Word) (rest : List Word) (s : State) :
    (takeWord w rest s).mem = s.mem := rfl
@[simp] theorem takeWord_sa (w : Word) (rest : List Word) (s : State) :
    (takeWord w rest s).sa = s.sa := rfl
@[simp] theorem takeWord_sb (w : Word) (rest : List Word) (s : State) :
    (takeWord w rest s).sb = s.sb := rfl
@[simp] theorem takeWord_sr (w : Word) (rest : List Word) (s : State) :
    (takeWord w rest s).sr = s.sr := rfl
@[simp] theorem takeWord_fifo (w : Word) (rest : List Word) (s : State) :
    (takeWord w rest s).fifo = s.fifo := rfl
@[simp] theorem takeWord_rejBuf (w : Word) (rest : List Word) (s : State) :
    (takeWord w rest s).rejBuf = s.rejBuf := rfl
@[simp] theorem takeWord_rejUsed (w : Word) (rest : List Word) (s : State) :
    (takeWord w rest s).rejUsed = s.rejUsed := rfl
@[simp] theorem takeWord_ctrl (w : Word) (rest : List Word) (s : State) :
    (takeWord w rest s).ctrl = s.ctrl := rfl
@[simp] theorem takeWord_irq (w : Word) (rest : List Word) (s : State) :
    (takeWord w rest s).irq = s.irq := rfl
@[simp] theorem takeWord_errCause (w : Word) (rest : List Word) (s : State) :
    (takeWord w rest s).errCause = s.errCause := rfl
@[simp] theorem takeWord_errInfo (w : Word) (rest : List Word) (s : State) :
    (takeWord w rest s).errInfo = s.errInfo := rfl
@[simp] theorem takeWord_cmdCount (w : Word) (rest : List Word) (s : State) :
    (takeWord w rest s).cmdCount = s.cmdCount := rfl
@[simp] theorem takeWord_rejConsumed (w : Word) (rest : List Word) (s : State) :
    (takeWord w rest s).rejConsumed = s.rejConsumed := rfl
@[simp] theorem takeWord_script (w : Word) (rest : List Word) (s : State) :
    (takeWord w rest s).script = s.script := rfl
@[simp] theorem takeWord_rdata (w : Word) (rest : List Word) (s : State) :
    (takeWord w rest s).rdata = s.rdata := rfl

/-! ### finishSlot: what it leaves alone -/

@[simp] theorem finishSlot_params (d : SlotNo) (f : List Int) (s : State) :
    (finishSlot d f s).params = s.params := by simp [finishSlot]
@[simp] theorem finishSlot_sa (d : SlotNo) (f : List Int) (s : State) :
    (finishSlot d f s).sa = s.sa := by simp [finishSlot]
@[simp] theorem finishSlot_sb (d : SlotNo) (f : List Int) (s : State) :
    (finishSlot d f s).sb = s.sb := by simp [finishSlot]
@[simp] theorem finishSlot_sr (d : SlotNo) (f : List Int) (s : State) :
    (finishSlot d f s).sr = s.sr := by simp [finishSlot]
@[simp] theorem finishSlot_fifo (d : SlotNo) (f : List Int) (s : State) :
    (finishSlot d f s).fifo = s.fifo := by simp [finishSlot]
@[simp] theorem finishSlot_cmdq (d : SlotNo) (f : List Int) (s : State) :
    (finishSlot d f s).cmdq = s.cmdq := by simp [finishSlot]
@[simp] theorem finishSlot_rejBuf (d : SlotNo) (f : List Int) (s : State) :
    (finishSlot d f s).rejBuf = s.rejBuf := by simp [finishSlot]
@[simp] theorem finishSlot_rejUsed (d : SlotNo) (f : List Int) (s : State) :
    (finishSlot d f s).rejUsed = s.rejUsed := by simp [finishSlot]
@[simp] theorem finishSlot_ctrl (d : SlotNo) (f : List Int) (s : State) :
    (finishSlot d f s).ctrl = s.ctrl := by simp [finishSlot]
@[simp] theorem finishSlot_errCause (d : SlotNo) (f : List Int) (s : State) :
    (finishSlot d f s).errCause = s.errCause := by simp [finishSlot]
@[simp] theorem finishSlot_errInfo (d : SlotNo) (f : List Int) (s : State) :
    (finishSlot d f s).errInfo = s.errInfo := by simp [finishSlot]
@[simp] theorem finishSlot_rejConsumed (d : SlotNo) (f : List Int) (s : State) :
    (finishSlot d f s).rejConsumed = s.rejConsumed := by simp [finishSlot]
@[simp] theorem finishSlot_script (d : SlotNo) (f : List Int) (s : State) :
    (finishSlot d f s).script = s.script := by simp [finishSlot]
@[simp] theorem finishSlot_rdata (d : SlotNo) (f : List Int) (s : State) :
    (finishSlot d f s).rdata = s.rdata := by simp [finishSlot]

/-! ### wake: what it leaves alone -/

@[simp] theorem wake_params (s : State) :
    (wake s).params = s.params := by
  rw [wake]; split <;> (try split) <;> rfl
@[simp] theorem wake_mem (s : State) :
    (wake s).mem = s.mem := by
  rw [wake]; split <;> (try split) <;> rfl
@[simp] theorem wake_sa (s : State) :
    (wake s).sa = s.sa := by
  rw [wake]; split <;> (try split) <;> rfl
@[simp] theorem wake_sb (s : State) :
    (wake s).sb = s.sb := by
  rw [wake]; split <;> (try split) <;> rfl
@[simp] theorem wake_sr (s : State) :
    (wake s).sr = s.sr := by
  rw [wake]; split <;> (try split) <;> rfl
@[simp] theorem wake_fifo (s : State) :
    (wake s).fifo = s.fifo := by
  rw [wake]; split <;> (try split) <;> rfl
@[simp] theorem wake_cmdq (s : State) :
    (wake s).cmdq = s.cmdq := by
  rw [wake]; split <;> (try split) <;> rfl
@[simp] theorem wake_rejBuf (s : State) :
    (wake s).rejBuf = s.rejBuf := by
  rw [wake]; split <;> (try split) <;> rfl
@[simp] theorem wake_rejUsed (s : State) :
    (wake s).rejUsed = s.rejUsed := by
  rw [wake]; split <;> (try split) <;> rfl
@[simp] theorem wake_ctrl (s : State) :
    (wake s).ctrl = s.ctrl := by
  rw [wake]; split <;> (try split) <;> rfl
@[simp] theorem wake_irq (s : State) :
    (wake s).irq = s.irq := by
  rw [wake]; split <;> (try split) <;> rfl
@[simp] theorem wake_errCause (s : State) :
    (wake s).errCause = s.errCause := by
  rw [wake]; split <;> (try split) <;> rfl
@[simp] theorem wake_errInfo (s : State) :
    (wake s).errInfo = s.errInfo := by
  rw [wake]; split <;> (try split) <;> rfl
@[simp] theorem wake_cmdCount (s : State) :
    (wake s).cmdCount = s.cmdCount := by
  rw [wake]; split <;> (try split) <;> rfl
@[simp] theorem wake_rejConsumed (s : State) :
    (wake s).rejConsumed = s.rejConsumed := by
  rw [wake]; split <;> (try split) <;> rfl
@[simp] theorem wake_script (s : State) :
    (wake s).script = s.script := by
  rw [wake]; split <;> (try split) <;> rfl
@[simp] theorem wake_rdata (s : State) :
    (wake s).rdata = s.rdata := by
  rw [wake]; split <;> (try split) <;> rfl

/-! ### softReset: what it leaves alone -/

@[simp] theorem softReset_params (s : State) :
    (softReset s).params = s.params := rfl
@[simp] theorem softReset_mem (s : State) :
    (softReset s).mem = s.mem := rfl
@[simp] theorem softReset_script (s : State) :
    (softReset s).script = s.script := rfl
@[simp] theorem softReset_rdata (s : State) :
    (softReset s).rdata = s.rdata := rfl

/-! ### hardReset: what it leaves alone -/

@[simp] theorem hardReset_params (s : State) :
    (hardReset s).params = s.params := rfl
@[simp] theorem hardReset_script (s : State) :
    (hardReset s).script = s.script := rfl
@[simp] theorem hardReset_rdata (s : State) :
    (hardReset s).rdata = s.rdata := rfl

/-! ### placeWord: what it leaves alone -/

@[simp] theorem placeWord_params (w : Word) (s : State) :
    (placeWord w s).params = s.params := rfl
@[simp] theorem placeWord_mem (w : Word) (s : State) :
    (placeWord w s).mem = s.mem := rfl
@[simp] theorem placeWord_sa (w : Word) (s : State) :
    (placeWord w s).sa = s.sa := rfl
@[simp] theorem placeWord_sb (w : Word) (s : State) :
    (placeWord w s).sb = s.sb := rfl
@[simp] theorem placeWord_sr (w : Word) (s : State) :
    (placeWord w s).sr = s.sr := rfl
@[simp] theorem placeWord_fifo (w : Word) (s : State) :
    (placeWord w s).fifo = s.fifo := rfl
@[simp] theorem placeWord_rejBuf (w : Word) (s : State) :
    (placeWord w s).rejBuf = s.rejBuf := rfl
@[simp] theorem placeWord_rejUsed (w : Word) (s : State) :
    (placeWord w s).rejUsed = s.rejUsed := rfl
@[simp] theorem placeWord_ctrl (w : Word) (s : State) :
    (placeWord w s).ctrl = s.ctrl := rfl
@[simp] theorem placeWord_irq (w : Word) (s : State) :
    (placeWord w s).irq = s.irq := rfl
@[simp] theorem placeWord_errCause (w : Word) (s : State) :
    (placeWord w s).errCause = s.errCause := rfl
@[simp] theorem placeWord_errInfo (w : Word) (s : State) :
    (placeWord w s).errInfo = s.errInfo := rfl
@[simp] theorem placeWord_cmdCount (w : Word) (s : State) :
    (placeWord w s).cmdCount = s.cmdCount := rfl
@[simp] theorem placeWord_rejConsumed (w : Word) (s : State) :
    (placeWord w s).rejConsumed = s.rejConsumed := rfl
@[simp] theorem placeWord_rdata (w : Word) (s : State) :
    (placeWord w s).rdata = s.rdata := rfl

/-! ### rejTriple: what it leaves alone -/

@[simp] theorem rejTriple_params (b0 b1 b2 : Byte) (rest : List Byte) (s : State) :
    (rejTriple b0 b1 b2 rest s).params = s.params := rfl
@[simp] theorem rejTriple_mem (b0 b1 b2 : Byte) (rest : List Byte) (s : State) :
    (rejTriple b0 b1 b2 rest s).mem = s.mem := rfl
@[simp] theorem rejTriple_sa (b0 b1 b2 : Byte) (rest : List Byte) (s : State) :
    (rejTriple b0 b1 b2 rest s).sa = s.sa := rfl
@[simp] theorem rejTriple_sb (b0 b1 b2 : Byte) (rest : List Byte) (s : State) :
    (rejTriple b0 b1 b2 rest s).sb = s.sb := rfl
@[simp] theorem rejTriple_sr (b0 b1 b2 : Byte) (rest : List Byte) (s : State) :
    (rejTriple b0 b1 b2 rest s).sr = s.sr := rfl
@[simp] theorem rejTriple_cmdq (b0 b1 b2 : Byte) (rest : List Byte) (s : State) :
    (rejTriple b0 b1 b2 rest s).cmdq = s.cmdq := rfl
@[simp] theorem rejTriple_engine (b0 b1 b2 : Byte) (rest : List Byte) (s : State) :
    (rejTriple b0 b1 b2 rest s).engine = s.engine := rfl
@[simp] theorem rejTriple_ctrl (b0 b1 b2 : Byte) (rest : List Byte) (s : State) :
    (rejTriple b0 b1 b2 rest s).ctrl = s.ctrl := rfl
@[simp] theorem rejTriple_irq (b0 b1 b2 : Byte) (rest : List Byte) (s : State) :
    (rejTriple b0 b1 b2 rest s).irq = s.irq := rfl
@[simp] theorem rejTriple_errCause (b0 b1 b2 : Byte) (rest : List Byte) (s : State) :
    (rejTriple b0 b1 b2 rest s).errCause = s.errCause := rfl
@[simp] theorem rejTriple_errInfo (b0 b1 b2 : Byte) (rest : List Byte) (s : State) :
    (rejTriple b0 b1 b2 rest s).errInfo = s.errInfo := rfl
@[simp] theorem rejTriple_cmdCount (b0 b1 b2 : Byte) (rest : List Byte) (s : State) :
    (rejTriple b0 b1 b2 rest s).cmdCount = s.cmdCount := rfl
@[simp] theorem rejTriple_rejConsumed (b0 b1 b2 : Byte) (rest : List Byte) (s : State) :
    (rejTriple b0 b1 b2 rest s).rejConsumed = s.rejConsumed := rfl
@[simp] theorem rejTriple_script (b0 b1 b2 : Byte) (rest : List Byte) (s : State) :
    (rejTriple b0 b1 b2 rest s).script = s.script := rfl
@[simp] theorem rejTriple_rdata (b0 b1 b2 : Byte) (rest : List Byte) (s : State) :
    (rejTriple b0 b1 b2 rest s).rdata = s.rdata := rfl

/-! ### rejWait: what it leaves alone -/

@[simp] theorem rejWait_params (w : Word) (s : State) :
    (rejWait w s).params = s.params := rfl
@[simp] theorem rejWait_mem (w : Word) (s : State) :
    (rejWait w s).mem = s.mem := rfl
@[simp] theorem rejWait_sa (w : Word) (s : State) :
    (rejWait w s).sa = s.sa := rfl
@[simp] theorem rejWait_sb (w : Word) (s : State) :
    (rejWait w s).sb = s.sb := rfl
@[simp] theorem rejWait_sr (w : Word) (s : State) :
    (rejWait w s).sr = s.sr := rfl
@[simp] theorem rejWait_fifo (w : Word) (s : State) :
    (rejWait w s).fifo = s.fifo := rfl
@[simp] theorem rejWait_cmdq (w : Word) (s : State) :
    (rejWait w s).cmdq = s.cmdq := rfl
@[simp] theorem rejWait_rejBuf (w : Word) (s : State) :
    (rejWait w s).rejBuf = s.rejBuf := rfl
@[simp] theorem rejWait_rejUsed (w : Word) (s : State) :
    (rejWait w s).rejUsed = s.rejUsed := rfl
@[simp] theorem rejWait_ctrl (w : Word) (s : State) :
    (rejWait w s).ctrl = s.ctrl := rfl
@[simp] theorem rejWait_errCause (w : Word) (s : State) :
    (rejWait w s).errCause = s.errCause := rfl
@[simp] theorem rejWait_errInfo (w : Word) (s : State) :
    (rejWait w s).errInfo = s.errInfo := rfl
@[simp] theorem rejWait_cmdCount (w : Word) (s : State) :
    (rejWait w s).cmdCount = s.cmdCount := rfl
@[simp] theorem rejWait_rejConsumed (w : Word) (s : State) :
    (rejWait w s).rejConsumed = s.rejConsumed := rfl
@[simp] theorem rejWait_script (w : Word) (s : State) :
    (rejWait w s).script = s.script := rfl
@[simp] theorem rejWait_rdata (w : Word) (s : State) :
    (rejWait w s).rdata = s.rdata := rfl

/-! ### rejComplete: what it leaves alone -/

@[simp] theorem rejComplete_params (d : SlotNo) (s : State) :
    (rejComplete d s).params = s.params := by simp [rejComplete]
@[simp] theorem rejComplete_sa (d : SlotNo) (s : State) :
    (rejComplete d s).sa = s.sa := by simp [rejComplete]
@[simp] theorem rejComplete_sb (d : SlotNo) (s : State) :
    (rejComplete d s).sb = s.sb := by simp [rejComplete]
@[simp] theorem rejComplete_sr (d : SlotNo) (s : State) :
    (rejComplete d s).sr = s.sr := by simp [rejComplete]
@[simp] theorem rejComplete_cmdq (d : SlotNo) (s : State) :
    (rejComplete d s).cmdq = s.cmdq := by simp [rejComplete]
@[simp] theorem rejComplete_rejBuf (d : SlotNo) (s : State) :
    (rejComplete d s).rejBuf = s.rejBuf := by simp [rejComplete]
@[simp] theorem rejComplete_rejUsed (d : SlotNo) (s : State) :
    (rejComplete d s).rejUsed = s.rejUsed := by simp [rejComplete]
@[simp] theorem rejComplete_ctrl (d : SlotNo) (s : State) :
    (rejComplete d s).ctrl = s.ctrl := by simp [rejComplete]
@[simp] theorem rejComplete_errCause (d : SlotNo) (s : State) :
    (rejComplete d s).errCause = s.errCause := by simp [rejComplete]
@[simp] theorem rejComplete_errInfo (d : SlotNo) (s : State) :
    (rejComplete d s).errInfo = s.errInfo := by simp [rejComplete]
@[simp] theorem rejComplete_script (d : SlotNo) (s : State) :
    (rejComplete d s).script = s.script := by simp [rejComplete]
@[simp] theorem rejComplete_rdata (d : SlotNo) (s : State) :
    (rejComplete d s).rdata = s.rdata := by simp [rejComplete]

/-! ### What the updates write -/

@[simp] theorem raiseError_cmdq (code : ErrorCode) (op : BitVec 5) (info : Word) (s : State) :
    (raiseError code op info s).cmdq = [] := by rw [raiseError]; split <;> rfl
@[simp] theorem raiseError_irq (code : ErrorCode) (op : BitVec 5) (info : Word) (s : State) :
    (raiseError code op info s).irq = { s.irq with err := true } := by
  cases h : s.irq; cases s; simp_all [raiseError]; split <;> simp_all
@[simp] theorem raiseError_errCause (code : ErrorCode) (op : BitVec 5) (info : Word) (s : State) :
    (raiseError code op info s).errCause =
      if s.irq.err then { s.errCause with multi := true } else ⟨code, op, false⟩ := by
  rw [raiseError]; split <;> rfl
@[simp] theorem raiseError_errInfo (code : ErrorCode) (op : BitVec 5) (info : Word) (s : State) :
    (raiseError code op info s).errInfo = if s.irq.err then s.errInfo else info := by
  rw [raiseError]; split <;> rfl
@[simp] theorem raiseError_busy (code : ErrorCode) (op : BitVec 5) (info : Word) (s : State) :
    (raiseError code op info s).busy = (s.engine != .idle) := by simp [State.busy]

theorem noteDone_irq (t : State) (b : Bool) :
    (t.noteDone b).irq = { t.irq with done := t.irq.done || (b && !t.busy) } := by
  rw [State.noteDone]; split
  · rename_i h; simp [h]
  · rename_i h; cases hb : b && !t.busy <;> simp_all

/-- An update that only sets the status word and keeps the rest. -/
theorem noteDone_eq (t : State) (b : Bool) :
    t.noteDone b = { t with irq := { t.irq with done := t.irq.done || (b && !t.busy) } } := by
  rw [← noteDone_irq, State.noteDone]; split <;> rfl

/-- Completion of a command, whole (R95, R320, R325). -/
theorem finish_eq (s : State) :
    finish s = { s with
      engine := .idle
      cmdCount := s.cmdCount + 1
      irq := { s.irq with done := s.irq.done || s.cmdq.isEmpty } } := by
  rw [finish, noteDone_eq]; simp [State.busy]

/-- A failing command, whole (R305, R306, R320). -/
theorem failCommand_eq (code : ErrorCode) (w : Word) (s : State) :
    failCommand code w s = { s with
      engine := .idle
      cmdq := []
      irq := { s.irq with err := true, done := true }
      errCause := if s.irq.err then { s.errCause with multi := true } else ⟨code, fieldOp w, false⟩
      errInfo := if s.irq.err then s.errInfo else w } := by
  rw [failCommand, noteDone_eq]
  simp only [State.busy, raiseError]
  split <;> rename_i h <;> simp_all

/-- A host error, whole (R305, R306, R320). -/
theorem hostError_eq (code : ErrorCode) (off : Nat) (s : State) :
    hostError code off s = { s with
      cmdq := []
      irq := { s.irq with err := true, done := s.irq.done || (s.busy && s.engine == .idle) }
      errCause := if s.irq.err then { s.errCause with multi := true } else ⟨code, 0, false⟩
      errInfo := if s.irq.err then s.errInfo else BitVec.ofNat 32 off } := by
  rw [hostError, noteDone_eq]
  have hb : ∀ c i, (raiseError code c i s).busy = (s.engine != .idle) := by simp
  rw [hb]
  simp only [raiseError]
  split <;> rename_i h <;> simp_all [bne]

/-- Completion of a REJ, whole (R227). -/
theorem rejComplete_eq (d : SlotNo) (s : State) :
    rejComplete d s = { s with
      mem := storeSlot s.mem d (s.rejBuf.map BitVec.toInt)
      rejConsumed := BitVec.ofNat 32 s.rejUsed
      fifo := []
      engine := .idle
      cmdCount := s.cmdCount + 1
      irq := { s.irq with done := s.irq.done || s.cmdq.isEmpty } } := by
  rw [rejComplete, finish_eq]

/-- Completion of a command that writes a slot, whole (R150). -/
theorem finishSlot_eq (d : SlotNo) (f : List Int) (s : State) :
    finishSlot d f s = { s with
      mem := storeSlot s.mem d f
      engine := .idle
      cmdCount := s.cmdCount + 1
      irq := { s.irq with done := s.irq.done || s.cmdq.isEmpty } } := by
  rw [finishSlot, finish_eq]

end Sys2Proof.Machine
end

