-- ==== Sys2Proof/Laws/Transform.lean ====
section
/-! SUPPORT. The butterflies of the spec's pseudocode are the model's (42_ntt.md R183, R184, R186); the
transforms and the base-case multiply keep the 256 coefficients (R182, 41_ring.md R159); the value at
an index of a layer. -/

namespace Sys2Proof.Machine

/-! ### The butterflies of the model and of the spec's pseudocode -/

theorem ctSpec_eq_ct : ctSpec = ct := by
  funext z a b; simp only [ctSpec, ct, wrap16_eq_bmod]

theorem ctPlainSpec_eq_ctPlain : ctPlainSpec = ctPlain := by
  funext a b; simp only [ctPlainSpec, ctPlain, wrap16_eq_bmod]

theorem gsSpec_eq_gs : gsSpec = gs := by
  funext z a b; simp only [gsSpec, gs, wrap16_eq_bmod]

/-! ### Lengths and values -/

theorem length_butterflyGroup (bf : Int → Int → Int × Int) (len : Nat) (f : List Int)
    (h : 2 * len ≤ f.length) : (butterflyGroup bf len f).length = 2 * len := by
  simp only [butterflyGroup, List.length_append, List.length_map, List.length_zipWith,
    List.length_take, List.length_drop]
  omega

theorem length_butterflyLayer (bf : Nat → Int → Int → Int × Int) (len groups g : Nat) (f : List Int)
    (h : groups * (2 * len) ≤ f.length) :
    (butterflyLayer bf len groups g f).length = groups * (2 * len) := by
  induction groups generalizing g f with
  | zero => simp [butterflyLayer]
  | succ n ih =>
    rw [Nat.succ_mul] at h ⊢
    rw [butterflyLayer, List.length_append, length_butterflyGroup _ _ _ (by omega),
      ih (g + 1) (f.drop (2 * len)) (by rw [List.length_drop]; omega)]
    omega

/-- A layer of 256 coefficients (R182). -/
theorem groups_mul_span {L : Nat} (h : 1 ≤ L ∧ L ≤ 7) : 2 ^ (7 - L) * (2 * 2 ^ L) = 256 := by
  obtain ⟨h1, h2⟩ := h
  interval_cases L <;> rfl

theorem length_forwardLayers (Ls : List Nat) (i : Nat) (f : List Int)
    (hL : ∀ L ∈ Ls, 1 ≤ L ∧ L ≤ 7) (hf : f.length = 256) : (forwardLayers Ls i f).length = 256 := by
  induction Ls generalizing i f with
  | nil => exact hf
  | cons L Ls ih =>
    have hs := groups_mul_span (hL L (List.mem_cons_self ..))
    apply ih _ _ fun K hK => hL K (List.mem_cons_of_mem _ hK)
    rw [length_butterflyLayer _ _ _ _ _ (by omega), hs]

theorem length_inverseLayers (Ls : List Nat) (i : Nat) (f : List Int)
    (hL : ∀ L ∈ Ls, 1 ≤ L ∧ L ≤ 7) (hf : f.length = 256) : (inverseLayers Ls i f).length = 256 := by
  induction Ls generalizing i f with
  | nil => exact hf
  | cons L Ls ih =>
    have hs := groups_mul_span (hL L (List.mem_cons_self ..))
    apply ih _ _ fun K hK => hL K (List.mem_cons_of_mem _ hK)
    rw [length_butterflyLayer _ _ _ _ _ (by omega), hs]

theorem length_forwardNtt {f : List Int} (h : f.length = 256) : (forwardNtt f).length = 256 := by
  rw [forwardNtt, List.length_map, length_forwardLayers _ _ _ (by decide) h]

theorem length_forwardNttB {f : List Int} (h : f.length = 256) : (forwardNttB f).length = 256 := by
  rw [forwardNttB, List.length_map, length_forwardLayers _ _ _ (by decide)]
  rw [length_butterflyLayer _ _ _ _ _ (by omega)]

theorem length_inverseNtt {f : List Int} (h : f.length = 256) : (inverseNtt f).length = 256 := by
  rw [inverseNtt, List.length_map, length_inverseLayers _ _ _ (by decide) h]

theorem length_baseMul (n p : Nat) (f g : List Int) (hf : f.length = 2 * n) (hg : g.length = 2 * n) :
    (baseMul p f g).length = 2 * n := by
  induction n generalizing p f g with
  | zero =>
    obtain rfl := List.length_eq_zero_iff.1 hf
    rfl
  | succ n ih =>
    match f, g, hf, hg with
    | a0 :: a1 :: f, b0 :: b1 :: g, hf, hg =>
      simp only [List.length_cons] at hf hg
      simp only [baseMul, basePair, List.cons_append, List.nil_append, List.length_cons,
        ih (p + 1) f g (by omega) (by omega)]
      omega

/-- Pair p of the base-case products (R159). -/
theorem getElem?_baseMul (n p k : Nat) (f g : List Int) (hf : f.length = 2 * n) (hg : g.length = 2 * n)
    (hk : k < n) (j : Nat) (hj : j < 2) :
    (baseMul p f g)[2 * k + j]? =
      (basePair (gamma (p + k)) (f.getD (2 * k) 0) (f.getD (2 * k + 1) 0) (g.getD (2 * k) 0)
        (g.getD (2 * k + 1) 0))[j]? := by
  induction n generalizing p k f g with
  | zero => omega
  | succ n ih =>
    match f, g, hf, hg with
    | a0 :: a1 :: f, b0 :: b1 :: g, hf, hg =>
      simp only [List.length_cons] at hf hg
      cases k with
      | zero =>
        have hl : (basePair (gamma p) a0 a1 b0 b1).length = 2 := rfl
        simp only [baseMul, Nat.mul_zero, Nat.zero_add, Nat.add_zero]
        rw [List.getElem?_append_left (by omega)]
        simp
      | succ k =>
        have hi := ih (p + 1) k f g (by omega) (by omega) (by omega)
        rw [show 2 * (k + 1) + j = (2 * k + j) + 1 + 1 by omega,
          show 2 * (k + 1) = 2 * k + 1 + 1 by omega, show p + (k + 1) = p + 1 + k by omega]
        simp only [List.getD_cons_succ]
        rw [← hi, baseMul, basePair]
        rfl

/-- The pairs of a group: index j below `len` holds the first output on (f[j], f[j+len]), index j + len
the second (R182, R185). -/
theorem getElem?_butterflyGroup (bf : Int → Int → Int × Int) (len : Nat) (f : List Int) (j : Nat)
    (h : 2 * len ≤ f.length) (hj : j < len) :
    (butterflyGroup bf len f)[j]? = some (bf (f.getD j 0) (f.getD (j + len) 0)).1 ∧
      (butterflyGroup bf len f)[j + len]? = some (bf (f.getD j 0) (f.getD (j + len) 0)).2 := by
  have hj1 : j < f.length := by omega
  have hj2 : j + len < f.length := by omega
  have hlen : ((List.zipWith bf (f.take len) ((f.drop len).take len)).map Prod.fst).length = len := by
    simp only [List.length_map, List.length_zipWith, List.length_take, List.length_drop]; omega
  have hz : (List.zipWith bf (f.take len) ((f.drop len).take len))[j]? =
      some (bf (f.getD j 0) (f.getD (j + len) 0)) := by
    simp [List.getElem?_zipWith, hj, hj1, hj2, Nat.add_comm len j]
  simp only [butterflyGroup]
  constructor
  · rw [List.getElem?_append_left (by omega), List.getElem?_map, hz]; rfl
  · rw [List.getElem?_append_right (by omega), hlen, Nat.add_sub_cancel, List.getElem?_map, hz]; rfl

/-- A layer, group by group: group g acts on the 2 len values from 2 len g up (R182). -/
theorem getElem?_butterflyLayer (bf : Nat → Int → Int → Int × Int) (len groups g0 : Nat)
    (f : List Int) (g j : Nat) (h : groups * (2 * len) ≤ f.length) (hg : g < groups) (hj : j < len) :
    (butterflyLayer bf len groups g0 f)[2 * len * g + j]? =
        some (bf (g0 + g) (f.getD (2 * len * g + j) 0) (f.getD (2 * len * g + j + len) 0)).1 ∧
      (butterflyLayer bf len groups g0 f)[2 * len * g + j + len]? =
        some (bf (g0 + g) (f.getD (2 * len * g + j) 0) (f.getD (2 * len * g + j + len) 0)).2 := by
  induction groups generalizing g0 f g with
  | zero => omega
  | succ n ih =>
    rw [Nat.succ_mul] at h
    have hl := length_butterflyGroup (bf g0) len f (by omega)
    cases g with
    | zero =>
      have hb := getElem?_butterflyGroup (bf g0) len f j (by omega) hj
      simp only [butterflyLayer, Nat.mul_zero, Nat.zero_add, Nat.add_zero]
      rw [List.getElem?_append_left (by omega), List.getElem?_append_left (by omega)]
      exact hb
    | succ g =>
      have hi := ih (g0 + 1) (f.drop (2 * len)) g (by rw [List.length_drop]; omega) (by omega)
      have h1 : 2 * len * (g + 1) + j = 2 * len + (2 * len * g + j) := by
        rw [Nat.mul_succ]; omega
      have h2 : 2 * len + (2 * len * g + j) + len = 2 * len + (2 * len * g + j + len) := by omega
      have hd : ∀ k, (f.drop (2 * len)).getD k 0 = f.getD (2 * len + k) 0 := by
        intro k; simp [List.getD_eq_getElem?_getD]
      simp only [hd] at hi
      rw [h1, h2, butterflyLayer, List.getElem?_append_right (by omega),
        List.getElem?_append_right (by omega), hl, Nat.add_sub_cancel_left, Nat.add_sub_cancel_left,
        show g0 + (g + 1) = g0 + 1 + g by omega]
      simpa only [Nat.add_assoc] using hi

end Sys2Proof.Machine
end

