-- ==== Sys2Proof/Laws/Ops.lean ====
section
/-! SUPPORT. What the shared shapes of the meanings, and so exec as a whole, can answer. -/

namespace Sys2Proof.Machine

theorem checked_of_wf {i : Instr} {s : State} (h : i.wf s.params = true) (k : Result) :
    checked i s k = k := by rw [checked, if_pos h]

theorem checked_of_not_wf {i : Instr} {s : State} (h : i.wf s.params = false) (k : Result) :
    checked i s k = .next (failCommand .badSlot (encode i) s) := by
  rw [checked, if_neg (by simp [h])]

theorem withSlot_some {n : SlotNo} {s : State} {f : List Int} (h : loadSlot s.mem n = some f)
    (k : List Int → Result) : withSlot n s k = k f := by rw [withSlot, h]

theorem withSlot_none {n : SlotNo} {s : State} (h : loadSlot s.mem n = none)
    (k : List Int → Result) : withSlot n s k = .fault (.unwrittenSlot n) := by rw [withSlot, h]

theorem withBbuf_some {n : Nat} {s : State} {bs : List Byte} (h : loadBbuf s.mem n = some bs)
    (k : List Byte → Result) : withBbuf n s k = k bs := by rw [withBbuf, h]

theorem withBbuf_none {n : Nat} {s : State} (h : loadBbuf s.mem n = none)
    (k : List Byte → Result) : withBbuf n s k = .fault .unwrittenBbuf := by rw [withBbuf, h]

/-- A command of shape D <- F(A) that answers a next state failed its check or loaded A and stored
F(A) (R150). -/
theorem slotCommand_next {i : Instr} {d a : SlotNo} {F : List Int → List Int} {s t : State}
    (h : slotCommand i d a F s = .next t) :
    (i.wf s.params = false ∧ t = failCommand .badSlot (encode i) s) ∨
      (i.wf s.params = true ∧ ∃ f, loadSlot s.mem a = some f ∧ t = finishSlot d (F f) s) := by
  rw [slotCommand] at h
  cases hw : i.wf s.params
  · rw [checked_of_not_wf hw] at h; cases h; exact .inl ⟨rfl, rfl⟩
  · rw [checked_of_wf hw, withSlot] at h
    split at h
    · rename_i f hf; cases h; exact .inr ⟨rfl, f, hf, rfl⟩
    · cases h

theorem slotCommand2_next {i : Instr} {d a b : SlotNo} {F : List Int → List Int → List Int}
    {s t : State} (h : slotCommand2 i d a b F s = .next t) :
    (i.wf s.params = false ∧ t = failCommand .badSlot (encode i) s) ∨
      (i.wf s.params = true ∧ ∃ f g, loadSlot s.mem a = some f ∧ loadSlot s.mem b = some g ∧
        t = finishSlot d (F f g) s) := by
  rw [slotCommand2] at h
  cases hw : i.wf s.params
  · rw [checked_of_not_wf hw] at h; cases h; exact .inl ⟨rfl, rfl⟩
  · rw [checked_of_wf hw, withSlot] at h
    split at h
    · rename_i f hf
      rw [withSlot] at h
      split at h
      · rename_i g hg; cases h; exact .inr ⟨rfl, f, g, hf, hg, rfl⟩
      · cases h
    · cases h

theorem bbufCommand_next {i : Instr} {n : Nat} {d : SlotNo} {F : List Byte → List Int} {s t : State}
    (h : bbufCommand i n d F s = .next t) :
    (i.wf s.params = false ∧ t = failCommand .badSlot (encode i) s) ∨
      (i.wf s.params = true ∧ ∃ bs, loadBbuf s.mem n = some bs ∧ t = finishSlot d (F bs) s) := by
  rw [bbufCommand] at h
  cases hw : i.wf s.params
  · rw [checked_of_not_wf hw] at h; cases h; exact .inl ⟨rfl, rfl⟩
  · rw [checked_of_wf hw, withBbuf] at h
    split at h
    · rename_i bs hb; cases h; exact .inr ⟨rfl, bs, hb, rfl⟩
    · cases h

theorem encCommand_next {i : Instr} {n : Nat} {a : SlotNo} {s t : State}
    (h : encCommand i n a s = .next t) :
    (i.wf s.params = false ∧ t = failCommand .badSlot (encode i) s) ∨
      (i.wf s.params = true ∧ ∃ f, loadSlot s.mem a = some f ∧
        t = finish { s with mem := storeBbuf s.mem (byteEncode n f) }) := by
  rw [encCommand] at h
  cases hw : i.wf s.params
  · rw [checked_of_not_wf hw] at h; cases h; exact .inl ⟨rfl, rfl⟩
  · rw [checked_of_wf hw, withSlot] at h
    split at h
    · rename_i f hf; cases h; exact .inr ⟨rfl, f, hf, rfl⟩
    · cases h

theorem execRej_next {d : SlotNo} {s t : State} (h : execRej d s = .next t) :
    ((Instr.rej d).wf s.params = false ∧ t = failCommand .badSlot (encode (.rej d)) s) ∨
      ((Instr.rej d).wf s.params = true ∧
        t = { s with engine := .exec (encode (.rej d)), rejBuf := [], rejUsed := 0 }) := by
  rw [execRej] at h
  cases hw : (Instr.rej d).wf s.params
  · rw [checked_of_not_wf hw] at h; cases h; exact .inl ⟨rfl, rfl⟩
  · rw [checked_of_wf hw] at h; cases h; exact .inr ⟨rfl, rfl⟩

/-- What a command can make of the storage: nothing, a whole slot below P_SLOTS, or BBUF from byte 0
up in whole words (R78, R150, R260). -/
inductive StorageAfter (s : State) : Memory → Prop where
  | same : StorageAfter s s.mem
  | slot (d : SlotNo) (f : List Int) (hd : d.toNat < s.params.slots) (hf : f.length = 256) :
      StorageAfter s (storeSlot s.mem d f)
  | bbuf (n : Nat) (bs : List Byte) (hn : n ≤ 12) (hb : bs.length = 32 * n) :
      StorageAfter s (storeBbuf s.mem bs)

/-- The three ways in which a command answers a next state. -/
inductive CommandAfter (i : Instr) (s t : State) : Prop where
  /-- It failed R97 step 4. -/
  | failed (hw : i.wf s.params = false) (ht : t = failCommand .badSlot (encode i) s)
  /-- It ran and completed; only the storage and SR may differ besides the bookkeeping. -/
  | completed (m : Memory) (r : BitVec 16) (hw : i.wf s.params = true) (hm : StorageAfter s m)
      (ht : t = finish { s with mem := m, sr := r })
  /-- It is a REJ, which has started. -/
  | started (d : SlotNo) (hw : i.wf s.params = true) (hi : i = .rej d)
      (ht : t = { s with engine := .exec (encode (.rej d)), rejBuf := [], rejUsed := 0 })

theorem commandAfter_slot {i : Instr} {d : SlotNo} {f : List Int} {s t : State}
    (hw : i.wf s.params = true) (hd : d ∈ i.slotsUsed) (hf : f.length = 256)
    (ht : t = finishSlot d f s) : CommandAfter i s t := by
  refine .completed (storeSlot s.mem d f) s.sr hw (.slot d f ?_ hf) ht
  have := List.all_eq_true.1 hw d hd
  simpa using this

theorem commandAfter_scalar {i : Instr} {v : Int} {s t : State} (hw : i.wf s.params = true)
    (h : scalarCommand v s = .next t) : CommandAfter i s t := by
  rw [scalarCommand] at h; cases h
  exact .completed s.mem (toHalf v) hw .same rfl

theorem commandAfter_slotCommand {i : Instr} {d a : SlotNo} {F : List Int → List Int} {s t : State}
    (hd : d ∈ i.slotsUsed) (hF : ∀ f, f.length = 256 → (F f).length = 256)
    (h : slotCommand i d a F s = .next t) : CommandAfter i s t := by
  rcases slotCommand_next h with ⟨hw, ht⟩ | ⟨hw, f, hf, ht⟩
  · exact .failed hw ht
  · exact commandAfter_slot hw hd (hF f (length_loadSlot hf)) ht

theorem commandAfter_slotCommand2 {i : Instr} {d a b : SlotNo} {F : List Int → List Int → List Int}
    {s t : State} (hd : d ∈ i.slotsUsed)
    (hF : ∀ f g, f.length = 256 → g.length = 256 → (F f g).length = 256)
    (h : slotCommand2 i d a b F s = .next t) : CommandAfter i s t := by
  rcases slotCommand2_next h with ⟨hw, ht⟩ | ⟨hw, f, g, hf, hg, ht⟩
  · exact .failed hw ht
  · exact commandAfter_slot hw hd (hF f g (length_loadSlot hf) (length_loadSlot hg)) ht

theorem commandAfter_bbufCommand {i : Instr} {n : Nat} {d : SlotNo} {F : List Byte → List Int}
    {s t : State} (hd : d ∈ i.slotsUsed) (hF : ∀ bs, (F bs).length = 256)
    (h : bbufCommand i n d F s = .next t) : CommandAfter i s t := by
  rcases bbufCommand_next h with ⟨hw, ht⟩ | ⟨hw, bs, -, ht⟩
  · exact .failed hw ht
  · exact commandAfter_slot hw hd (hF bs) ht

theorem commandAfter_encCommand {i : Instr} {n : Nat} {a : SlotNo} {s t : State} (hn : n ≤ 12)
    (h : encCommand i n a s = .next t) : CommandAfter i s t := by
  rcases encCommand_next h with ⟨hw, ht⟩ | ⟨hw, f, -, ht⟩
  · exact .failed hw ht
  · exact .completed _ s.sr hw (.bbuf n (byteEncode n f) hn (length_byteEncode n f)) ht

/-- Everything exec can answer as a next state, for every command. -/
theorem exec_next {i : Instr} {s t : State} (h : exec i s = .next t) : CommandAfter i s t := by
  cases i with
  | nop => cases h; exact .completed s.mem s.sr rfl .same rfl
  | ntt d a => exact commandAfter_slotCommand (by simp [Instr.slotsUsed]) (fun _ => length_forwardNtt) h
  | nttb d a => exact commandAfter_slotCommand (by simp [Instr.slotsUsed]) (fun _ => length_forwardNttB) h
  | intt d a => exact commandAfter_slotCommand (by simp [Instr.slotsUsed]) (fun _ => length_inverseNtt) h
  | pmul d a b =>
    exact commandAfter_slotCommand2 (by simp [Instr.slotsUsed])
      (fun f g hf hg => length_baseMul 128 0 f g hf hg) h
  | padd d a b =>
    exact commandAfter_slotCommand2 (by simp [Instr.slotsUsed]) (fun f g hf hg => by simp [hf, hg]) h
  | psub d a b =>
    exact commandAfter_slotCommand2 (by simp [Instr.slotsUsed]) (fun f g hf hg => by simp [hf, hg]) h
  | pred d a => exact commandAfter_slotCommand (by simp [Instr.slotsUsed]) (fun f hf => by simp [hf]) h
  | pscale d a imm =>
    exact commandAfter_slotCommand (by simp [Instr.slotsUsed]) (fun f hf => by simp [hf]) h
  | pcanon d a => exact commandAfter_slotCommand (by simp [Instr.slotsUsed]) (fun f hf => by simp [hf]) h
  | enc1 a => exact commandAfter_encCommand (by omega) h
  | enc4 a => exact commandAfter_encCommand (by omega) h
  | enc5 a => exact commandAfter_encCommand (by omega) h
  | enc10 a => exact commandAfter_encCommand (by omega) h
  | enc11 a => exact commandAfter_encCommand (by omega) h
  | enc12 a => exact commandAfter_encCommand (by omega) h
  | dec1 d => exact commandAfter_bbufCommand (by simp [Instr.slotsUsed]) (length_byteDecode 1) h
  | dec4 d => exact commandAfter_bbufCommand (by simp [Instr.slotsUsed]) (length_byteDecode 4) h
  | dec5 d => exact commandAfter_bbufCommand (by simp [Instr.slotsUsed]) (length_byteDecode 5) h
  | dec10 d => exact commandAfter_bbufCommand (by simp [Instr.slotsUsed]) (length_byteDecode 10) h
  | dec11 d => exact commandAfter_bbufCommand (by simp [Instr.slotsUsed]) (length_byteDecode 11) h
  | dec12 d => exact commandAfter_bbufCommand (by simp [Instr.slotsUsed]) (length_byteDecode 12) h
  | cbd2 d => exact commandAfter_bbufCommand (by simp [Instr.slotsUsed]) (length_cbdSample 2) h
  | cbd3 d => exact commandAfter_bbufCommand (by simp [Instr.slotsUsed]) (length_cbdSample 3) h
  | rej d =>
    rcases execRej_next h with ⟨hw, ht⟩ | ⟨hw, ht⟩
    · exact .failed hw ht
    · exact .started d hw rfl ht
  | smul => exact commandAfter_scalar rfl h
  | smred => exact commandAfter_scalar rfl h
  | sbar => exact commandAfter_scalar rfl h
  | shw => exact commandAfter_scalar rfl h

/-! ### Commands that complete -/

theorem toInt_bounds (h : Half) : -32768 ≤ h.toInt ∧ h.toInt < 32768 := by
  have h1 := BitVec.le_toInt h
  have h2 := BitVec.toInt_lt (x := h)
  norm_num at h1 h2
  exact ⟨h1, h2⟩

/-- A value that fits int16 is its own wrap (R10). -/
theorem wrap16_of_fits {v : Int} (h : -32768 ≤ v ∧ v < 32768) : wrap16 v = v := by
  simp only [wrap16, sext16]
  split <;> omega

/-- Slot d after a command has completed into it (R150). -/
theorem coeff_finishSlot (d : SlotNo) (l : List Int) (s : State) (k : Nat) (hl : l.length = 256)
    (hk : k < 256) : coeff (finishSlot d l s).mem d k = some (wrap16 (l.getD k 0)) := by
  rw [finishSlot_eq]
  simp only
  rw [coeff_storeSlot_same _ _ _ k (by omega), List.getD_eq_getElem?_getD,
    List.getElem?_eq_getElem (by omega), Option.getD_some]

/-- D <- F(A) completes when the slot numbers are legal and every coefficient of A holds a value
(R150). -/
theorem slotCommand_completes {i : Instr} {d a : SlotNo} {F : List Int → List Int} {s : State}
    {f : Nat → Int} (hw : i.wf s.params = true) (ha : ∀ k, k < 256 → coeff s.mem a k = some (f k)) :
    slotCommand i d a F s = .next (finishSlot d (F ((List.range 256).map f)) s) := by
  rw [slotCommand, checked_of_wf hw, withSlot_some (loadSlot_eq ha)]

theorem slotCommand2_completes {i : Instr} {d a b : SlotNo} {F : List Int → List Int → List Int}
    {s : State} {f g : Nat → Int} (hw : i.wf s.params = true)
    (ha : ∀ k, k < 256 → coeff s.mem a k = some (f k))
    (hb : ∀ k, k < 256 → coeff s.mem b k = some (g k)) :
    slotCommand2 i d a b F s =
      .next (finishSlot d (F ((List.range 256).map f) ((List.range 256).map g)) s) := by
  rw [slotCommand2, checked_of_wf hw, withSlot_some (loadSlot_eq ha), withSlot_some (loadSlot_eq hb)]

theorem bbufCommand_completes {i : Instr} {n : Nat} {d : SlotNo} {F : List Byte → List Int}
    {s : State} {b : Nat → Byte} (hw : i.wf s.params = true)
    (hb : ∀ k, k < n → bbufByte s.mem k = some (b k)) :
    bbufCommand i n d F s = .next (finishSlot d (F ((List.range n).map b)) s) := by
  rw [bbufCommand, checked_of_wf hw, withBbuf_some (loadBbuf_eq hb)]

theorem encCommand_completes {i : Instr} {n : Nat} {a : SlotNo} {s : State} {f : Nat → Int}
    (hw : i.wf s.params = true) (ha : ∀ k, k < 256 → coeff s.mem a k = some (f k)) :
    encCommand i n a s =
      .next (finish { s with mem := storeBbuf s.mem (byteEncode n ((List.range 256).map f)) }) := by
  rw [encCommand, checked_of_wf hw, withSlot_some (loadSlot_eq ha)]

/-- The storage a command leaves keeps the canonical form. -/
theorem StorageAfter.wf {s : State} {m : Memory} (h : StorageAfter s m) (hw : s.mem.wf = true) :
    m.wf = true := by
  cases h with
  | same => exact hw
  | slot d f hd hf => exact wf_storeSlot d f hw
  | bbuf n bs hn hb => exact wf_storeBbuf bs hw

end Sys2Proof.Machine
end

