-- ==== Sys2Proof/Laws/PerInstr.lean ====
section
/-! SUPPORT. Facts proved once per command, about the command as syntax. -/

namespace Sys2Proof.Laws.ReservedZero

/-- The opcode of the command's word is a legal one, and the fields that opcode does not use are zero in
it (30_encoding.md R92, R101). -/
def Statement (i : Instr) : Prop :=
  ∃ u, fieldUse (fieldOp (encode i)) = some u ∧ unusedZero u (encode i) = true

/-- A packed word whose unused fields are zero meets the statement. -/
theorem of_packWord {op : BitVec 5} {p : BitVec 3} {d a b : SlotNo} {imm : BitVec 12} {u : FieldUse}
    (hu : fieldUse op = some u) (hp : u.p = true ∨ p = 0) (hd : u.d = true ∨ d = 0)
    (ha : u.a = true ∨ a = 0) (hb : u.b = true ∨ b = 0) (hi : u.imm = true ∨ imm = 0) :
    ∃ u, fieldUse (fieldOp (packWord op p d a b imm)) = some u ∧
      unusedZero u (packWord op p d a b imm) = true := by
  refine ⟨u, by simpa using hu, ?_⟩
  simp only [unusedZero, fieldP_packWord, fieldD_packWord, fieldA_packWord, fieldB_packWord,
    fieldImm_packWord, Bool.and_eq_true, Bool.or_eq_true, beq_iff_eq]
  exact ⟨⟨⟨⟨hp, hd⟩, ha⟩, hb⟩, hi⟩

theorem nop : Statement (.nop) :=
  of_packWord rfl (.inr rfl) (.inr rfl) (.inr rfl) (.inr rfl) (.inr rfl)
theorem ntt (d : SlotNo) (a : SlotNo) : Statement (.ntt d a) :=
  of_packWord rfl (.inr rfl) (.inl rfl) (.inl rfl) (.inr rfl) (.inr rfl)
theorem nttb (d : SlotNo) (a : SlotNo) : Statement (.nttb d a) :=
  of_packWord rfl (.inr rfl) (.inl rfl) (.inl rfl) (.inr rfl) (.inr rfl)
theorem intt (d : SlotNo) (a : SlotNo) : Statement (.intt d a) :=
  of_packWord rfl (.inr rfl) (.inl rfl) (.inl rfl) (.inr rfl) (.inr rfl)
theorem pmul (d : SlotNo) (a : SlotNo) (b : SlotNo) : Statement (.pmul d a b) :=
  of_packWord rfl (.inr rfl) (.inl rfl) (.inl rfl) (.inl rfl) (.inr rfl)
theorem padd (d : SlotNo) (a : SlotNo) (b : SlotNo) : Statement (.padd d a b) :=
  of_packWord rfl (.inr rfl) (.inl rfl) (.inl rfl) (.inl rfl) (.inr rfl)
theorem psub (d : SlotNo) (a : SlotNo) (b : SlotNo) : Statement (.psub d a b) :=
  of_packWord rfl (.inr rfl) (.inl rfl) (.inl rfl) (.inl rfl) (.inr rfl)
theorem pred (d : SlotNo) (a : SlotNo) : Statement (.pred d a) :=
  of_packWord rfl (.inr rfl) (.inl rfl) (.inl rfl) (.inr rfl) (.inr rfl)
theorem pscale (d : SlotNo) (a : SlotNo) (imm : BitVec 12) : Statement (.pscale d a imm) :=
  of_packWord rfl (.inr rfl) (.inl rfl) (.inl rfl) (.inr rfl) (.inl rfl)
theorem pcanon (d : SlotNo) (a : SlotNo) : Statement (.pcanon d a) :=
  of_packWord rfl (.inr rfl) (.inl rfl) (.inl rfl) (.inr rfl) (.inr rfl)
theorem enc1 (a : SlotNo) : Statement (.enc1 a) :=
  of_packWord rfl (.inl rfl) (.inr rfl) (.inl rfl) (.inr rfl) (.inr rfl)
theorem enc4 (a : SlotNo) : Statement (.enc4 a) :=
  of_packWord rfl (.inl rfl) (.inr rfl) (.inl rfl) (.inr rfl) (.inr rfl)
theorem enc5 (a : SlotNo) : Statement (.enc5 a) :=
  of_packWord rfl (.inl rfl) (.inr rfl) (.inl rfl) (.inr rfl) (.inr rfl)
theorem enc10 (a : SlotNo) : Statement (.enc10 a) :=
  of_packWord rfl (.inl rfl) (.inr rfl) (.inl rfl) (.inr rfl) (.inr rfl)
theorem enc11 (a : SlotNo) : Statement (.enc11 a) :=
  of_packWord rfl (.inl rfl) (.inr rfl) (.inl rfl) (.inr rfl) (.inr rfl)
theorem enc12 (a : SlotNo) : Statement (.enc12 a) :=
  of_packWord rfl (.inl rfl) (.inr rfl) (.inl rfl) (.inr rfl) (.inr rfl)
theorem dec1 (d : SlotNo) : Statement (.dec1 d) :=
  of_packWord rfl (.inl rfl) (.inl rfl) (.inr rfl) (.inr rfl) (.inr rfl)
theorem dec4 (d : SlotNo) : Statement (.dec4 d) :=
  of_packWord rfl (.inl rfl) (.inl rfl) (.inr rfl) (.inr rfl) (.inr rfl)
theorem dec5 (d : SlotNo) : Statement (.dec5 d) :=
  of_packWord rfl (.inl rfl) (.inl rfl) (.inr rfl) (.inr rfl) (.inr rfl)
theorem dec10 (d : SlotNo) : Statement (.dec10 d) :=
  of_packWord rfl (.inl rfl) (.inl rfl) (.inr rfl) (.inr rfl) (.inr rfl)
theorem dec11 (d : SlotNo) : Statement (.dec11 d) :=
  of_packWord rfl (.inl rfl) (.inl rfl) (.inr rfl) (.inr rfl) (.inr rfl)
theorem dec12 (d : SlotNo) : Statement (.dec12 d) :=
  of_packWord rfl (.inl rfl) (.inl rfl) (.inr rfl) (.inr rfl) (.inr rfl)
theorem cbd2 (d : SlotNo) : Statement (.cbd2 d) :=
  of_packWord rfl (.inl rfl) (.inl rfl) (.inr rfl) (.inr rfl) (.inr rfl)
theorem cbd3 (d : SlotNo) : Statement (.cbd3 d) :=
  of_packWord rfl (.inl rfl) (.inl rfl) (.inr rfl) (.inr rfl) (.inr rfl)
theorem rej (d : SlotNo) : Statement (.rej d) :=
  of_packWord rfl (.inr rfl) (.inl rfl) (.inr rfl) (.inr rfl) (.inr rfl)
theorem smul : Statement (.smul) :=
  of_packWord rfl (.inr rfl) (.inr rfl) (.inr rfl) (.inr rfl) (.inr rfl)
theorem smred : Statement (.smred) :=
  of_packWord rfl (.inr rfl) (.inr rfl) (.inr rfl) (.inr rfl) (.inr rfl)
theorem sbar : Statement (.sbar) :=
  of_packWord rfl (.inr rfl) (.inr rfl) (.inr rfl) (.inr rfl) (.inr rfl)
theorem shw : Statement (.shw) :=
  of_packWord rfl (.inr rfl) (.inr rfl) (.inr rfl) (.inr rfl) (.inr rfl)

end Sys2Proof.Laws.ReservedZero
end

