-- ==== Sys2Proof/Laws/Step.lean ====
section
/-! SUPPORT. What a turn of the engine, a host access and so a step can answer; the script, the
parameters and the FIFO's bytes along a run. -/

namespace Sys2Proof.Machine

/-- Everything a turn of the engine can answer as a next state. -/
inductive EngineAfter (s t : State) : Prop where
  /-- It is IDLE with nothing queued. -/
  | nothing (he : s.engine = .idle) (hq : s.cmdq = []) (ht : t = s)
  /-- It took a word that decodes to a command. -/
  | command (w : Word) (rest : List Word) (i : Instr) (he : s.engine = .idle)
      (hq : s.cmdq = w :: rest) (hi : decode w = .ok i)
      (hx : exec i (takeWord w rest s) = .next t)
  /-- It took a word that fails R97 steps 1 to 3. -/
  | undecoded (w : Word) (rest : List Word) (e : DecodeError) (he : s.engine = .idle)
      (hq : s.cmdq = w :: rest) (hi : decode w = .error e)
      (ht : t = failCommand (decodeErrorCode e) w (takeWord w rest s))
  /-- It took a step of a running REJ. -/
  | running (w : Word) (he : s.engine = .exec w) (ht : t = rejStep w s)
  /-- It is in XWAIT. -/
  | waiting (w : Word) (he : s.engine = .xwait w) (ht : t = wake s)

theorem engineStep_next {s t : State} (h : engineStep s = .next t) : EngineAfter s t := by
  rw [engineStep] at h
  split at h
  · rename_i he hq; cases h; exact .nothing he hq rfl
  · rename_i w rest he hq
    rw [runWord] at h
    split at h
    · rename_i i hi; exact .command w rest i he hq hi h
    · rename_i e hi; cases h; exact .undecoded w rest e he hq hi rfl
  · rename_i q w he; cases h; exact .running w he rfl
  · rename_i q w he; cases h; exact .waiting w he rfl

/-- The three ways in which a running REJ's step goes on (R225 to R227). -/
theorem rejStep_cases (w : Word) (s : State) :
    (s.rejBuf.length = 256 ∧ rejStep w s = rejComplete (fieldD w) s) ∨
    (s.rejBuf.length ≠ 256 ∧ ∃ b0 b1 b2 rest, s.fifo = b0 :: b1 :: b2 :: rest ∧
      rejStep w s = rejTriple b0 b1 b2 rest s) ∨
    (s.rejBuf.length ≠ 256 ∧ s.fifo.length < 3 ∧ rejStep w s = rejWait w s) := by
  rw [rejStep]
  split
  · rename_i h; exact .inl ⟨h, rfl⟩
  · rename_i h
    split
    · rename_i b0 b1 b2 rest hf; exact .inr (.inl ⟨h, b0, b1, b2, rest, hf, rfl⟩)
    · rename_i hf
      refine .inr (.inr ⟨h, ?_, rfl⟩)
      by_contra hl
      match hm : s.fifo with
      | b0 :: b1 :: b2 :: rest => exact hf b0 b1 b2 rest hm
      | [] | [_] | [_, _] => simp [hm] at hl

/-- A turn of the engine, which loses the script's entry for it if there is one (log 3). -/
theorem step_of_engineTurn {s : State} (h : EngineTurn s) :
    step s = engineStep { s with script := s.script.drop 1 } := by
  rcases h with h | ⟨sc, h⟩
  · have e : { s with script := s.script.drop 1 } = s := by rw [h, List.drop_nil, ← h]
    rw [e, step, h]
  · rw [step, h, List.drop_one, List.tail_cons]

/-! ### The script and the parameters -/

/-- The parameters, the script and the FIFO are no command's to change (R7, R98; log 3). -/
theorem CommandAfter.keeps {i : Instr} {s t : State} (h : CommandAfter i s t) :
    t.params = s.params ∧ t.script = s.script ∧ t.fifo = s.fifo := by
  cases h with
  | failed hw ht => subst ht; rw [failCommand_eq]; exact ⟨rfl, rfl, rfl⟩
  | completed m r hw hm ht => subst ht; rw [finish_eq]; exact ⟨rfl, rfl, rfl⟩
  | started d hw hi ht => subst ht; exact ⟨rfl, rfl, rfl⟩

/-- The engine fills the FIFO never, and leaves the parameters and the script. -/
theorem EngineAfter.keeps {s t : State} (h : EngineAfter s t) :
    t.params = s.params ∧ t.script = s.script ∧ t.fifo.length ≤ s.fifo.length := by
  cases h with
  | nothing he hq ht => subst ht; exact ⟨rfl, rfl, le_refl _⟩
  | command w rest i he hq hi hx =>
    obtain ⟨hp, hs, hf⟩ := (exec_next hx).keeps
    exact ⟨hp.trans (by simp), hs.trans (by simp), by rw [hf]; simp⟩
  | undecoded w rest e he hq hi ht =>
    subst ht; rw [failCommand_eq]; exact ⟨by simp, by simp, by simp⟩
  | running w he ht =>
    subst ht
    rcases rejStep_cases w s with ⟨-, h⟩ | ⟨-, b0, b1, b2, rest, hf, h⟩ | ⟨-, -, h⟩ <;> rw [h]
    · rw [rejComplete_eq]; exact ⟨rfl, rfl, Nat.zero_le _⟩
    · exact ⟨rfl, rfl, by rw [hf]; simp [rejTriple]; omega⟩
    · exact ⟨rfl, rfl, le_refl _⟩
  | waiting w he ht => subst ht; exact ⟨wake_params s, wake_script s, by rw [wake_fifo]⟩

/-- A host read changes nothing but the value read, or records an error (R69, R70). -/
theorem hostRead_next {off : Nat} {s t : State} (h : hostRead off s = .next t) :
    (∃ v, t = { s with rdata := v }) ∨
      ((portAt s.params off).locked = true ∧ s.busy = true ∧
        t = { hostError .hostBusyAccess off s with rdata := 0 }) := by
  rw [hostRead] at h
  split at h
  · rename_i hb
    rw [Bool.and_eq_true] at hb
    cases h
    exact .inr ⟨hb.1, hb.2, rfl⟩
  · split at h <;> first | (cases h; exact .inl ⟨_, rfl⟩) | skip
    split at h <;> cases h
    exact .inl ⟨_, rfl⟩

/-- A host write fills the FIFO at XOF_DATA only, by the word's four bytes at most (R221), and leaves the
parameters and the script. -/
theorem hostWrite_keeps (off : Nat) (v : Word) (s : State) :
    (hostWrite off v s).params = s.params ∧ (hostWrite off v s).script = s.script ∧
      (hostWrite off v s).fifo.length ≤ s.fifo.length + if off = 0x020 then 4 else 0 := by
  have hx : portAt s.params off = .xofData → off = 0x020 := by
    intro h
    by_contra hne
    rw [portAt] at h
    split at h
    · rename_i port hl
      simp only [registerMap, List.lookup] at hl
      repeat' (split at hl; · simp_all)
      cases hl
    · split at h <;> cases h
  rw [hostWrite]
  split
  · rw [hostError_eq]; exact ⟨rfl, rfl, Nat.le_add_right _ _⟩
  · split <;> rename_i hp
    · rw [writeCtrl]; split
      · exact ⟨rfl, rfl, Nat.zero_le _⟩
      · refine ⟨rfl, rfl, ?_⟩
        simp only; split
        · exact Nat.zero_le _
        · exact Nat.le_add_right _ _
    · rw [writeIrqStatus]; simp only; split <;> simp
    · rw [writeCmd, hostError_eq]; split <;> (try split) <;> simp
    · rw [if_pos (hx hp), writeXofData, hostError_eq]
      split
      · refine ⟨by simp, by simp, ?_⟩
        rw [wake_fifo, List.length_append]
        exact le_refl _
      · simp
    all_goals simp

/-- The script loses its first entry, and nothing changes the parameters (R7; log 3, log 1); the bytes in
the FIFO and those still to be written become no more. -/
theorem step_keeps {s t : State} (h : step s = .next t) :
    t.params = s.params ∧ t.script = s.script.drop 1 ∧
      t.fifo.length + (pushedBytes s.params t.script).length ≤
        s.fifo.length + (pushedBytes s.params s.script).length := by
  rw [step] at h
  split at h
  · rename_i hs
    obtain ⟨hp, hsc, hf⟩ := (engineStep_next h).keeps
    rw [hsc, hs]
    exact ⟨hp, rfl, by omega⟩
  · rename_i rest hs
    obtain ⟨hp, hsc, hf⟩ := (engineStep_next h).keeps
    rw [hs]
    exact ⟨hp, hsc, by rw [hsc]; exact Nat.add_le_add_right hf _⟩
  · rename_i a rest hs
    rw [hs]
    cases a with
    | read addr =>
      have hk : t.params = s.params ∧ t.script = rest ∧ t.fifo = s.fifo := by
        simp only [hostAccess] at h
        split at h
        · rcases hostRead_next h with ⟨v, rfl⟩ | ⟨-, -, rfl⟩
          · exact ⟨rfl, rfl, rfl⟩
          · rw [hostError_eq]; exact ⟨rfl, rfl, rfl⟩
        · cases h; exact ⟨rfl, rfl, rfl⟩
      obtain ⟨hp, hsc, hf⟩ := hk
      exact ⟨hp, hsc, by rw [hsc, hf]; exact le_refl _⟩
    | write addr lanes v =>
      simp only [hostAccess] at h
      split at h
      · rename_i off hb
        cases h
        obtain ⟨hp, hsc, hf⟩ := hostWrite_keeps off v { s with script := rest }
        dsimp only at hf
        refine ⟨hp, hsc, ?_⟩
        rw [hsc]
        simp only [pushedBytes, hb, List.length_append, Option.some.injEq]
        split at hf <;> rename_i hx
        · rw [if_pos hx]
          simp only [List.length_cons, List.length_nil]
          omega
        · rw [if_neg hx]
          simp only [List.length_nil]
          omega
      · rename_i hb
        cases h
        exact ⟨rfl, rfl, by simp [pushedBytes, hb]⟩
  · rename_i rest hs
    cases h
    rw [hs]
    exact ⟨rfl, rfl, by simp [hardReset, State.reset, pushedBytes]⟩

/-- The same along a run. -/
theorem run_keeps (j : Nat) {s t : State} (h : Host.Core.run Sys2Proof.core j s = .next t) :
    t.params = s.params ∧
      t.fifo.length + (pushedBytes s.params t.script).length ≤
        s.fifo.length + (pushedBytes s.params s.script).length := by
  induction j generalizing s with
  | zero => cases h; exact ⟨rfl, le_refl _⟩
  | succ j ih =>
    simp only [Host.Core.run] at h
    split at h
    · rename_i u hu
      obtain ⟨hp, -, hf⟩ := step_keeps hu
      obtain ⟨hp', hf'⟩ := ih h
      rw [hp] at hp' hf'
      exact ⟨hp', by omega⟩
    · cases h
    · cases h

/-- Writes whose bytes all fit beside those in the FIFO find room. -/
theorem keepsRoom_of_fits {s : State}
    (h : s.fifo.length + (pushedBytes s.params s.script).length ≤ s.params.fifoBytes) :
    KeepsRoom s := by
  intro j u addr lanes v sc hr _ hs ho
  obtain ⟨hp, hf⟩ := run_keeps j hr
  rw [hp] at ho ⊢
  rw [hs] at hf
  simp only [pushedBytes, if_pos ho, List.length_append, List.length_cons, List.length_nil] at hf
  omega

end Sys2Proof.Machine
end

