-- ==== Sys2Proof/Tests/Slice0.lean ====
section
/-! SUPPORT. Tests. Expected values are the spec's: the examples of its rules and the vectors of
95_test_vectors.md, or a calculation from the rules where the comment says so. The theorems named
test_hyps_… show states and operands that meet all hypotheses of the statement they name. -/

namespace Sys2Proof.Machine

set_option maxRecDepth 100000
set_option Elab.async false

/-! ### States -/

/-- After reset with the polynomials f and g in slots 0 and 1. -/
def slotState (f g : Nat → Int) : State :=
  { State.reset with
    mem := storeSlot (storeSlot [] 0 ((List.range 256).map f)) 1 ((List.range 256).map g) }

/-- After reset with the bytes b in BBUF. -/
def bytesState (b : Nat → Byte) : State :=
  { State.reset with mem := storeBbuf [] ((List.range 384).map b) }

/-- A polynomial that repeats a list of coefficients. -/
def repeating (l : List Int) (k : Nat) : Int := l.getD (k % l.length) 0

/-- Bytes that repeat a list. -/
def repeatingBytes (l : List Byte) (k : Nat) : Byte := l.getD (k % l.length) 0

theorem slotState_zero {f : Nat → Int} (g : Nat → Int)
    (h : ∀ k, k < 256 → -32768 ≤ f k ∧ f k < 32768) : HoldsSlot (slotState f g).mem 0 f := by
  intro k hk
  rw [slotState, coeff_storeSlot_other _ _ _ _ _ (by decide) (by simp) hk,
    coeff_storeSlot_same _ _ _ k (by simpa using hk)]
  simp [wrap16_of_fits (h k hk)]

theorem slotState_one (f : Nat → Int) {g : Nat → Int}
    (h : ∀ k, k < 256 → -32768 ≤ g k ∧ g k < 32768) : HoldsSlot (slotState f g).mem 1 g := by
  intro k hk
  rw [slotState, coeff_storeSlot_same _ _ _ k (by simpa using hk)]
  simp [wrap16_of_fits (h k hk)]

theorem bytesState_holds (b : Nat → Byte) (n : Nat) (h : n ≤ 384) :
    HoldsBbuf (bytesState b).mem n b := by
  intro k hk
  rw [bytesState, bbufByte_storeBbuf]
  have hk' : k < 384 := by omega
  simp [hk']

/-! ### Well-formedness: an ill-formed command is refused by the check (R91, R97 step 4) -/

def fourSlots : Params := { Params.default with slots := 4 }

theorem test_wf_refuses_d : (Instr.ntt 4 0).wf fourSlots = false := by decide
theorem test_wf_refuses_a : (Instr.enc12 15).wf fourSlots = false := by decide
theorem test_wf_refuses_b : (Instr.padd 0 1 4).wf fourSlots = false := by decide
theorem test_wf_accepts : (Instr.padd 3 3 3).wf fourSlots = true := by decide

/-! ### Decoding (R90, R92, R93), every constructor by a word written out from the spec -/

theorem test_decode_nop : decode 0x00000000 = .ok .nop := by decide
theorem test_decode_ntt : decode 0x00000101 = .ok (.ntt 1 0) := by decide
theorem test_decode_nttb : decode 0x00002202 = .ok (.nttb 2 2) := by decide
theorem test_decode_intt : decode 0x00001303 = .ok (.intt 3 1) := by decide
theorem test_decode_pmul : decode 0x00021404 = .ok (.pmul 4 1 2) := by decide
theorem test_decode_padd : decode 0x00034505 = .ok (.padd 5 4 3) := by decide
theorem test_decode_psub : decode 0x00034506 = .ok (.psub 5 4 3) := by decide
theorem test_decode_pred : decode 0x00005607 = .ok (.pred 6 5) := by decide
theorem test_decode_pscale : decode 0x5A106708 = .ok (.pscale 7 6 1441) := by decide
theorem test_decode_pcanon : decode 0x00007809 = .ok (.pcanon 8 7) := by decide
/-- By R90 and R93, as the next: 0x0A + (P << 5) + (A << 12). -/
theorem test_decode_enc :
    decode 0x0000000A = .ok (.enc1 0) ∧ decode 0x0000102A = .ok (.enc4 1) ∧
    decode 0x0000204A = .ok (.enc5 2) ∧ decode 0x0000306A = .ok (.enc10 3) ∧
    decode 0x0000408A = .ok (.enc11 4) ∧ decode 0x000080AA = .ok (.enc12 8) := by decide
/-- 0x0B + (P << 5) + (D << 8). -/
theorem test_decode_dec :
    decode 0x0000010B = .ok (.dec1 1) ∧ decode 0x0000002B = .ok (.dec4 0) ∧
    decode 0x0000024B = .ok (.dec5 2) ∧ decode 0x0000036B = .ok (.dec10 3) ∧
    decode 0x0000048B = .ok (.dec11 4) ∧ decode 0x000009AB = .ok (.dec12 9) := by decide
theorem test_decode_cbd :
    decode 0x00000A0C = .ok (.cbd2 10) ∧ decode 0x00000B2C = .ok (.cbd3 11) := by decide
theorem test_decode_rej : decode 0x00000C0D = .ok (.rej 12) := by decide
theorem test_decode_scalar :
    decode 0x00000010 = .ok .smul ∧ decode 0x00000011 = .ok .smred ∧
    decode 0x00000012 = .ok .sbar ∧ decode 0x00000013 = .ok .shw := by decide
/-- The words of the table of 95_test_vectors.md, L2.6. -/
theorem test_decode_errors :
    decode 0x0000000E = .error .illegalOp ∧ decode 0xFFFFFFFF = .error .illegalOp ∧
    decode 0x00000020 = .error .reservedField ∧ decode 0x000001EA = .error .reservedField ∧
    decode 0x000000CA = .error .badParam ∧ decode 0x0000004C = .error .badParam ∧
    decode 0x00000110 = .error .reservedField ∧ decode 0x00010008 = .error .reservedField ∧
    decode 0x0000100D = .error .reservedField ∧ decode 0xFFF0FF08 = .ok (.pscale 15 15 4095) := by
  decide

/-! ### Ring commands (41_ring.md; vectors of L2.2) -/

/-- The next state, if that is the answer. -/
def nextOf : Result → Option State
  | .next t => some t
  | _ => none

theorem run_slot2 {i : Instr} {d a b : SlotNo} {F : List Int → List Int → List Int} {s : State}
    {f g : Nat → Int} (ha : HoldsSlot s.mem a f) (hb : HoldsSlot s.mem b g)
    (hw : i.wf s.params = true)
    (hF : (F ((List.range 256).map f) ((List.range 256).map g)).length = 256) :
    ∃ t, slotCommand2 i d a b F s = .next t ∧ ∀ k, k < 256 → coeff t.mem d k =
      some (wrap16 ((F ((List.range 256).map f) ((List.range 256).map g)).getD k 0)) :=
  ⟨_, slotCommand2_completes hw ha hb, fun k hk => coeff_finishSlot d _ s k hF hk⟩

theorem run_slot {i : Instr} {d a : SlotNo} {F : List Int → List Int} {s : State} {f : Nat → Int}
    (ha : HoldsSlot s.mem a f) (hw : i.wf s.params = true)
    (hF : (F ((List.range 256).map f)).length = 256) :
    ∃ t, slotCommand i d a F s = .next t ∧ ∀ k, k < 256 → coeff t.mem d k =
      some (wrap16 ((F ((List.range 256).map f)).getD k 0)) :=
  ⟨_, slotCommand_completes hw ha, fun k hk => coeff_finishSlot d _ s k hF hk⟩

theorem run_bbuf {i : Instr} {n : Nat} {d : SlotNo} {F : List Byte → List Int} {s : State}
    {b : Nat → Byte} (hb : HoldsBbuf s.mem n b) (hw : i.wf s.params = true)
    (hF : (F ((List.range n).map b)).length = 256) :
    ∃ t, bbufCommand i n d F s = .next t ∧ ∀ k, k < 256 → coeff t.mem d k =
      some (wrap16 ((F ((List.range n).map b)).getD k 0)) :=
  ⟨_, bbufCommand_completes hw hb, fun k hk => coeff_finishSlot d _ s k hF hk⟩

theorem run_enc {i : Instr} {n : Nat} {a : SlotNo} {s : State} {f : Nat → Int}
    (ha : HoldsSlot s.mem a f) (hw : i.wf s.params = true) :
    ∃ t, encCommand i n a s = .next t ∧ ∀ k, k < 32 * n → bbufByte t.mem k =
      (byteEncode n ((List.range 256).map f))[k]? := by
  refine ⟨_, encCommand_completes hw ha, fun k hk => ?_⟩
  rw [finish_eq]
  simp only
  rw [bbufByte_storeBbuf, length_byteEncode, if_pos hk]

def addA : Nat → Int := repeating [32767, -32768, 100]
theorem addA_fits : ∀ k, k < 256 → -32768 ≤ addA k ∧ addA k < 32768 := by decide +kernel

def addB : Nat → Int := repeating [1, -1, -200]
theorem addB_fits : ∀ k, k < 256 → -32768 ≤ addB k ∧ addB k < 32768 := by decide +kernel

theorem test_padd_wraps : ∃ t, exec (.padd 5 0 1) (slotState addA addB) = .next t ∧
    coeff t.mem 5 0 = some (-32768) ∧
    coeff t.mem 5 1 = some 32767 ∧
    coeff t.mem 5 2 = some (-100) := by
  obtain ⟨t, h, c⟩ := run_slot2 (i := .padd 5 0 1) (d := 5)
    (F := List.zipWith fun x y => wrap16 (x + y)) (slotState_zero addB addA_fits)
    (slotState_one addA addB_fits) rfl (by simp)
  exact ⟨t, h, (c 0 (by decide)).trans (by decide +kernel),
    (c 1 (by decide)).trans (by decide +kernel),
    (c 2 (by decide)).trans (by decide +kernel)⟩

def subA : Nat → Int := repeating [-32768, 0, 5]
theorem subA_fits : ∀ k, k < 256 → -32768 ≤ subA k ∧ subA k < 32768 := by decide +kernel

def subB : Nat → Int := repeating [1, -32768, 7]
theorem subB_fits : ∀ k, k < 256 → -32768 ≤ subB k ∧ subB k < 32768 := by decide +kernel

theorem test_psub_wraps : ∃ t, exec (.psub 5 0 1) (slotState subA subB) = .next t ∧
    coeff t.mem 5 0 = some 32767 ∧
    coeff t.mem 5 1 = some (-32768) ∧
    coeff t.mem 5 2 = some (-2) := by
  obtain ⟨t, h, c⟩ := run_slot2 (i := .psub 5 0 1) (d := 5)
    (F := List.zipWith fun x y => wrap16 (x - y)) (slotState_zero subB subA_fits)
    (slotState_one subA subB_fits) rfl (by simp)
  exact ⟨t, h, (c 0 (by decide)).trans (by decide +kernel),
    (c 1 (by decide)).trans (by decide +kernel),
    (c 2 (by decide)).trans (by decide +kernel)⟩

def redA : Nat → Int := repeating [3329, -3329, 1665, -1665, 32767, -32768, 4095, 0]
theorem redA_fits : ∀ k, k < 256 → -32768 ≤ redA k ∧ redA k < 32768 := by decide +kernel

theorem test_pred : ∃ t, exec (.pred 5 0) (slotState redA redA) = .next t ∧
    coeff t.mem 5 0 = some 0 ∧
    coeff t.mem 5 1 = some 0 ∧
    coeff t.mem 5 2 = some (-1664) ∧
    coeff t.mem 5 3 = some 1664 ∧
    coeff t.mem 5 4 = some (-523) ∧
    coeff t.mem 5 5 = some 522 ∧
    coeff t.mem 5 6 = some 766 ∧
    coeff t.mem 5 7 = some 0 := by
  obtain ⟨t, h, c⟩ := run_slot (i := .pred 5 0) (d := 5) (F := List.map barrett)
    (slotState_zero redA redA_fits) rfl (by simp)
  exact ⟨t, h, (c 0 (by decide)).trans (by decide +kernel),
    (c 1 (by decide)).trans (by decide +kernel),
    (c 2 (by decide)).trans (by decide +kernel),
    (c 3 (by decide)).trans (by decide +kernel),
    (c 4 (by decide)).trans (by decide +kernel),
    (c 5 (by decide)).trans (by decide +kernel),
    (c 6 (by decide)).trans (by decide +kernel),
    (c 7 (by decide)).trans (by decide +kernel)⟩

def scaleA : Nat → Int := repeating [32767, -32768, 5]
theorem scaleA_fits : ∀ k, k < 256 → -32768 ≤ scaleA k ∧ scaleA k < 32768 := by decide +kernel

theorem test_pscale_tomont : ∃ t, exec (.pscale 5 0 1353) (slotState scaleA scaleA) = .next t ∧
    coeff t.mem 5 0 = some 56 ∧
    coeff t.mem 5 1 = some 988 ∧
    coeff t.mem 5 2 = some 1438 := by
  obtain ⟨t, h, c⟩ := run_slot (i := .pscale 5 0 1353) (d := 5) (F := List.map fun x => montMul x ((1353 : BitVec 12).toNat))
    (slotState_zero scaleA scaleA_fits) rfl (by simp)
  exact ⟨t, h, (c 0 (by decide)).trans (by decide +kernel),
    (c 1 (by decide)).trans (by decide +kernel),
    (c 2 (by decide)).trans (by decide +kernel)⟩

theorem test_pscale_max : ∃ t, exec (.pscale 5 0 4095) (slotState scaleA scaleA) = .next t ∧
    coeff t.mem 5 0 = some 760 ∧
    coeff t.mem 5 1 = some (-383) := by
  obtain ⟨t, h, c⟩ := run_slot (i := .pscale 5 0 4095) (d := 5) (F := List.map fun x => montMul x ((4095 : BitVec 12).toNat))
    (slotState_zero scaleA scaleA_fits) rfl (by simp)
  exact ⟨t, h, (c 0 (by decide)).trans (by decide +kernel),
    (c 1 (by decide)).trans (by decide +kernel)⟩

def canonA : Nat → Int := repeating [-1, 0, 3328, -3328, -32768, 1664, -1664, 32767]
theorem canonA_fits : ∀ k, k < 256 → -32768 ≤ canonA k ∧ canonA k < 32768 := by decide +kernel

theorem test_pcanon : ∃ t, exec (.pcanon 5 0) (slotState canonA canonA) = .next t ∧
    coeff t.mem 5 0 = some 3328 ∧
    coeff t.mem 5 1 = some 0 ∧
    coeff t.mem 5 2 = some 3328 ∧
    coeff t.mem 5 3 = some 1 ∧
    coeff t.mem 5 4 = some (-29439) ∧
    coeff t.mem 5 5 = some 1664 ∧
    coeff t.mem 5 6 = some 1665 ∧
    coeff t.mem 5 7 = some 32767 := by
  obtain ⟨t, h, c⟩ := run_slot (i := .pcanon 5 0) (d := 5) (F := List.map canon)
    (slotState_zero canonA canonA_fits) rfl (by simp)
  exact ⟨t, h, (c 0 (by decide)).trans (by decide +kernel),
    (c 1 (by decide)).trans (by decide +kernel),
    (c 2 (by decide)).trans (by decide +kernel),
    (c 3 (by decide)).trans (by decide +kernel),
    (c 4 (by decide)).trans (by decide +kernel),
    (c 5 (by decide)).trans (by decide +kernel),
    (c 6 (by decide)).trans (by decide +kernel),
    (c 7 (by decide)).trans (by decide +kernel)⟩

def ones : Nat → Int := repeating [1]
theorem ones_fits : ∀ k, k < 256 → -32768 ≤ ones k ∧ ones k < 32768 := by decide +kernel

def least : Nat → Int := repeating [-32768]
theorem least_fits : ∀ k, k < 256 → -32768 ≤ least k ∧ least k < 32768 := by decide +kernel

theorem test_pmul_ones : ∃ t, exec (.pmul 5 0 1) (slotState ones ones) = .next t ∧
    coeff t.mem 5 0 = some (-287) ∧
    coeff t.mem 5 1 = some 338 ∧
    coeff t.mem 5 2 = some 625 ∧
    coeff t.mem 5 3 = some 338 := by
  obtain ⟨t, h, c⟩ := run_slot2 (i := .pmul 5 0 1) (d := 5)
    (F := baseMul 0) (slotState_zero ones ones_fits)
    (slotState_one ones ones_fits) rfl (length_baseMul 128 0 _ _ (by simp) (by simp))
  exact ⟨t, h, (c 0 (by decide)).trans (by decide +kernel),
    (c 1 (by decide)).trans (by decide +kernel),
    (c 2 (by decide)).trans (by decide +kernel),
    (c 3 (by decide)).trans (by decide +kernel)⟩

theorem test_pmul_least : ∃ t, exec (.pmul 5 0 1) (slotState least least) = .next t ∧
    coeff t.mem 5 0 = some 15276 ∧
    coeff t.mem 5 1 = some (-32768) ∧
    coeff t.mem 5 2 = some 17492 ∧
    coeff t.mem 5 3 = some (-32768) := by
  obtain ⟨t, h, c⟩ := run_slot2 (i := .pmul 5 0 1) (d := 5)
    (F := baseMul 0) (slotState_zero least least_fits)
    (slotState_one least least_fits) rfl (length_baseMul 128 0 _ _ (by simp) (by simp))
  exact ⟨t, h, (c 0 (by decide)).trans (by decide +kernel),
    (c 1 (by decide)).trans (by decide +kernel),
    (c 2 (by decide)).trans (by decide +kernel),
    (c 3 (by decide)).trans (by decide +kernel)⟩

/-! ### NTT commands (vectors V-NTT-2, 5, 6, 8, 9) -/

def delta2 (k : Nat) : Int := if k = 2 then 1 else 0
theorem delta2_fits : ∀ k, k < 256 → -32768 ≤ delta2 k ∧ delta2 k < 32768 := by decide +kernel

def top : Nat → Int := repeating [15309]
theorem top_fits : ∀ k, k < 256 → -32768 ≤ top k ∧ top k < 32768 := by decide +kernel

def twoZero : Nat → Int := repeating [2, 0]
theorem twoZero_fits : ∀ k, k < 256 → -32768 ≤ twoZero k ∧ twoZero k < 32768 := by decide +kernel

def oneZero : Nat → Int := repeating [1, 0]
theorem oneZero_fits : ∀ k, k < 256 → -32768 ≤ oneZero k ∧ oneZero k < 32768 := by decide +kernel

theorem test_ntt_delta2 : ∃ t, exec (.ntt 5 0) (slotState delta2 delta2) = .next t ∧
    coeff t.mem 5 0 = some 17 ∧
    coeff t.mem 5 2 = some (-17) ∧
    coeff t.mem 5 254 = some 1175 := by
  obtain ⟨t, h, c⟩ := run_slot (i := .ntt 5 0) (d := 5) (F := forwardNtt)
    (slotState_zero delta2 delta2_fits) rfl (length_forwardNtt (by simp))
  exact ⟨t, h, (c 0 (by decide)).trans (by decide +kernel),
    (c 2 (by decide)).trans (by decide +kernel),
    (c 254 (by decide)).trans (by decide +kernel)⟩

theorem test_ntt_top : ∃ t, exec (.ntt 5 0) (slotState top top) = .next t ∧
    coeff t.mem 5 1 = some 167 ∧
    coeff t.mem 5 2 = some (-1628) := by
  obtain ⟨t, h, c⟩ := run_slot (i := .ntt 5 0) (d := 5) (F := forwardNtt)
    (slotState_zero top top_fits) rfl (length_forwardNtt (by simp))
  exact ⟨t, h, (c 1 (by decide)).trans (by decide +kernel),
    (c 2 (by decide)).trans (by decide +kernel)⟩

theorem test_nttb : ∃ t, exec (.nttb 5 0) (slotState twoZero twoZero) = .next t ∧
    coeff t.mem 5 0 = some 832 ∧
    coeff t.mem 5 1 = some 0 ∧
    coeff t.mem 5 254 = some (-828) := by
  obtain ⟨t, h, c⟩ := run_slot (i := .nttb 5 0) (d := 5) (F := forwardNttB)
    (slotState_zero twoZero twoZero_fits) rfl (length_forwardNttB (by simp))
  exact ⟨t, h, (c 0 (by decide)).trans (by decide +kernel),
    (c 1 (by decide)).trans (by decide +kernel),
    (c 254 (by decide)).trans (by decide +kernel)⟩

theorem test_intt_ones : ∃ t, exec (.intt 5 0) (slotState ones ones) = .next t ∧
    coeff t.mem 5 0 = some 128 ∧
    coeff t.mem 5 1 = some 128 ∧
    coeff t.mem 5 2 = some 0 := by
  obtain ⟨t, h, c⟩ := run_slot (i := .intt 5 0) (d := 5) (F := inverseNtt)
    (slotState_zero ones ones_fits) rfl (length_inverseNtt (by simp))
  exact ⟨t, h, (c 0 (by decide)).trans (by decide +kernel),
    (c 1 (by decide)).trans (by decide +kernel),
    (c 2 (by decide)).trans (by decide +kernel)⟩

theorem test_intt_one_zero : ∃ t, exec (.intt 5 0) (slotState oneZero oneZero) = .next t ∧
    coeff t.mem 5 0 = some 128 ∧
    coeff t.mem 5 1 = some 0 := by
  obtain ⟨t, h, c⟩ := run_slot (i := .intt 5 0) (d := 5) (F := inverseNtt)
    (slotState_zero oneZero oneZero_fits) rfl (length_inverseNtt (by simp))
  exact ⟨t, h, (c 0 (by decide)).trans (by decide +kernel),
    (c 1 (by decide)).trans (by decide +kernel)⟩

/-! ### Codec (vectors of L2.5) -/

def encA : Nat → Int := repeating [0x123, 0x456]
theorem encA_fits : ∀ k, k < 256 → -32768 ≤ encA k ∧ encA k < 32768 := by decide +kernel

def minusOne : Nat → Int := repeating [-1]
theorem minusOne_fits : ∀ k, k < 256 → -32768 ≤ minusOne k ∧ minusOne k < 32768 := by decide +kernel

def twos : Nat → Int := repeating [2]
theorem twos_fits : ∀ k, k < 256 → -32768 ≤ twos k ∧ twos k < 32768 := by decide +kernel

def oneTwo : Nat → Int := repeating [1, 2]
theorem oneTwo_fits : ∀ k, k < 256 → -32768 ≤ oneTwo k ∧ oneTwo k < 32768 := by decide +kernel

theorem test_enc12 : ∃ t, exec (.enc12 0) (slotState encA encA) = .next t ∧
    bbufByte t.mem 0 = some 0x23 ∧
    bbufByte t.mem 1 = some 0x61 ∧
    bbufByte t.mem 2 = some 0x45 := by
  obtain ⟨t, h, c⟩ := run_enc (i := .enc12 0) (n := 12) (slotState_zero encA encA_fits) rfl
  exact ⟨t, h, (c 0 (by decide)).trans (by decide +kernel),
    (c 1 (by decide)).trans (by decide +kernel),
    (c 2 (by decide)).trans (by decide +kernel)⟩

theorem test_enc12_negative : ∃ t, exec (.enc12 0) (slotState minusOne minusOne) = .next t ∧
    bbufByte t.mem 0 = some 0xFF ∧
    bbufByte t.mem 1 = some 0xFF ∧
    bbufByte t.mem 383 = some 0xFF := by
  obtain ⟨t, h, c⟩ := run_enc (i := .enc12 0) (n := 12) (slotState_zero minusOne minusOne_fits) rfl
  exact ⟨t, h, (c 0 (by decide)).trans (by decide +kernel),
    (c 1 (by decide)).trans (by decide +kernel),
    (c 383 (by decide)).trans (by decide +kernel)⟩

theorem test_enc1 : ∃ t, exec (.enc1 0) (slotState ones ones) = .next t ∧
    bbufByte t.mem 0 = some 0xFF ∧
    bbufByte t.mem 31 = some 0xFF := by
  obtain ⟨t, h, c⟩ := run_enc (i := .enc1 0) (n := 1) (slotState_zero ones ones_fits) rfl
  exact ⟨t, h, (c 0 (by decide)).trans (by decide +kernel),
    (c 31 (by decide)).trans (by decide +kernel)⟩

theorem test_enc1_truncates : ∃ t, exec (.enc1 0) (slotState twos twos) = .next t ∧
    bbufByte t.mem 0 = some 0x00 := by
  obtain ⟨t, h, c⟩ := run_enc (i := .enc1 0) (n := 1) (slotState_zero twos twos_fits) rfl
  exact ⟨t, h, (c 0 (by decide)).trans (by decide +kernel)⟩

theorem test_enc4 : ∃ t, exec (.enc4 0) (slotState oneTwo oneTwo) = .next t ∧
    bbufByte t.mem 0 = some 0x21 := by
  obtain ⟨t, h, c⟩ := run_enc (i := .enc4 0) (n := 4) (slotState_zero oneTwo oneTwo_fits) rfl
  exact ⟨t, h, (c 0 (by decide)).trans (by decide +kernel)⟩

/-- By R267: 1 at stream bit 0, 2 at bits 5 to 9. -/
theorem test_enc5 : ∃ t, exec (.enc5 0) (slotState oneTwo oneTwo) = .next t ∧
    bbufByte t.mem 0 = some 0x41 := by
  obtain ⟨t, h, c⟩ := run_enc (i := .enc5 0) (n := 5) (slotState_zero oneTwo oneTwo_fits) rfl
  exact ⟨t, h, (c 0 (by decide)).trans (by decide +kernel)⟩

theorem test_enc10 : ∃ t, exec (.enc10 0) (slotState ones ones) = .next t ∧
    bbufByte t.mem 0 = some 1 ∧
    bbufByte t.mem 1 = some 4 ∧
    bbufByte t.mem 2 = some 0x10 ∧
    bbufByte t.mem 3 = some 0x40 ∧
    bbufByte t.mem 4 = some 0 := by
  obtain ⟨t, h, c⟩ := run_enc (i := .enc10 0) (n := 10) (slotState_zero ones ones_fits) rfl
  exact ⟨t, h, (c 0 (by decide)).trans (by decide +kernel),
    (c 1 (by decide)).trans (by decide +kernel),
    (c 2 (by decide)).trans (by decide +kernel),
    (c 3 (by decide)).trans (by decide +kernel),
    (c 4 (by decide)).trans (by decide +kernel)⟩

/-- The inverse of the vector of DEC.11 (R264). -/
theorem test_enc11 : ∃ t, exec (.enc11 0) (slotState ones ones) = .next t ∧
    bbufByte t.mem 0 = some 1 ∧
    bbufByte t.mem 1 = some 8 := by
  obtain ⟨t, h, c⟩ := run_enc (i := .enc11 0) (n := 11) (slotState_zero ones ones_fits) rfl
  exact ⟨t, h, (c 0 (by decide)).trans (by decide +kernel),
    (c 1 (by decide)).trans (by decide +kernel)⟩

theorem test_dec12 :
    ∃ t, exec (.dec12 5) (bytesState (repeatingBytes [0xAB, 0xCD, 0xEF])) = .next t ∧
    coeff t.mem 5 0 = some 3499 ∧
    coeff t.mem 5 1 = some 3836 := by
  obtain ⟨t, h, c⟩ := run_bbuf (i := .dec12 5) (n := 384) (d := 5) (F := byteDecode 12)
    (bytesState_holds (repeatingBytes [0xAB, 0xCD, 0xEF]) 384 (by decide)) rfl (by simp)
  exact ⟨t, h, (c 0 (by decide)).trans (by decide +kernel),
    (c 1 (by decide)).trans (by decide +kernel)⟩

theorem test_dec12_not_reduced :
    ∃ t, exec (.dec12 5) (bytesState (repeatingBytes [0x01, 0x0D, 0x00])) = .next t ∧
    coeff t.mem 5 0 = some 3329 ∧
    coeff t.mem 5 1 = some 0 := by
  obtain ⟨t, h, c⟩ := run_bbuf (i := .dec12 5) (n := 384) (d := 5) (F := byteDecode 12)
    (bytesState_holds (repeatingBytes [0x01, 0x0D, 0x00]) 384 (by decide)) rfl (by simp)
  exact ⟨t, h, (c 0 (by decide)).trans (by decide +kernel),
    (c 1 (by decide)).trans (by decide +kernel)⟩

theorem test_dec4 :
    ∃ t, exec (.dec4 5) (bytesState (repeatingBytes [0x21, 0x43])) = .next t ∧
    coeff t.mem 5 0 = some 1 ∧
    coeff t.mem 5 1 = some 2 ∧
    coeff t.mem 5 2 = some 3 ∧
    coeff t.mem 5 3 = some 4 := by
  obtain ⟨t, h, c⟩ := run_bbuf (i := .dec4 5) (n := 128) (d := 5) (F := byteDecode 4)
    (bytesState_holds (repeatingBytes [0x21, 0x43]) 128 (by decide)) rfl (by simp)
  exact ⟨t, h, (c 0 (by decide)).trans (by decide +kernel),
    (c 1 (by decide)).trans (by decide +kernel),
    (c 2 (by decide)).trans (by decide +kernel),
    (c 3 (by decide)).trans (by decide +kernel)⟩

theorem test_dec5 :
    ∃ t, exec (.dec5 5) (bytesState (repeatingBytes [0x3F, 0x88, 0x41, 0x8A, 0x39])) = .next t ∧
    coeff t.mem 5 0 = some 31 ∧
    coeff t.mem 5 1 = some 1 ∧
    coeff t.mem 5 2 = some 2 ∧
    coeff t.mem 5 7 = some 7 := by
  obtain ⟨t, h, c⟩ := run_bbuf (i := .dec5 5) (n := 160) (d := 5) (F := byteDecode 5)
    (bytesState_holds (repeatingBytes [0x3F, 0x88, 0x41, 0x8A, 0x39]) 160 (by decide)) rfl (by simp)
  exact ⟨t, h, (c 0 (by decide)).trans (by decide +kernel),
    (c 1 (by decide)).trans (by decide +kernel),
    (c 2 (by decide)).trans (by decide +kernel),
    (c 7 (by decide)).trans (by decide +kernel)⟩

theorem test_dec11 :
    ∃ t, exec (.dec11 5) (bytesState (repeatingBytes [0xFF, 0x07, 0x00, 0x00])) = .next t ∧
    coeff t.mem 5 0 = some 2047 ∧
    coeff t.mem 5 1 = some 0 := by
  obtain ⟨t, h, c⟩ := run_bbuf (i := .dec11 5) (n := 352) (d := 5) (F := byteDecode 11)
    (bytesState_holds (repeatingBytes [0xFF, 0x07, 0x00, 0x00]) 352 (by decide)) rfl (by simp)
  exact ⟨t, h, (c 0 (by decide)).trans (by decide +kernel),
    (c 1 (by decide)).trans (by decide +kernel)⟩

/-- The inverse of the vector of ENC.10 (R264). -/
theorem test_dec10 :
    ∃ t, exec (.dec10 5) (bytesState (repeatingBytes [0x01, 0x04, 0x10, 0x40, 0x00])) = .next t ∧
    coeff t.mem 5 0 = some 1 ∧
    coeff t.mem 5 1 = some 1 ∧
    coeff t.mem 5 2 = some 1 ∧
    coeff t.mem 5 3 = some 1 := by
  obtain ⟨t, h, c⟩ := run_bbuf (i := .dec10 5) (n := 320) (d := 5) (F := byteDecode 10)
    (bytesState_holds (repeatingBytes [0x01, 0x04, 0x10, 0x40, 0x00]) 320 (by decide)) rfl (by simp)
  exact ⟨t, h, (c 0 (by decide)).trans (by decide +kernel),
    (c 1 (by decide)).trans (by decide +kernel),
    (c 2 (by decide)).trans (by decide +kernel),
    (c 3 (by decide)).trans (by decide +kernel)⟩

/-- By R267: bit i of the stream. -/
theorem test_dec1 :
    ∃ t, exec (.dec1 5) (bytesState (repeatingBytes [0x06])) = .next t ∧
    coeff t.mem 5 0 = some 0 ∧
    coeff t.mem 5 1 = some 1 ∧
    coeff t.mem 5 2 = some 1 ∧
    coeff t.mem 5 3 = some 0 := by
  obtain ⟨t, h, c⟩ := run_bbuf (i := .dec1 5) (n := 32) (d := 5) (F := byteDecode 1)
    (bytesState_holds (repeatingBytes [0x06]) 32 (by decide)) rfl (by simp)
  exact ⟨t, h, (c 0 (by decide)).trans (by decide +kernel),
    (c 1 (by decide)).trans (by decide +kernel),
    (c 2 (by decide)).trans (by decide +kernel),
    (c 3 (by decide)).trans (by decide +kernel)⟩

/-! ### Samplers (vectors of L2.4) -/

theorem test_cbd2 :
    ∃ t, exec (.cbd2 5) (bytesState (repeatingBytes [0x1B])) = .next t ∧
    coeff t.mem 5 0 = some 1 ∧
    coeff t.mem 5 1 = some 1 ∧
    coeff t.mem 5 255 = some 1 := by
  obtain ⟨t, h, c⟩ := run_bbuf (i := .cbd2 5) (n := 128) (d := 5) (F := cbdSample 2)
    (bytesState_holds (repeatingBytes [0x1B]) 128 (by decide)) rfl (by simp)
  exact ⟨t, h, (c 0 (by decide)).trans (by decide +kernel),
    (c 1 (by decide)).trans (by decide +kernel),
    (c 255 (by decide)).trans (by decide +kernel)⟩

theorem test_cbd2_first :
    ∃ t, exec (.cbd2 5) (bytesState (repeatingBytes [0x03])) = .next t ∧
    coeff t.mem 5 0 = some 2 ∧
    coeff t.mem 5 1 = some 0 := by
  obtain ⟨t, h, c⟩ := run_bbuf (i := .cbd2 5) (n := 128) (d := 5) (F := cbdSample 2)
    (bytesState_holds (repeatingBytes [0x03]) 128 (by decide)) rfl (by simp)
  exact ⟨t, h, (c 0 (by decide)).trans (by decide +kernel),
    (c 1 (by decide)).trans (by decide +kernel)⟩

theorem test_cbd3 :
    ∃ t, exec (.cbd3 5) (bytesState (repeatingBytes [0xC7, 0x71, 0x1C])) = .next t ∧
    coeff t.mem 5 0 = some 3 ∧
    coeff t.mem 5 1 = some 3 ∧
    coeff t.mem 5 255 = some 3 := by
  obtain ⟨t, h, c⟩ := run_bbuf (i := .cbd3 5) (n := 192) (d := 5) (F := cbdSample 3)
    (bytesState_holds (repeatingBytes [0xC7, 0x71, 0x1C]) 192 (by decide)) rfl (by simp)
  exact ⟨t, h, (c 0 (by decide)).trans (by decide +kernel),
    (c 1 (by decide)).trans (by decide +kernel),
    (c 255 (by decide)).trans (by decide +kernel)⟩

theorem test_cbd3_last :
    ∃ t, exec (.cbd3 5) (bytesState (repeatingBytes [0x38, 0x00, 0x00])) = .next t ∧
    coeff t.mem 5 0 = some (-3) ∧
    coeff t.mem 5 1 = some 0 := by
  obtain ⟨t, h, c⟩ := run_bbuf (i := .cbd3 5) (n := 192) (d := 5) (F := cbdSample 3)
    (bytesState_holds (repeatingBytes [0x38, 0x00, 0x00]) 192 (by decide)) rfl (by simp)
  exact ⟨t, h, (c 0 (by decide)).trans (by decide +kernel),
    (c 1 (by decide)).trans (by decide +kernel)⟩

theorem test_candidates :
    candidates 0x12 0x34 0x56 = (1042, 1379) ∧ candidates 0x01 0x0D 0x00 = (3329, 0) ∧
    candidates 0xFF 0xFF 0xFF = (4095, 4095) := by decide

/-- A running REJ for slot 5 with the given progress and FIFO. -/
def rejState (buf : List Half) (fifo : List Byte) : State :=
  { State.reset with engine := .exec (encode (.rej 5)), rejBuf := buf, fifo := fifo }

/-- (0x00, 0x0D, 0x00) gives 3328 and 0, both accepted; one byte stays. -/
theorem test_rej_triple : nextOf (step (rejState [7] [0x00, 0x0D, 0x00, 0xAA])) =
    some { rejState [7, 3328, 0] [0xAA] with rejUsed := 3 } := by decide +kernel

/-- With 255 accepted, d2 = 4 of (03, 40, 00) is discarded. -/
theorem test_rej_last : nextOf (step (rejState (List.replicate 255 2) [0x03, 0x40, 0x00])) =
    some { rejState (List.replicate 255 2 ++ [3]) [] with rejUsed := 3 } := by decide +kernel

/-! ### Scalar commands (vectors of L2.1) -/

def scalarState (sa : Word) (sb : BitVec 16) : State := { State.reset with sa := sa, sb := sb }

/-- SR after a command, if it answers a next state. -/
def srAfter (i : Instr) (s : State) : Option (BitVec 16) := (nextOf (exec i s)).map State.sr

theorem test_smul : srAfter .smul (scalarState 0x000003E8 0xFD0A) = some 1249 := by decide +kernel
theorem test_smul_extreme : srAfter .smul (scalarState 0x00008000 0x8000) = some 0x4000 := by
  decide +kernel
theorem test_smred : srAfter .smred (scalarState 0x12345678 0) = some 3848 := by decide +kernel
theorem test_smred_wraps : srAfter .smred (scalarState 0x7FFF0001 0) = some 0x80A8 := by
  decide +kernel
theorem test_sbar : srAfter .sbar (scalarState 0xABCD0FFF 0) = some 766 := by decide +kernel
theorem test_sbar_least : srAfter .sbar (scalarState 0x00008000 0) = some 522 := by decide +kernel
theorem test_shw : srAfter .shw (scalarState 0x55555555 0) = some 16 := by decide +kernel
theorem test_shw_all : srAfter .shw (scalarState 0xFFFFFFFF 0) = some 32 := by decide +kernel

/-! ### The engine (R95, R151, R305, R306, R320, R325) -/

/-- R151: NOP with CMD_COUNT = 5 leaves CMD_COUNT = 6; DONE is set. -/
theorem test_nop : nextOf (step ({ State.reset with cmdCount := 5 }.withFetchWord 32 0)) =
    some { State.reset with cmdCount := 6, irq := ⟨true, false, false⟩ } := by decide +kernel

/-- L2.6: 0xFFFFFFFF records ILLEGAL_OP with ERR_CAUSE 0x1F01 and sets ERR and DONE. -/
theorem test_illegal_op : nextOf (step (State.reset.withFetchWord 32 0xFFFFFFFF)) =
    some { State.reset with
      irq := ⟨true, true, false⟩, errCause := ⟨.illegalOp, 0x1F, false⟩, errInfo := 0xFFFFFFFF } := by
  decide +kernel

/-- L2.6: NTT s5, s0 with P_SLOTS = 4 is BAD_SLOT. -/
theorem test_bad_slot :
    nextOf (step ({ State.reset with params := fourSlots }.withFetchWord 32 0x00000501)) =
    some { State.reset with
      params := fourSlots
      irq := ⟨true, true, false⟩, errCause := ⟨.badSlot, 1, false⟩, errInfo := 0x00000501 } := by
  decide +kernel

/-! ### The host bus (10_state.md, 20_memory.md; vectors of L2.6) -/

/-- One access on a state. -/
def access (a : HostAccess) (s : State) : Option State := nextOf (step (s.offering a))

/-- While REJ waits: the block is busy. -/
def busyState : State := { State.reset with engine := .xwait (encode (.rej 5)) }

theorem test_read_id : access (.read 0x000) State.reset =
    some { State.reset with rdata := 0x4B010810 } := by decide +kernel
theorem test_read_xof_cap : access (.read 0x02C) State.reset =
    some { State.reset with rdata := 504 } := by decide +kernel
/-- R26: BUSY, XWAIT and EXEC are bits 0, 2 and 4. -/
theorem test_read_status : access (.read 0x008) busyState =
    some { busyState with rdata := 0x00000015 } := by decide +kernel
/-- R37: writing SB = 0xFFFF0005 stores 5. -/
theorem test_write_sb : access (.write 0x034 0xF 0xFFFF0005) State.reset =
    some { State.reset with sb := 5 } := by decide +kernel
/-- R38: SR reads sign-extended. -/
theorem test_read_sr : access (.read 0x038) { State.reset with sr := 0xFF57 } =
    some { State.reset with sr := 0xFF57, rdata := 0xFFFFFF57 } := by decide +kernel
theorem test_locked_read : access (.read 0x030) { busyState with sa := 9 } =
    some { busyState with
      sa := 9, irq := ⟨false, true, false⟩, errCause := ⟨.hostBusyAccess, 0, false⟩
      errInfo := 0x30 } := by decide +kernel
theorem test_locked_write : access (.write 0x1004 0xF 1) busyState =
    some { busyState with
      irq := ⟨false, true, false⟩, errCause := ⟨.hostBusyAccess, 0, false⟩, errInfo := 0x1004 } := by
  decide +kernel
theorem test_unmapped_slot : access (.read 0x2000) { State.reset with params := fourSlots, rdata := 1 } =
    some { State.reset with params := fourSlots } := by decide +kernel
/-- R66: coefficient 0 in the low half, low byte first. -/
theorem test_write_slot : access (.write 0x1006 0 0xFFFE0102) State.reset =
    some { State.reset with mem := [(0x1004, 0x02), (0x1005, 0x01), (0x1006, 0xFE), (0x1007, 0xFF)] } := by
  decide +kernel
theorem test_read_bbuf : access (.read 0x400)
      { State.reset with mem := [(0x400, 1), (0x401, 2), (0x402, 3), (0x403, 4)] } =
    some { State.reset with
      mem := [(0x400, 1), (0x401, 2), (0x402, 3), (0x403, 4)], rdata := 0x04030201 } := by
  decide +kernel
/-- R221: low byte first. -/
theorem test_xof_data : access (.write 0x020 0xF 0x01FFF000) State.reset =
    some { State.reset with fifo := [0x00, 0xF0, 0xFF, 0x01] } := by decide +kernel
theorem test_xof_overflow :
    access (.write 0x020 0xF 0) { State.reset with params.fifoBytes := 168, fifo := List.replicate 165 0 } =
    some { State.reset with
      params.fifoBytes := 168, fifo := List.replicate 165 0, irq := ⟨false, true, false⟩
      errCause := ⟨.xofOverflow, 0, false⟩, errInfo := 0x20 } := by decide +kernel
theorem test_cmd_appends : access (.write 0x018 0xF 0x101) State.reset =
    some { State.reset with cmdq := [0x101] } := by decide +kernel
theorem test_cmd_full :
    access (.write 0x018 0xF 0x101) { State.reset with cmdq := List.replicate 8 0 } =
    some { State.reset with
      irq := ⟨true, true, false⟩, errCause := ⟨.cmdqOverflow, 0, false⟩, errInfo := 0x18 } := by
  decide +kernel
/-- An instance after the error of test_illegal_op. -/
def errorState : State :=
  { State.reset with
    irq := ⟨true, true, false⟩, errCause := ⟨.illegalOp, 0x1F, false⟩, errInfo := 0xFFFFFFFF }
/-- ERR_CAUSE of the word 0xFFFFFFFF, and of a read of SA while busy after which MULTI was set. -/
theorem test_read_err_cause : access (.read 0x010) errorState =
    some { errorState with rdata := 0x00001F01 } := by decide +kernel
theorem test_read_err_cause_host :
    access (.read 0x010) { errorState with errCause := ⟨.hostBusyAccess, 0, true⟩ } =
    some { errorState with errCause := ⟨.hostBusyAccess, 0, true⟩, rdata := 0x00010011 } := by
  decide +kernel
theorem test_cmd_while_error : access (.write 0x018 0xF 0x101) errorState =
    some { errorState with errCause := ⟨.illegalOp, 0x1F, true⟩ } := by decide +kernel
theorem test_clear_error : access (.write 0x00C 0xF 2) errorState =
    some { State.reset with irq := ⟨true, false, false⟩ } := by decide +kernel
/-- R25: IE_XOF and XOF_FLUSH in one write. -/
theorem test_ctrl : access (.write 0x004 0xF 0x42) { State.reset with fifo := [1, 2] } =
    some { State.reset with ctrl := ⟨false, false, true⟩ } := by decide +kernel
/-- R25, R343: a soft reset discards the other bits of the write and aborts a waiting REJ. -/
theorem test_soft_reset : access (.write 0x004 0xF 0x71) { busyState with sa := 3 } =
    some State.reset := by decide +kernel

/-! ### The statements' hypotheses are met -/

/-- The engine IDLE with one word queued, on an instance with the given parameters. -/
def queued (p : Params) (w : Word) : State := { State.reset with params := p, cmdq := [w] }

theorem test_hyps_StepRunsDecodedCommand :
    (queued Params.default 0x10).script = [] ∧ (queued Params.default 0x10).engine = .idle ∧
    (queued Params.default 0x10).cmdq = 0x10 :: [] ∧ decode 0x10 = .ok .smul ∧
    { queued Params.default 0x10 with script := [.engine] }.script = .engine :: [] := by
  decide +kernel

/-- Every branch of R97 at a value at its edge. -/
theorem test_hyps_CommandCheckOrder :
    (∀ w, EngineTurn (queued fourSlots w) ∧
      EngineTurn { queued fourSlots w with script := [.engine, .reset] } ∧ (queued fourSlots w).engine = .idle ∧
      (queued fourSlots w).cmdq = w :: []) ∧
    ((0x0F : Word).extractLsb' 0 5).toNat = 0x0F ∧ 0x14 ≤ ((0x14 : Word).extractLsb' 0 5).toNat ∧
    (0x20 : Word) &&& reservedMask 0x00 ≠ 0 ∧ (0x1EA : Word) &&& reservedMask 0x0A ≠ 0 ∧
    (0xCA : Word) &&& reservedMask 0x0A = 0 ∧ 5 < ((0xCA : Word).extractLsb' 5 3).toNat ∧
    (0x4C : Word) &&& reservedMask 0x0C = 0 ∧ 1 < ((0x4C : Word).extractLsb' 5 3).toNat ∧
    (usedSlots 0x01 0x401).any (fun n => decide (fourSlots.slots ≤ n.toNat)) = true ∧
    (usedSlots 0x01 0x301).any (fun n => decide (fourSlots.slots ≤ n.toNat)) = false :=
  ⟨fun _ => ⟨.inl rfl, .inr ⟨[.reset], rfl⟩, rfl, rfl⟩, by decide +kernel⟩

theorem test_hyps_EncodeDecode : decode 0x5A106708 = .ok (.pscale 7 6 1441) := by decide

/-- Of PADD, PSUB and PMUL. -/
theorem test_hyps_slot2 :
    (5 : SlotNo).toNat < (slotState addA addB).params.slots ∧
    (0 : SlotNo).toNat < (slotState addA addB).params.slots ∧
    (1 : SlotNo).toNat < (slotState addA addB).params.slots ∧
    HoldsSlot (slotState addA addB).mem 0 addA ∧ HoldsSlot (slotState addA addB).mem 1 addB :=
  ⟨by decide +kernel, by decide +kernel, by decide +kernel, slotState_zero addB addA_fits,
    slotState_one addA addB_fits⟩

/-- Of PRED, PSCALE, PCANON, NTT, NTTB, INTT and ENC, with the source in the last slot of the instance
that a command may name as D. -/
theorem test_hyps_slot :
    (15 : SlotNo).toNat < (slotState redA redA).params.slots ∧
    (0 : SlotNo).toNat < (slotState redA redA).params.slots ∧
    HoldsSlot (slotState redA redA).mem 0 redA :=
  ⟨by decide +kernel, by decide +kernel, slotState_zero redA redA_fits⟩

def edge : Nat → Int := repeating [1664, -1664]
theorem edge_fits : ∀ k, k < 256 → -32768 ≤ edge k ∧ edge k < 32768 := by decide +kernel
theorem test_hyps_PmulIsBaseCaseProduct :
    (5 : SlotNo).toNat < (slotState edge edge).params.slots ∧
    (0 : SlotNo).toNat < (slotState edge edge).params.slots ∧
    (1 : SlotNo).toNat < (slotState edge edge).params.slots ∧
    HoldsSlot (slotState edge edge).mem 0 edge ∧ HoldsSlot (slotState edge edge).mem 1 edge ∧
    (∀ i, i < 256 → -1664 ≤ edge i ∧ edge i ≤ 1664) :=
  ⟨by decide +kernel, by decide +kernel, by decide +kernel, slotState_zero edge edge_fits,
    slotState_one edge edge_fits, by decide +kernel⟩

def wide : Nat → Int := repeating [15309, -15309]
theorem wide_fits : ∀ k, k < 256 → -32768 ≤ wide k ∧ wide k < 32768 := by decide +kernel
theorem test_hyps_NttIsExact :
    (5 : SlotNo).toNat < (slotState wide wide).params.slots ∧
    (0 : SlotNo).toNat < (slotState wide wide).params.slots ∧
    HoldsSlot (slotState wide wide).mem 0 wide ∧
    (∀ i, i < 256 → -15309 ≤ wide i ∧ wide i ≤ 15309) :=
  ⟨by decide +kernel, by decide +kernel, slotState_zero wide wide_fits, by decide +kernel⟩
theorem test_hyps_InttNttScales128 :
    (5 : SlotNo).toNat < (slotState wide wide).params.slots ∧
    (0 : SlotNo).toNat < (slotState wide wide).params.slots ∧
    HoldsSlot (slotState wide wide).mem 0 wide ∧
    (∀ i, i < 256 → -15309 ≤ wide i ∧ wide i ≤ 15309) := test_hyps_NttIsExact

def small : Nat → Int := repeating [11, -11]
theorem small_fits : ∀ k, k < 256 → -32768 ≤ small k ∧ small k < 32768 := by decide +kernel
theorem test_hyps_NttbEqualsNtt :
    (5 : SlotNo).toNat < (slotState small small).params.slots ∧
    (0 : SlotNo).toNat < (slotState small small).params.slots ∧
    HoldsSlot (slotState small small).mem 0 small ∧
    (∀ i, i < 256 → -11 ≤ small i ∧ small i ≤ 11) :=
  ⟨by decide +kernel, by decide +kernel, slotState_zero small small_fits, by decide +kernel⟩

/-- Of DEC and CBD, for every width and every η: BBUF[0 .. n-1] for every n up to 384. -/
theorem test_hyps_bbuf :
    (15 : SlotNo).toNat < (bytesState (repeatingBytes [1, 2, 3])).params.slots ∧
    ∀ n, n ≤ 384 → HoldsBbuf (bytesState (repeatingBytes [1, 2, 3])).mem n (repeatingBytes [1, 2, 3]) :=
  ⟨by decide +kernel, bytesState_holds _⟩

def bits : Nat → Int := repeating [1, 0]
theorem bits_fits : ∀ k, k < 256 → -32768 ≤ bits k ∧ bits k < 32768 := by decide +kernel
/-- Both clauses; coefficients 0 and 1 fit every width. -/
theorem test_hyps_CodecRoundTrip :
    (0 : SlotNo).toNat < (slotState bits bits).params.slots ∧
    HoldsSlot (slotState bits bits).mem 0 bits ∧
    (∀ i, i < 256 → 0 ≤ bits i ∧ bits i < 2 ^ 1) ∧
    HoldsBbuf (bytesState (repeatingBytes [0xFF])).mem 384 (repeatingBytes [0xFF]) :=
  ⟨by decide +kernel, slotState_zero bits bits_fits, by decide +kernel, bytesState_holds _ 384 (by decide)⟩

theorem test_hyps_RejStarts : (15 : SlotNo).toNat < State.reset.params.slots := by decide +kernel
theorem test_hyps_RejTakesTriple :
    EngineTurn (rejState (List.replicate 255 2) [1, 2, 3]) ∧
    (rejState (List.replicate 255 2) [1, 2, 3]).engine = .exec (encode (.rej 5)) ∧
    decode (encode (.rej 5)) = .ok (.rej 5) ∧
    (rejState (List.replicate 255 2) [1, 2, 3]).rejBuf.length < 256 ∧
    (rejState (List.replicate 255 2) [1, 2, 3]).fifo = 1 :: 2 :: 3 :: [] :=
  ⟨.inl rfl, by decide +kernel⟩
/-- The three clauses. -/
theorem test_hyps_RejWaits :
    EngineTurn (rejState [] [1, 2]) ∧ (rejState [] [1, 2]).engine = .exec (encode (.rej 5)) ∧
    decode (encode (.rej 5)) = .ok (.rej 5) ∧ (rejState [] [1, 2]).rejBuf.length < 256 ∧
    (rejState [] [1, 2]).fifo.length < 3 ∧
    { rejState [] [1, 2] with engine := .xwait (encode (.rej 5)) }.engine =
      .xwait (encode (.rej 5)) ∧
    State.reset.engine = .idle ∧ State.reset.cmdq = [] := ⟨.inl rfl, by decide +kernel⟩
theorem test_hyps_RejCompletes :
    EngineTurn (rejState (List.replicate 256 2) []) ∧
    (rejState (List.replicate 256 2) []).engine = .exec (encode (.rej 5)) ∧
    decode (encode (.rej 5)) = .ok (.rej 5) ∧
    (rejState (List.replicate 256 2) []).rejBuf.length = 256 := ⟨.inl rfl, by decide +kernel⟩

/-- V-REJ-3, 128 triples of zeros give 256 coefficients, with the last three bytes written only after
the REJ has waited: its start and 127 triples are 128 turns of the engine, the next one a stall. -/
def rejQueued : State :=
  { State.reset with
    cmdq := [encode (.rej 15), 0]
    fifo := List.replicate 381 0
    script := .host (.read 0x008) :: List.replicate 129 .engine ++
      [.host (.write 0x00C 0xF 4), .host (.write 0x023 0xF 0)] }

theorem rejQueued_feeds : ∀ e ∈ rejQueued.script, FeedsRej rejQueued.params e := by
  intro e he
  have hs : e = .host (.read 0x008) ∨ e = .engine ∨ e = .host (.write 0x00C 0xF 4) ∨
      e = .host (.write 0x023 0xF 0) := by
    simp only [rejQueued, List.mem_append, List.mem_cons, List.mem_replicate] at he
    tauto
  rcases hs with rfl | rfl | rfl | rfl
  · intro off ho
    obtain rfl : 0x008 = off := Option.some.inj ho
    simp only [LockedOffset, WindowOffset]
    decide
  · trivial
  · intro off ho
    obtain rfl : 0x00C = off := Option.some.inj ho
    exact .inr ⟨rfl, by decide⟩
  · intro off ho
    obtain rfl : 0x020 = off := Option.some.inj ho
    exact .inl rfl

theorem test_hyps_RejWholeRun :
    rejQueued.engine = .idle ∧ rejQueued.cmdq = encode (.rej 15) :: [0] ∧
    (15 : SlotNo).toNat < rejQueued.params.slots ∧
    (∀ e ∈ rejQueued.script, FeedsRej rejQueued.params e) ∧ KeepsRoom rejQueued ∧
    256 ≤ (acceptedOf (rejQueued.fifo ++ pushedBytes rejQueued.params rejQueued.script)).length :=
  ⟨by decide +kernel, by decide +kernel, by decide +kernel, rejQueued_feeds,
    keepsRoom_of_fits (by decide +kernel), by decide +kernel⟩

theorem test_hyps_UnwrittenOperandFaults :
    (Instr.padd 2 1 0).wf State.reset.params = true ∧ 0 ∈ sourceSlots (.padd 2 1 0) ∧
    coeff State.reset.mem 0 255 = none ∧ (Instr.cbd3 2).wf State.reset.params = true ∧
    191 < sourceBytes (.cbd3 2) ∧ bbufByte State.reset.mem 191 = none := by decide +kernel

/-- A command that completes, one that fails its check and one that starts. -/
theorem test_hyps_CommandFrame :
    (nextOf (exec .shw State.reset)).isSome = true ∧ writesSr .nop = false ∧
    (nextOf (exec (.ntt 4 0) { State.reset with params := fourSlots })).isSome = true ∧
    (nextOf (exec (.rej 0) State.reset)).isSome = true := by decide +kernel
theorem test_hyps_PassingCommandsRecordNoError :
    Instr.shw.wf State.reset.params = true ∧ (nextOf (exec .shw State.reset)).isSome = true := by
  decide +kernel
theorem test_hyps_DataIndependentStatus :
    (scalarState 1 2).withoutData = (scalarState 3 4).withoutData ∧
    (nextOf (exec .smul (scalarState 1 2))).isSome = true ∧
    (nextOf (exec .smul (scalarState 3 4))).isSome = true := by decide +kernel

/-- The fault of an answer, if it is one. -/
def faultOf : Result → Option Fault
  | .fault r => some r
  | _ => none

/-- A command and a host read that fault (R341). -/
theorem test_hyps_StepNeverRefuses :
    faultOf (step (State.reset.withFetchWord 32 0x00000101)) = some (.unwrittenSlot 0) ∧
    faultOf (step (State.reset.offering (.read 0x2FFC))) = some (.unwrittenWindow 0x2FFC) := by
  decide +kernel

/-- A REJ waits with two bytes in the FIFO, and a word is queued behind it. -/
def waitingState : State :=
  { State.reset with
    mem := storeWord [] 0x2FFC 7
    engine := .xwait (encode (.rej 15))
    cmdq := [0]
    fifo := [1, 2]
    rejBuf := [3328]
    rejUsed := 3
    irq := ⟨false, false, true⟩ }

theorem test_hyps_StepKeepsInvariant :
    waitingState.Inv ∧ (nextOf (step waitingState)).isSome = true := by
  refine ⟨⟨⟨by decide, by decide, by decide, by decide, by decide, by decide, by decide, by decide⟩,
    by decide +kernel, by decide +kernel, by decide +kernel, by decide +kernel, by decide +kernel,
    by decide +kernel, by decide +kernel, ?_, ?_, by decide +kernel, ?_,
    by decide +kernel, by decide +kernel⟩, by decide +kernel⟩
  · rintro w (h | h)
    · cases h
    · cases h; exact ⟨15, by decide, by decide +kernel⟩
  · intro w _; change 2 < 3; decide
  · intro c hc
    obtain rfl : c = 3328 := by simpa [waitingState] using hc
    decide

theorem test_hyps_StepKeepsWordsWhole :
    WordsWhole waitingState.mem ∧ (nextOf (step waitingState)).isSome = true := by
  refine ⟨fun w k hk => ?_, by decide +kernel⟩
  have h : ∀ off, (readByte waitingState.mem off).isSome = true ↔ 0x2FFC ≤ off ∧ off < 0x3000 := by
    intro off
    change (readByte (writeBytes [] 0x2FFC (wordBytes 7)) off).isSome = true ↔ _
    rw [readByte_writeBytes]
    by_cases hc : 0x2FFC ≤ off ∧ off < 0x2FFC + (wordBytes 7).length
    · rw [if_pos hc, List.getElem?_eq_getElem (by omega)]
      exact ⟨fun _ => hc, fun _ => rfl⟩
    · rw [if_neg hc]
      exact ⟨fun hn => absurd hn (by simp [readByte]), fun hp => absurd hp hc⟩
  rw [h, h]
  omega

theorem test_hyps_HardResetRule :
    { busyState with script := [.reset] }.script = .reset :: [] := by decide
theorem test_hyps_SoftResetRule : 3 < 4 ∧ (0x71 : Word).getLsbD 0 = true := by decide
theorem test_hyps_CtrlWriteRule : 3 < 4 ∧ (0x72 : Word).getLsbD 0 = false := by decide

/-- The three branches: ERR = 1, a full queue, and neither. -/
theorem test_hyps_CmdWriteRule :
    3 < 4 ∧ errorState.irq.err = true ∧
    { State.reset with cmdq := List.replicate 8 0 }.cmdq.length = State.reset.params.queueDepth ∧
    State.reset.irq.err = false ∧ State.reset.cmdq.length ≠ State.reset.params.queueDepth := by
  decide +kernel
/-- Exactly four bytes free, and three. -/
theorem test_hyps_XofDataWriteRule :
    3 < 4 ∧ (List.replicate 500 (0 : Byte)).length + 4 ≤ State.reset.params.fifoBytes ∧
    ¬ (List.replicate 501 (0 : Byte)).length + 4 ≤ State.reset.params.fifoBytes := by decide +kernel
theorem test_hyps_IrqStatusWriteRule : 3 < 4 := by decide

theorem test_hyps_LockedAccessWhileBusy :
    busyState.params.slots ≤ 16 ∧ busyState.busy = true ∧
    ∀ off ∈ [0x030, 0x034, 0x038, 0x400, 0x57C, 0x1000, 0x2FFC],
      off % 4 = 0 ∧ LockedOffset busyState.params off := by
  refine ⟨by decide +kernel, by decide +kernel, ?_⟩
  simp only [LockedOffset, WindowOffset]
  decide +kernel
theorem test_hyps_UnmappedOffsets :
    fourSlots.slots ≤ 16 ∧ ∀ off ∈ [0x03C, 0x3FC, 0x580, 0xFFC, 0x1800, 0x3000, 0x3FFC],
      off % 4 = 0 ∧ ((0x03C ≤ off ∧ off < 0x400) ∨ (0x580 ≤ off ∧ off < 0x1000) ∨
        (0x1000 + 0x200 * fourSlots.slots ≤ off ∧ off < 0x4000)) := by decide +kernel
/-- The edges of both windows; a word with its four bytes, and one without. -/
theorem test_hyps_IdleWindowAccess :
    waitingState.params.slots ≤ 16 ∧ State.reset.busy = false ∧
    (∀ off ∈ [0x400, 0x57C, 0x1000, 0x2FFC], off % 4 = 0 ∧ WindowOffset State.reset.params off) ∧
    readByte (storeWord [] 0x2FFC 7) 0x2FFC = some 7 ∧
    readByte (storeWord [] 0x2FFC 7) 0x2FFD = some 0 ∧
    readByte (storeWord [] 0x2FFC 7) 0x2FFE = some 0 ∧
    readByte (storeWord [] 0x2FFC 7) 0x2FFF = some 0 ∧
    readByte State.reset.mem (0x57C + 3) = none := by
  refine ⟨by decide +kernel, by decide +kernel, ?_, by decide +kernel⟩
  simp only [WindowOffset]
  decide +kernel

theorem test_hyps_RegisterReads :
    State.reset.params.Legal ∧ State.reset.cmdq.length ≤ State.reset.params.queueDepth ∧
    State.reset.fifo.length ≤ State.reset.params.fifoBytes ∧ 3 < 4 ∧ State.reset.busy = false :=
  ⟨⟨by decide, by decide, by decide, by decide, by decide, by decide, by decide, by decide⟩,
    by decide +kernel⟩
theorem test_hyps_RegisterWrites : 3 < 4 ∧ State.reset.busy = false := by decide +kernel
/-- An idle block, an address below the block, and an unlocked register of a busy block. -/
theorem test_hyps_ReadsHaveNoEffect :
    State.reset.params.slots ≤ 16 ∧ State.reset.busy = false ∧
    (0 : Nat) < { Params.default with base := 0x4000 }.base ∧
    ¬ LockedOffset busyState.params ((0x008 - busyState.params.base) / 4 * 4) ∧
    (nextOf (step (busyState.offering (.read 0x008)))).isSome = true := by
  refine ⟨by decide +kernel, by decide +kernel, by decide, ?_, by decide +kernel⟩
  simp only [LockedOffset, WindowOffset]
  decide +kernel
theorem test_hyps_MisalignedHostAccess :
    State.reset.params.base % 4 = 0 ∧ 0x57C % 4 = 0 ∧ 3 < 4 := by decide +kernel

/-- The three bits, each cleared by a W1C, and by a soft reset. -/
theorem test_hyps_PendingBitsPersist :
    (nextOf (step ({ State.reset with irq := ⟨true, true, true⟩ }.offering
      (.write 0x00F 0xF 7)))).map (fun t => (t.irq.done, t.irq.err, t.irq.xofNeed)) =
      some (false, false, false) ∧
    (nextOf (step ({ State.reset with irq := ⟨true, true, true⟩ }.offering
      (.write 0x004 0xF 1)))).map (fun t => (t.irq.done, t.irq.err, t.irq.xofNeed)) =
      some (false, false, false) := by decide +kernel

/-- DONE set by a completion, and by a host error that empties the queue of an idle engine; a soft
reset. -/
theorem test_hyps_DoneRule :
    (queued Params.default 0).busy = true ∧
    (nextOf (step (queued Params.default 0))).map State.busy = some false ∧
    (nextOf (step ((queued Params.default 0).offering (.read 0x030)))).map State.busy =
      some false ∧
    blockOffset Params.default 0x007 = some 0x004 ∧ (1 : Word).getLsbD 0 = true := by decide +kernel
/-- A completion in a state with the premise, by a NOP and by a REJ; a failing word, which is none; a
reset. -/
theorem test_hyps_QueueAndCountRule :
    (∀ w, (queued Params.default 0).engine = .exec w → ∃ d, decode w = .ok (.rej d)) ∧
    CompletesNow (queued Params.default 0) ∧
    (nextOf (step (queued Params.default 0))).map State.cmdCount = some 1 ∧
    (∀ w, (rejState (List.replicate 256 2) []).engine = .exec w → ∃ d, decode w = .ok (.rej d)) ∧
    CompletesNow (rejState (List.replicate 256 2) []) ∧
    ¬ CompletesNow (queued Params.default 0x1F) ∧ ¬ ResetsNow (queued Params.default 0x1F) ∧
    (nextOf (step (queued Params.default 0x1F))).isSome = true ∧
    ResetsNow { State.reset with script := [.reset] } := by
  refine ⟨fun w h => ?_, ⟨.inl rfl, .inl ⟨0, [], .nop, by decide⟩⟩, by decide +kernel, fun w h => ?_,
    ⟨.inl rfl, .inr ⟨⟨encode (.rej 5), 5, by decide +kernel⟩, by decide +kernel⟩⟩, ?_, ?_,
    by decide +kernel, .inl ⟨[], rfl⟩⟩
  · cases h
  · cases h; exact ⟨5, by decide⟩
  · rintro ⟨-, ⟨w, rest, i, -, hq, hd, -⟩ | ⟨-, hl⟩⟩
    · cases hq
      rw [show decode 0x1F = .error .illegalOp by decide] at hd
      cases hd
    · cases hl
  · rintro (⟨sc, h⟩ | ⟨addr, lanes, v, sc, h, -⟩) <;> cases h

theorem test_hyps_MontReduceLaw :
    (-2147483648 : Int) ≤ -2147483648 ∧ (2147483647 : Int) < 2147483648 ∧
    (-109084672 : Int) < 109084671 := by decide
theorem test_hyps_MontMulLaw :
    (-32768 : Int) ≤ -32768 ∧ (-32768 : Int) ≤ 32767 ∧ (3329 : Int) ∣ 2285 - 1 * 65536 ∧
    0 < 128 := by decide

end Sys2Proof.Machine
end

section
/-! PROOFS. A host access at an offset, and what a host write and a whole step can answer
(20_memory.md R60 to R63, R70, R71). -/

namespace Sys2Proof.Machine

/-! ### The address map -/

/-- An access to any byte of the word at `off` is one at `off` (R60, R62). -/
theorem blockOffset_base_add (p : Params) {off low : Nat} (ho : off % 4 = 0 ∧ off < 0x4000)
    (hl : low < 4) : blockOffset p (p.base + off + low) = some off := by
  rw [blockOffset, if_pos (by omega), show (p.base + off + low - p.base) / 4 * 4 = off by omega]

theorem mem_registerMap_of_lookup {off : Nat} {port : Port}
    (h : registerMap.lookup off = some port) : (off, port) ∈ registerMap := by
  obtain ⟨l₁, l₂, h, -⟩ := List.lookup_eq_some_iff.1 h
  simp [h]

/-- The offset of a register tells which one it is, and the other way round (R61). -/
theorem portAt_eq_iff {p : Params} {off off₀ : Nat} {port : Port} (hm : (off₀, port) ∈ registerMap) :
    portAt p off = port ↔ off = off₀ := by
  have hlookup : ∀ x ∈ registerMap, registerMap.lookup x.1 = some x.2 := by decide
  have hinj : ∀ x ∈ registerMap, ∀ y ∈ registerMap, x.2 = y.2 → x.1 = y.1 := by decide
  have hreg : ∀ x ∈ registerMap, x.2 ≠ .storage ∧ x.2 ≠ .unmapped := by decide
  constructor
  · intro h
    rw [portAt] at h
    split at h
    · rename_i port' hl
      exact hinj _ (mem_registerMap_of_lookup hl) _ hm h
    · obtain ⟨hs, hu⟩ := hreg _ hm
      split at h
      · exact absurd h.symm hs
      · exact absurd h.symm hu
  · rintro rfl
    rw [portAt, hlookup _ hm]

/-- Storage stands in the windows only (R61). -/
theorem inWindow_of_portAt {p : Params} {off : Nat} (h : portAt p off = .storage) :
    inWindow p off = true := by
  rw [portAt] at h
  split at h
  · rename_i port hl
    have hreg : ∀ x ∈ registerMap, x.2 ≠ .storage := by decide
    exact absurd h (hreg _ (mem_registerMap_of_lookup hl))
  · by_contra hw
    rw [if_neg hw] at h
    cases h

/-! ### One access -/

theorem step_offering (a : HostAccess) (s : State) : step (s.offering a) = hostAccess a s := rfl

theorem step_offering_read {s : State} {off low : Nat} (ho : off % 4 = 0 ∧ off < 0x4000)
    (hl : low < 4) : step (s.offering (.read (s.params.base + off + low))) = hostRead off s := by
  rw [step_offering, hostAccess, blockOffset_base_add _ ho hl]

theorem step_offering_write {s : State} {off low : Nat} (lanes : BitVec 4) (v : Word)
    (ho : off % 4 = 0 ∧ off < 0x4000) (hl : low < 4) :
    step (s.offering (.write (s.params.base + off + low) lanes v)) = .next (hostWrite off v s) := by
  rw [step_offering, hostAccess, blockOffset_base_add _ ho hl]

theorem step_of_hostWrite {s : State} {addr off : Nat} {lanes : BitVec 4} {v : Word}
    {sc : List Event} (hs : s.script = .host (.write addr lanes v) :: sc)
    (ho : blockOffset s.params addr = some off) :
    step s = .next (hostWrite off v { s with script := sc }) := by
  rw [step, hs]
  simp only [hostAccess, ho]

/-- Everything a host write at an offset of the block can leave (R62 to R66, R70). -/
inductive HostWriteAfter (off : Nat) (v : Word) (s : State) : State → Prop where
  /-- A locked resource while busy (R70). -/
  | locked (hl : (portAt s.params off).locked = true) (hb : s.busy = true) :
      HostWriteAfter off v s (hostError .hostBusyAccess off s)
  | ctrl (ho : off = 0x004) : HostWriteAfter off v s (writeCtrl v s)
  | irqStatus (ho : off = 0x00C) : HostWriteAfter off v s (writeIrqStatus v s)
  | cmd (ho : off = 0x018) : HostWriteAfter off v s (writeCmd v s)
  | xofData (ho : off = 0x020) : HostWriteAfter off v s (writeXofData v s)
  | sa (ho : off = 0x030) (hb : s.busy = false) : HostWriteAfter off v s { s with sa := v }
  | sb (ho : off = 0x034) (hb : s.busy = false) :
      HostWriteAfter off v s { s with sb := v.extractLsb' 0 16 }
  | storage (hw : inWindow s.params off = true) (hb : s.busy = false) :
      HostWriteAfter off v s { s with mem := storeWord s.mem off v }
  /-- A read-only or unmapped offset (R63, R64). -/
  | ignored : HostWriteAfter off v s s

theorem hostWrite_after (off : Nat) (v : Word) (s : State) :
    HostWriteAfter off v s (hostWrite off v s) := by
  rw [hostWrite]
  split
  · rename_i hb
    obtain ⟨hl, hb⟩ := Bool.and_eq_true_iff.1 hb
    exact .locked hl hb
  · rename_i hn
    have idle : (portAt s.params off).locked = true → s.busy = false := fun hl => by
      simpa [hl] using hn
    split <;> rename_i hp
    · exact .ctrl ((portAt_eq_iff (by decide)).1 hp)
    · exact .irqStatus ((portAt_eq_iff (by decide)).1 hp)
    · exact .cmd ((portAt_eq_iff (by decide)).1 hp)
    · exact .xofData ((portAt_eq_iff (by decide)).1 hp)
    · exact .sa ((portAt_eq_iff (by decide)).1 hp) (idle (by rw [hp]; rfl))
    · exact .sb ((portAt_eq_iff (by decide)).1 hp) (idle (by rw [hp]; rfl))
    · exact .storage (inWindow_of_portAt hp) (idle (by rw [hp]; rfl))
    all_goals exact .ignored

/-- Everything a step can answer as a next state (R71). -/
inductive StepAfter (s t : State) : Prop where
  | engine (hT : EngineTurn s) (h : EngineAfter { s with script := s.script.drop 1 } t)
  | read (addr off : Nat) (sc : List Event) (hs : s.script = .host (.read addr) :: sc)
      (ho : blockOffset s.params addr = some off)
      (hr : hostRead off { s with script := sc } = .next t)
  | write (addr off : Nat) (lanes : BitVec 4) (v : Word) (sc : List Event)
      (hs : s.script = .host (.write addr lanes v) :: sc)
      (ho : blockOffset s.params addr = some off)
      (hw : HostWriteAfter off v { s with script := sc } t)
  /-- A host access outside the block (R60). -/
  | outside (a : HostAccess) (sc : List Event) (hs : s.script = .host a :: sc)
      (ht : t = { s with script := sc })
  | reset (sc : List Event) (hs : s.script = .reset :: sc)
      (ht : t = hardReset { s with script := sc })

theorem step_next {s t : State} (h : step s = .next t) : StepAfter s t := by
  match hs : s.script with
  | [] =>
    have hT : EngineTurn s := .inl hs
    exact .engine hT (engineStep_next (step_of_engineTurn hT ▸ h))
  | .engine :: sc =>
    have hT : EngineTurn s := .inr ⟨sc, hs⟩
    exact .engine hT (engineStep_next (step_of_engineTurn hT ▸ h))
  | .host (.read addr) :: sc =>
    rw [step, hs] at h
    simp only [hostAccess] at h
    split at h
    · rename_i off ho; exact .read addr off sc hs ho h
    · cases h; exact .outside _ sc hs rfl
  | .host (.write addr lanes v) :: sc =>
    rw [step, hs] at h
    simp only [hostAccess] at h
    split at h
    · rename_i off ho; cases h; exact .write addr off lanes v sc hs ho (hostWrite_after off v _)
    · cases h; exact .outside _ sc hs rfl
  | .reset :: sc =>
    rw [step, hs] at h
    cases h
    exact .reset sc hs rfl

end Sys2Proof.Machine
end

section
/-! PROOFS. What the registers hold and take (10_state.md R24 to R38, R45). -/

namespace Sys2Proof.Machine

/-! ### Register words by their fields -/

/-- A word put together from two parts is a sum. -/
theorem toNat_append_eq_add {m n : Nat} (x : BitVec m) (y : BitVec n) :
    (x ++ y).toNat = x.toNat * 2 ^ n + y.toNat := by
  rw [BitVec.toNat_append, ← Nat.shiftLeft_add_eq_or_of_lt y.isLt, Nat.shiftLeft_eq]

@[simp] theorem toNat_bit (b : Bool) : (bit b).toNat = b.toNat := by cases b <;> rfl

theorem bne_idle (e : Engine) : (e != .idle) = decide (e ≠ .idle) := by
  rw [Bool.eq_iff_iff, bne_iff_ne, decide_eq_true_iff]

/-- `busy`, as R42 words it. -/
theorem busy_eq (s : State) : s.busy = decide (s.engine ≠ .idle ∨ s.cmdq ≠ []) := by
  rw [Bool.eq_iff_iff]
  simp [State.busy]

/-- ID (R24). -/
theorem idWord_eq {p : Params} (h : p.Legal) :
    idWord p = BitVec.ofNat 32 (p.slots + 0x100 * p.queueDepth + 0x4B010000) := by
  have hs := h.slots_le
  have hd := h.depth_le
  apply BitVec.eq_of_toNat_eq
  simp only [idWord, toNat_append_eq_add, BitVec.toNat_ofNat, BitVec.reduceToNat]
  omega

/-- CTRL as read (R25). -/
theorem ctrlWord_eq (c : Ctrl) :
    c.word = BitVec.ofNat 32 (0x10 * c.ieDone.toNat + 0x20 * c.ieErr.toNat + 0x40 * c.ieXof.toNat) := by
  obtain ⟨d, e, x⟩ := c
  cases d <;> cases e <;> cases x <;> rfl

/-- STATUS (R26). -/
theorem statusWord_eq {s : State} (hp : s.params.queueDepth ≤ 255)
    (hq : s.cmdq.length ≤ s.params.queueDepth) :
    s.statusWord = BitVec.ofNat 32 (s.busy.toNat + 2 * s.irq.err.toNat + 4 * s.xwait.toNat +
      8 * (decide (s.cmdq.length = s.params.queueDepth)).toNat +
      0x10 * (decide (s.engine ≠ .idle)).toNat + 0x100 * s.cmdq.length) := by
  have hbit : ∀ b : Bool, b.toNat ≤ 1 := Bool.toNat_le
  have h1 := hbit s.busy
  have h2 := hbit s.irq.err
  have h3 := hbit s.xwait
  have h4 := hbit (decide (s.cmdq.length = s.params.queueDepth))
  have h5 := hbit (decide (s.engine ≠ .idle))
  apply BitVec.eq_of_toNat_eq
  simp only [State.statusWord, bne_idle, toNat_append_eq_add, BitVec.toNat_ofNat, BitVec.reduceToNat,
    toNat_bit]
  omega

/-- IRQ_STATUS as read (R27). -/
theorem irqWord_eq (i : IrqStatus) :
    i.word = BitVec.ofNat 32 (i.done.toNat + 2 * i.err.toNat + 4 * i.xofNeed.toNat) := by
  obtain ⟨d, e, x⟩ := i
  cases d <;> cases e <;> cases x <;> rfl

/-- ERR_CAUSE as read (R28). -/
theorem errCauseWord_eq (c : ErrCause) :
    c.word = BitVec.ofNat 32 ((errorNumber c.code).toNat + 0x100 * c.op.toNat +
      0x10000 * c.multi.toNat) := by
  have hc := (errorNumber c.code).isLt
  have ho := c.op.isLt
  have hm := Bool.toNat_le c.multi
  apply BitVec.eq_of_toNat_eq
  simp only [ErrCause.word, toNat_append_eq_add, BitVec.toNat_ofNat, BitVec.reduceToNat,
    toNat_bit]
  omega

/-- A 16-bit number in the low half of a word (R31, R45). -/
theorem zero_append_ofNat {n : Nat} (h : n < 65536) :
    (0 : BitVec 16) ++ BitVec.ofNat 16 n = BitVec.ofNat 32 n := by
  apply BitVec.eq_of_toNat_eq
  simp only [toNat_append_eq_add, BitVec.toNat_ofNat, BitVec.reduceToNat]
  omega

/-! ### Reads -/

/-- A host read that the block answers with the word of the number `n`. -/
theorem read_eq_of_answer {s : State} {off low n : Nat} {w : Word} (hl : low < 4)
    (ho : off % 4 = 0 ∧ off < 0x4000) (hr : hostRead off s = answer w s) (hw : w = BitVec.ofNat 32 n) :
    step (s.offering (.read (s.params.base + off + low))) =
      .next { s with rdata := BitVec.ofNat 32 n } := by
  rw [step_offering_read ho hl, hr, hw, answer]

/-- SA, SB and SR are read while the block is idle (R36 to R38, R70). -/
theorem hostRead_scalar {s : State} (hb : s.busy = false) :
    hostRead 0x030 s = answer s.sa s ∧ hostRead 0x034 s = answer (s.sb.setWidth 32) s ∧
      hostRead 0x038 s = answer (s.sr.signExtend 32) s := by
  simp only [hostRead, hb, Bool.and_false, Bool.false_eq_true, if_false]
  exact ⟨rfl, rfl, rfl⟩

/-- Settles O51: each register's word is computed from its fields. -/
theorem registerReads : Obligations.RegisterReads := by
  intro s low hp hq hf hl
  have hfifo := hp.fifo_le
  refine ⟨?_, fun hb => ?_⟩
  · simp only [List.forall_mem_cons]
    refine ⟨?_, ?_, ?_, ?_, ?_, ?_, ?_, ?_, ?_, ?_, ?_, ?_, by simp⟩
    · exact read_eq_of_answer hl (by decide) rfl (idWord_eq hp)
    · exact read_eq_of_answer hl (by decide) rfl (ctrlWord_eq s.ctrl)
    · refine read_eq_of_answer hl (by decide) rfl ((statusWord_eq hp.depth_le hq).trans ?_)
      rw [busy_eq, State.xwait]
      cases s.engine <;> rfl
    · exact read_eq_of_answer hl (by decide) rfl (irqWord_eq s.irq)
    · refine read_eq_of_answer hl (by decide) rfl ((errCauseWord_eq s.errCause).trans ?_)
      cases s.errCause.code <;> rfl
    · exact read_eq_of_answer hl (by decide) rfl (by simp)
    · exact read_eq_of_answer hl (by decide) rfl rfl
    · exact read_eq_of_answer hl (by decide) rfl (by simp)
    · exact read_eq_of_answer hl (by decide) rfl rfl
    · exact read_eq_of_answer hl (by decide) rfl (zero_append_ofNat (by omega))
    · exact read_eq_of_answer hl (by decide) rfl (by simp)
    · exact read_eq_of_answer hl (by decide) rfl (zero_append_ofNat (by omega))
  · obtain ⟨hsa, hsb, hsr⟩ := hostRead_scalar hb
    refine ⟨?_, ?_, ?_⟩
    · rw [step_offering_read (by decide) hl, hsa, answer]
    · exact read_eq_of_answer hl (by decide) hsb (BitVec.ofNat_toNat 32 s.sb).symm
    · rw [step_offering_read (by decide) hl, hsr, answer, BitVec.signExtend]

/-! ### Writes -/

/-- The read-only registers ignore a write (R63). -/
theorem hostWrite_readOnly {off : Nat} (v : Word) (s : State)
    (h : off ∈ [0x000, 0x008, 0x010, 0x014, 0x01C, 0x024, 0x028, 0x02C]) :
    hostWrite off v s = s := by
  simp only [List.mem_cons, List.not_mem_nil, or_false] at h
  rcases h with rfl | rfl | rfl | rfl | rfl | rfl | rfl | rfl <;> rfl

/-- SA and SB are written while the block is idle, and SR is not (R36 to R38). -/
theorem hostWrite_scalar {s : State} (v : Word) (hb : s.busy = false) :
    hostWrite 0x030 v s = { s with sa := v } ∧
      hostWrite 0x034 v s = { s with sb := v.extractLsb' 0 16 } ∧ hostWrite 0x038 v s = s := by
  simp only [hostWrite, hb, Bool.and_false, Bool.false_eq_true, if_false]
  exact ⟨rfl, rfl, rfl⟩

/-- Settles O52, by what stands at each offset. -/
theorem registerWrites : Obligations.RegisterWrites := by
  intro s low lanes v hl
  refine ⟨fun off ho => ?_, fun hb => ?_⟩
  · have hin : ∀ x ∈ [0x000, 0x008, 0x010, 0x014, 0x01C, 0x024, 0x028, 0x02C],
        x % 4 = 0 ∧ x < 0x4000 := by decide
    rw [step_offering_write lanes v (hin off ho) hl, hostWrite_readOnly v s ho]
  · obtain ⟨hsa, hsb, hsr⟩ := hostWrite_scalar v hb
    refine ⟨?_, ?_, ?_⟩
    · rw [step_offering_write lanes v (by decide) hl, hsa]
    · rw [step_offering_write lanes v (by decide) hl, hsb, BitVec.ofNat_toNat,
        BitVec.setWidth_eq_extractLsb' (by decide)]
    · rw [step_offering_write lanes v (by decide) hl, hsr]

@[simp] theorem hostWrite_ctrl (v : Word) (s : State) : hostWrite 0x004 v s = writeCtrl v s := rfl

@[simp] theorem hostWrite_irqStatus (v : Word) (s : State) :
    hostWrite 0x00C v s = writeIrqStatus v s := rfl

/-- Settles O44: without SOFT_RESET the write sets the enables and may flush the FIFO, and the line
is the OR of R46 over the enables written. -/
theorem ctrlWriteRule : Obligations.CtrlWriteRule := by
  intro s lanes v low hl h0
  refine ⟨_, ?_, rfl, rfl⟩
  rw [step_offering_write lanes v (by decide) hl, hostWrite_ctrl, writeCtrl, h0]
  rfl

/-- An IRQ_STATUS write, whole (R27, R308). -/
theorem writeIrqStatus_eq (v : Word) (s : State) :
    writeIrqStatus v s = { s with
      irq := {
        done := s.irq.done && !v.getLsbD 0
        err := s.irq.err && !v.getLsbD 1
        xofNeed := s.irq.xofNeed && !v.getLsbD 2 }
      errCause := if v.getLsbD 1 && s.irq.err then { code := .none, op := 0, multi := false }
        else s.errCause
      errInfo := if v.getLsbD 1 && s.irq.err then 0 else s.errInfo } := by
  rw [writeIrqStatus]
  cases v.getLsbD 1 with
  | false => simp
  | true => cases he : s.irq.err <;> simp [clearError, he]

/-- Settles O47, by the whole state after the write. -/
theorem irqStatusWriteRule : Obligations.IrqStatusWriteRule := by
  intro s lanes v low hl
  rw [step_offering_write lanes v (by decide) hl, hostWrite_irqStatus, writeIrqStatus_eq]

end Sys2Proof.Machine
end

section
/-! PROOFS. The state after a hardware reset (10_state.md R47). -/

namespace Sys2Proof.Machine

theorem legal_default : Params.default.Legal := by
  constructor <;> decide

/-- Settles O39. The storage, the queue, the FIFO and rej_buf are empty, the engine is IDLE, and no
error is recorded. -/
theorem resetMeetsInvariant : Obligations.ResetMeetsInvariant where
  legal := legal_default
  memWf := rfl
  memMapped := fun _ h => nomatch h
  queueBound := Nat.zero_le _
  fifoBound := Nat.zero_le _
  errorEmptiesQueue := fun _ => rfl
  noErrorRecorded := fun _ => ⟨rfl, rfl⟩
  errorRecorded := fun h => nomatch h
  runningRej := fun _ h => h.elim (nomatch ·) (nomatch ·)
  waiting := fun _ h => nomatch h
  rejBound := Nat.zero_le _
  rejRange := fun _ h => nomatch h
  rejTriples := rfl
  rejYield := Nat.zero_le _

/-- Settles O41. No cell is listed, and the register words are those of zero fields. -/
theorem resetState : Obligations.ResetState :=
  ⟨fun _ _ => rfl, fun _ => rfl, by decide⟩

end Sys2Proof.Machine
end

section
/-! PROOFS. The engine takes and runs the word at the head of the queue (10_state.md R43,
30_encoding.md R95). -/

namespace Sys2Proof.Machine

/-- The engine's turn when the head of the queue decodes (R95). -/
theorem step_runs_head {s : State} {w : Word} {rest : List Word} {i : Instr} (hT : EngineTurn s)
    (he : s.engine = .idle) (hq : s.cmdq = w :: rest) (hi : decode w = .ok i) :
    step s = exec i { s with script := s.script.drop 1, engine := .exec w, cmdq := rest } := by
  rw [step_of_engineTurn hT, engineStep, he, hq]
  simp only [runWord, hi, takeWord]

/-- Settles O1: each clause is the engine's turn with a head that decodes. -/
theorem stepRunsDecodedCommand : Obligations.StepRunsDecodedCommand := by
  refine ⟨fun s w rest i hs he hq hi => ?_, fun s sc w rest i hs he hq hi => ?_, fun s w i hi => ?_⟩
  · rw [step_runs_head (.inl hs) he hq hi, hs]
    rfl
  · rw [step_runs_head (.inr ⟨sc, hs⟩) he hq hi, hs]
    rfl
  · have hw : s.withFetchWord 32 w.toNat = placeWord w s := by
      rw [State.withFetchWord, Nat.mod_eq_of_lt w.isLt, BitVec.ofNat_toNat, BitVec.setWidth_eq]
    rw [hw, step_runs_head (.inr ⟨s.script, rfl⟩) rfl rfl hi]
    rfl

end Sys2Proof.Machine
end

section
/-! PROOFS. The command queue and CMD_COUNT over a step (10_state.md R43, 30_encoding.md R94, R95,
60_exceptions.md R305, R325). -/

namespace Sys2Proof.Machine

@[simp] theorem finish_cmdCount (s : State) : (finish s).cmdCount = s.cmdCount + 1 := by
  rw [finish_eq]

@[simp] theorem failCommand_cmdq (code : ErrorCode) (w : Word) (s : State) :
    (failCommand code w s).cmdq = [] := by rw [failCommand_eq]

@[simp] theorem hostError_cmdq (code : ErrorCode) (off : Nat) (s : State) :
    (hostError code off s).cmdq = [] := by rw [hostError_eq]

/-! ### The queue -/

/-- A command leaves the queue alone, or empties it in failing its check (R306). -/
theorem CommandAfter.cmdq {i : Instr} {s t : State} (h : CommandAfter i s t) :
    t.cmdq = s.cmdq ∨ t.cmdq = [] := by
  cases h with
  | failed hw ht => right; rw [ht, failCommand_cmdq]
  | completed m r hw hm ht => left; rw [ht, finish_cmdq]
  | started d hw hi ht => left; rw [ht]

theorem rejStep_cmdq (w : Word) (s : State) : (rejStep w s).cmdq = s.cmdq := by
  rcases rejStep_cases w s with ⟨-, h⟩ | ⟨-, b0, b1, b2, rest, -, h⟩ | ⟨-, -, h⟩ <;> rw [h]
  · exact rejComplete_cmdq _ s
  · exact rejTriple_cmdq b0 b1 b2 rest s
  · exact rejWait_cmdq w s

/-- The engine takes the head of the queue, or an error of the word taken empties it (R95, R306). -/
theorem EngineAfter.cmdq {s t : State} (h : EngineAfter s t) :
    t.cmdq = s.cmdq ∨ t.cmdq = s.cmdq.drop 1 ∨ t.cmdq = [] := by
  cases h with
  | nothing he hq ht => left; rw [ht]
  | command w rest i he hq hi hx =>
    right
    rw [hq]
    exact (exec_next hx).cmdq
  | undecoded w rest e he hq hi ht => right; right; rw [ht, failCommand_cmdq]
  | running w he ht => left; rw [ht, rejStep_cmdq]
  | waiting w he ht => left; rw [ht, wake_cmdq]

/-- A host write leaves the queue alone, empties it, or appends a word (R94, R305, R343). -/
theorem HostWriteAfter.cmdq {off : Nat} {v : Word} {s t : State} (h : HostWriteAfter off v s t) :
    t.cmdq = s.cmdq ∨ t.cmdq = [] ∨ t.cmdq = s.cmdq ++ [v] := by
  cases h with
  | locked hl hb => exact .inr (.inl (hostError_cmdq ..))
  | ctrl ho =>
    rw [writeCtrl]; split
    · exact .inr (.inl rfl)
    · exact .inl rfl
  | irqStatus ho => rw [writeIrqStatus_eq]; exact .inl rfl
  | cmd ho =>
    rw [writeCmd]; split
    · exact .inl rfl
    · split
      · exact .inr (.inl (hostError_cmdq ..))
      · exact .inr (.inr rfl)
  | xofData ho =>
    rw [writeXofData]; split
    · exact .inl (wake_cmdq _)
    · exact .inr (.inl (hostError_cmdq ..))
  | sa ho hb => exact .inl rfl
  | sb ho hb => exact .inl rfl
  | storage hw hb => exact .inl rfl
  | ignored => exact .inl rfl

/-- The queue loses its head, is emptied or grows at its end (R43, R94, R95, R305). -/
theorem StepAfter.cmdq {s t : State} (h : StepAfter s t) :
    t.cmdq = s.cmdq ∨ t.cmdq = s.cmdq.drop 1 ∨ t.cmdq = [] ∨ ∃ w, t.cmdq = s.cmdq ++ [w] := by
  cases h with
  | engine hT h =>
    rcases h.cmdq with h | h | h
    · exact .inl h
    · exact .inr (.inl h)
    · exact .inr (.inr (.inl h))
  | read addr off sc hs ho hr =>
    rcases hostRead_next hr with ⟨v, rfl⟩ | ⟨-, -, rfl⟩
    · exact .inl rfl
    · exact .inr (.inr (.inl (hostError_cmdq ..)))
  | write addr off lanes v sc hs ho hw =>
    rcases hw.cmdq with h | h | h
    · exact .inl h
    · exact .inr (.inr (.inl h))
    · exact .inr (.inr (.inr ⟨v, h⟩))
  | outside a sc hs ht => left; rw [ht]
  | reset sc hs ht => right; right; left; rw [ht]; rfl

/-! ### CMD_COUNT -/

/-- A command counts if it is no REJ and passes its check (R325). -/
theorem exec_cmdCount_of_completes {i : Instr} {s t : State} (h : exec i s = .next t)
    (hw : i.wf s.params = true) (hr : ∀ d, i ≠ .rej d) : t.cmdCount = s.cmdCount + 1 := by
  cases exec_next h with
  | failed hn ht => rw [hw] at hn; cases hn
  | completed m r hw hm ht => rw [ht, finish_cmdCount]
  | started d hw hi ht => exact absurd hi (hr d)

/-- A REJ that starts and a command that fails its check do not count (R225, R306). -/
theorem exec_cmdCount_of_not_completes {i : Instr} {s t : State} (h : exec i s = .next t)
    (hn : ¬ (i.wf s.params = true ∧ ∀ d, i ≠ .rej d)) :
    t.cmdCount = s.cmdCount := by
  by_cases hr : ∃ d, i = .rej d
  · obtain ⟨d, rfl⟩ := hr
    rcases execRej_next h with ⟨-, ht⟩ | ⟨-, ht⟩ <;> rw [ht]
    exact failCommand_cmdCount ..
  · rw [not_exists] at hr
    have hw : i.wf s.params = false := by
      cases hw : i.wf s.params with
      | false => rfl
      | true => exact absurd ⟨hw, hr⟩ hn
    cases exec_next h with
    | failed hw ht => rw [ht, failCommand_cmdCount]
    | completed m r hw' hm ht => rw [hw] at hw'; cases hw'
    | started d hw' hi ht => exact absurd hi (hr d)

theorem rejStep_cmdCount_of_full {w : Word} {s : State} (h : s.rejBuf.length = 256) :
    (rejStep w s).cmdCount = s.cmdCount + 1 := by
  rw [rejStep, if_pos h, rejComplete_eq]

theorem rejStep_cmdCount_of_not_full {w : Word} {s : State} (h : s.rejBuf.length ≠ 256) :
    (rejStep w s).cmdCount = s.cmdCount := by
  rcases rejStep_cases w s with ⟨hf, -⟩ | ⟨-, b0, b1, b2, rest, -, h⟩ | ⟨-, -, h⟩
  · exact absurd hf h
  · rw [h, rejTriple_cmdCount]
  · rw [h, rejWait_cmdCount]

/-- Of the host's writes only a soft reset changes CMD_COUNT (R32, R343). -/
theorem HostWriteAfter.cmdCount {off : Nat} {v : Word} {s t : State} (h : HostWriteAfter off v s t)
    (hn : ¬ (off = 0x004 ∧ v.getLsbD 0 = true)) : t.cmdCount = s.cmdCount := by
  cases h with
  | locked hl hb => exact hostError_cmdCount ..
  | ctrl ho => rw [writeCtrl, if_neg fun h0 => hn ⟨ho, h0⟩]
  | irqStatus ho => rw [writeIrqStatus_eq]
  | cmd ho =>
    rw [writeCmd]; split
    · rfl
    · split
      · exact hostError_cmdCount ..
      · rfl
  | xofData ho =>
    rw [writeXofData]; split
    · exact wake_cmdCount _
    · exact hostError_cmdCount ..
  | sa ho hb => rfl
  | sb ho hb => rfl
  | storage hw hb => rfl
  | ignored => rfl

/-- A reset is the reset input's or a soft reset (R340, R343). -/
theorem step_of_resetsNow {s : State} (h : ResetsNow s) :
    ∃ sc, step s = .next (hardReset { s with script := sc }) ∨
      step s = .next (softReset { s with script := sc }) := by
  rcases h with ⟨sc, hs⟩ | ⟨addr, lanes, v, sc, hs, ho, h0⟩
  · exact ⟨sc, .inl (by rw [step, hs])⟩
  · exact ⟨sc, .inr (by rw [step_of_hostWrite hs ho, hostWrite_ctrl, writeCtrl, if_pos h0])⟩

/-- Either reset clears CMD_COUNT (R340, R343). -/
theorem cmdCount_of_resetsNow {s t : State} (hr : ResetsNow s) (h : step s = .next t) :
    t.cmdCount = 0 := by
  obtain ⟨sc, hs | hs⟩ := step_of_resetsNow hr <;>
  · rw [hs] at h
    cases h
    rfl

/-- A completion counts (R325). -/
theorem cmdCount_of_completesNow {s t : State} (hc : CompletesNow s) (h : step s = .next t) :
    t.cmdCount = s.cmdCount + 1 := by
  obtain ⟨hT, ⟨w, rest, i, he, hq, hi, hw, hr⟩ | ⟨⟨w, d, he, -⟩, hl⟩⟩ := hc
  · rw [step_runs_head hT he hq hi] at h
    exact (exec_cmdCount_of_completes h hw hr).trans rfl
  · rw [step_of_engineTurn hT, engineStep, he] at h
    cases h
    exact rejStep_cmdCount_of_full hl

/-- A turn of the engine that completes no command does not count (R325). -/
theorem cmdCount_of_engine {s t : State}
    (hrej : ∀ w, s.engine = .exec w → ∃ d, decode w = .ok (.rej d)) (hT : EngineTurn s)
    (hc : ¬ CompletesNow s) (h : EngineAfter { s with script := s.script.drop 1 } t) :
    t.cmdCount = s.cmdCount := by
  cases h with
  | nothing he hq ht => rw [ht]
  | command w rest i he hq hi hx =>
    refine (exec_cmdCount_of_not_completes hx fun ⟨hw, hr⟩ => hc ?_).trans (takeWord_cmdCount ..)
    exact ⟨hT, .inl ⟨w, rest, i, he, hq, hi, hw, hr⟩⟩
  | undecoded w rest e he hq hi ht => rw [ht, failCommand_cmdCount, takeWord_cmdCount]
  | running w he ht =>
    obtain ⟨d, hd⟩ := hrej w he
    rw [ht]
    exact rejStep_cmdCount_of_not_full fun hl => hc ⟨hT, .inr ⟨⟨w, d, he, hd⟩, hl⟩⟩
  | waiting w he ht => rw [ht, wake_cmdCount]

/-- Every other step leaves CMD_COUNT (R32, R325). -/
theorem cmdCount_of_other {s t : State}
    (hrej : ∀ w, s.engine = .exec w → ∃ d, decode w = .ok (.rej d)) (hr : ¬ ResetsNow s)
    (hc : ¬ CompletesNow s) (h : StepAfter s t) : t.cmdCount = s.cmdCount := by
  cases h with
  | engine hT h => exact cmdCount_of_engine hrej hT hc h
  | read addr off sc hs ho h =>
    rcases hostRead_next h with ⟨v, rfl⟩ | ⟨-, -, rfl⟩
    · rfl
    · exact hostError_cmdCount ..
  | write addr off lanes v sc hs ho hw =>
    refine hw.cmdCount fun ⟨h4, h0⟩ => hr (.inr ⟨addr, lanes, v, sc, hs, ?_, h0⟩)
    rw [ho, h4]
  | outside a sc hs ht => rw [ht]
  | reset sc hs ht => exact absurd (.inl ⟨sc, hs⟩) hr

/-- Settles O57, by what a step can do to the queue and to CMD_COUNT. -/
theorem queueAndCountRule : Obligations.QueueAndCountRule := fun _ _ hrej h =>
  ⟨(step_next h).cmdq, fun hr => cmdCount_of_resetsNow hr h,
    fun hc => cmdCount_of_completesNow hc h,
    fun hr hc => cmdCount_of_other hrej hr hc (step_next h)⟩

end Sys2Proof.Machine
end

section
/-! PROOFS. The address map by offset: the windows, the locked resources, the unmapped offsets
(20_memory.md R61, R64, R70). -/

namespace Sys2Proof.Machine

theorem inWindow_iff {p : Params} {off : Nat} (hs : p.slots ≤ 16) :
    inWindow p off = true ↔ WindowOffset p off := by
  rw [inWindow, WindowOffset, Bool.or_eq_true, decide_eq_true_iff, decide_eq_true_iff]
  simp only [bbufBase, slotBase]
  omega

/-- No register stands at 0x03C or above (R61). -/
theorem portAt_of_ge {p : Params} {off : Nat} (h : 0x03C ≤ off) :
    portAt p off = if inWindow p off then .storage else .unmapped := by
  have hreg : ∀ x ∈ registerMap, x.1 < 0x03C := by decide
  rw [portAt]
  split
  · rename_i port hl
    exact absurd (hreg _ (mem_registerMap_of_lookup hl)) (Nat.not_lt.2 h)
  · rfl

theorem portAt_eq_storage_iff {p : Params} {off : Nat} (hs : p.slots ≤ 16) :
    portAt p off = .storage ↔ WindowOffset p off := by
  rw [← inWindow_iff hs]
  refine ⟨inWindow_of_portAt, fun hw => ?_⟩
  have hge : 0x03C ≤ off := by
    have := (inWindow_iff hs).1 hw
    rw [WindowOffset] at this
    omega
  rw [portAt_of_ge hge, if_pos hw]

theorem locked_iff (port : Port) :
    port.locked = true ↔ port = .sa ∨ port = .sb ∨ port = .sr ∨ port = .storage := by
  cases port <;> decide

/-- The locked resources, by offset (R70). -/
theorem portAt_locked_iff {p : Params} {off : Nat} (hs : p.slots ≤ 16) :
    (portAt p off).locked = true ↔ LockedOffset p off := by
  rw [locked_iff, portAt_eq_iff (by decide : (0x030, Port.sa) ∈ registerMap),
    portAt_eq_iff (by decide : (0x034, Port.sb) ∈ registerMap),
    portAt_eq_iff (by decide : (0x038, Port.sr) ∈ registerMap), portAt_eq_storage_iff hs,
    LockedOffset]

/-- From 0x03C up, what lies in no window is unmapped (R64). -/
theorem portAt_eq_unmapped {p : Params} {off : Nat} (hs : p.slots ≤ 16) (h : 0x03C ≤ off)
    (hw : ¬ WindowOffset p off) : portAt p off = .unmapped := by
  rw [portAt_of_ge h, if_neg fun hin => hw ((inWindow_iff hs).1 hin)]

theorem WindowOffset.lt {p : Params} {off : Nat} (h : WindowOffset p off) (hs : p.slots ≤ 16) :
    off < 0x4000 := by
  rw [WindowOffset] at h
  omega

theorem LockedOffset.lt {p : Params} {off : Nat} (h : LockedOffset p off) (hs : p.slots ≤ 16) :
    off < 0x4000 := by
  obtain rfl | rfl | rfl | h := h
  · decide
  · decide
  · decide
  · exact h.lt hs

theorem blockOffset_eq_some_iff {p : Params} {addr off : Nat} :
    blockOffset p addr = some off ↔
      (p.base ≤ addr ∧ addr < p.base + 0x4000) ∧ (addr - p.base) / 4 * 4 = off := by
  rw [blockOffset]
  split <;> simp_all

end Sys2Proof.Machine
end

section
/-! PROOFS. Host accesses to locked, unmapped and window offsets (20_memory.md R62 to R70). -/

namespace Sys2Proof.Machine

/-! ### A locked resource while busy -/

/-- A host error leaves the state that R305, R306 and R320 spell out. -/
theorem hostError_eq_afterHostError (code : ErrorCode) (off : Nat) (s : State) :
    hostError code off s = afterHostError code off s := by
  have hdone : (s.busy && s.engine == .idle) = (s.engine == .idle && !s.cmdq.isEmpty) := by
    rw [State.busy, bne]
    cases s.engine == Engine.idle <;> simp
  rw [hostError_eq, afterHostError, hdone]

theorem hostRead_locked {off : Nat} {s : State} (hl : (portAt s.params off).locked = true)
    (hb : s.busy = true) :
    hostRead off s = .next { afterHostError .hostBusyAccess off s with rdata := 0 } := by
  rw [hostRead, if_pos (by rw [hl, hb]; rfl), answer, hostError_eq_afterHostError]

theorem hostWrite_locked {off : Nat} (v : Word) {s : State}
    (hl : (portAt s.params off).locked = true) (hb : s.busy = true) :
    hostWrite off v s = afterHostError .hostBusyAccess off s := by
  rw [hostWrite, if_pos (by rw [hl, hb]; rfl), hostError_eq_afterHostError]

/-- Settles O48: the offset is a locked port, and the access is one of a busy block. -/
theorem lockedAccessWhileBusy : Obligations.LockedAccessWhileBusy := by
  intro s off low lanes v hs hl h4 ho hb
  have hoff : off % 4 = 0 ∧ off < 0x4000 := ⟨h4, ho.lt hs⟩
  have hlock : (portAt s.params off).locked = true := (portAt_locked_iff hs).2 ho
  exact ⟨by rw [step_offering_read hoff hl, hostRead_locked hlock hb],
    by rw [step_offering_write lanes v hoff hl, hostWrite_locked v hlock hb]⟩

/-! ### Unmapped offsets -/

theorem hostRead_unmapped {off : Nat} {s : State} (h : portAt s.params off = .unmapped) :
    hostRead off s = .next { s with rdata := 0 } := by
  simp only [hostRead, h]
  rfl

theorem hostWrite_unmapped {off : Nat} (v : Word) {s : State}
    (h : portAt s.params off = .unmapped) : hostWrite off v s = s := by
  simp only [hostWrite, h]
  rfl

/-- Settles O49: the three ranges lie above the registers and outside the windows. -/
theorem unmappedOffsets : Obligations.UnmappedOffsets := by
  intro s off low lanes v hs hl h4 ho
  have hoff : off % 4 = 0 ∧ off < 0x4000 := by omega
  have hw : ¬ WindowOffset s.params off := by
    rw [WindowOffset]
    omega
  have hport : portAt s.params off = .unmapped := portAt_eq_unmapped hs (by omega) hw
  exact ⟨by rw [step_offering_read hoff hl, hostRead_unmapped hport],
    by rw [step_offering_write lanes v hoff hl, hostWrite_unmapped v hport]⟩

/-! ### A window while idle -/

theorem hostWrite_storage {off : Nat} (v : Word) {s : State}
    (h : portAt s.params off = .storage) (hb : s.busy = false) :
    hostWrite off v s = { s with mem := storeWord s.mem off v } := by
  simp only [hostWrite, h, hb, Bool.and_false, Bool.false_eq_true, if_false]

theorem hostRead_storage_some {off : Nat} {s : State} {w : Word}
    (h : portAt s.params off = .storage) (hb : s.busy = false) (hw : loadWord s.mem off = some w) :
    hostRead off s = .next { s with rdata := w } := by
  simp only [hostRead, h, hb, hw, Bool.and_false, Bool.false_eq_true, if_false, answer]

theorem hostRead_storage_none {off : Nat} {s : State}
    (h : portAt s.params off = .storage) (hb : s.busy = false) (hw : loadWord s.mem off = none) :
    hostRead off s = .fault (.unwrittenWindow off) := by
  simp only [hostRead, h, hb, hw, Bool.and_false, Bool.false_eq_true, if_false]

/-- The bytes of a word just written (R65, R66, R67). -/
theorem readByte_storeWord_inside (m : Memory) (off : Nat) (v : Word) {k : Nat} (hk : k < 4) :
    readByte (storeWord m off v) (off + k) = some (v.extractLsb' (8 * k) 8) := by
  rw [storeWord, readByte_writeBytes_inside m off (wordBytes v) k hk]
  match k, hk with
  | 0, _ | 1, _ | 2, _ | 3, _ => rfl

theorem sameOutside_storeWord (m : Memory) (off : Nat) (v : Word) :
    SameOutside off 4 m (storeWord m off v) :=
  fun k hk => readByte_writeBytes_outside m off (wordBytes v) k hk

theorem loadWord_eq_some {m : Memory} {off : Nat} {b0 b1 b2 b3 : Byte}
    (h0 : readByte m off = some b0) (h1 : readByte m (off + 1) = some b1)
    (h2 : readByte m (off + 2) = some b2) (h3 : readByte m (off + 3) = some b3) :
    loadWord m off = some (b3 ++ b2 ++ b1 ++ b0) := by
  simp only [loadWord, h0, h1, h2, h3, bytesWord]

/-- One byte without a value is enough for the word to have none (R341). -/
theorem loadWord_eq_none {m : Memory} {off k : Nat} (hk : k < 4)
    (h : readByte m (off + k) = none) : loadWord m off = none := by
  rw [loadWord]
  split
  · rename_i h0 h1 h2 h3
    match k, hk with
    | 0, _ => cases h0.symm.trans h
    | 1, _ => cases h1.symm.trans h
    | 2, _ => cases h2.symm.trans h
    | 3, _ => cases h3.symm.trans h
  · rfl

/-- Settles O50: storage stands at the offset, and its word is written whole and read by its bytes. -/
theorem idleWindowAccess : Obligations.IdleWindowAccess := by
  intro s off low hs hl h4 ho hb
  have hoff : off % 4 = 0 ∧ off < 0x4000 := ⟨h4, ho.lt hs⟩
  have hport : portAt s.params off = .storage := (portAt_eq_storage_iff hs).2 ho
  refine ⟨fun lanes v => ⟨storeWord s.mem off v, ?_, ?_, ?_⟩, fun b0 b1 b2 b3 h0 h1 h2 h3 => ?_,
    fun k hk hn => ?_⟩
  · rw [step_offering_write lanes v hoff hl, hostWrite_storage v hport hb]
  · exact fun k hk => readByte_storeWord_inside s.mem off v hk
  · exact sameOutside_storeWord s.mem off v
  · rw [step_offering_read hoff hl,
      hostRead_storage_some hport hb (loadWord_eq_some h0 h1 h2 h3)]
  · rw [step_offering_read hoff hl, hostRead_storage_none hport hb (loadWord_eq_none hk hn)]

/-! ### What an access does not depend on or change -/

/-- Settles O53: only a locked read of a busy block does more than drive a value, and outside the
block there is no access. -/
theorem readsHaveNoEffect : Obligations.ReadsHaveNoEffect := by
  intro s t addr hs hfree h
  rw [step_offering, hostAccess] at h
  split at h
  · rename_i off ho
    obtain ⟨⟨hlo, -⟩, rfl⟩ := blockOffset_eq_some_iff.1 ho
    rcases hostRead_next h with ⟨v, rfl⟩ | ⟨hl, hb, -⟩
    · rfl
    · rcases hfree with hidle | hlt | hunlocked
      · cases hb.symm.trans hidle
      · exact absurd hlo (Nat.not_le.2 hlt)
      · exact absurd ((portAt_locked_iff hs).1 hl) hunlocked
  · cases h
    rfl

/-- The offset of an access does not depend on bits 1:0 of its address (R62). -/
theorem blockOffset_add_low {p : Params} {addr low : Nat} (hp : p.base % 4 = 0)
    (ha : addr % 4 = 0) (hl : low < 4) : blockOffset p (addr + low) = blockOffset p addr := by
  have hin : (p.base ≤ addr + low ∧ addr + low < p.base + 0x4000) ↔
      (p.base ≤ addr ∧ addr < p.base + 0x4000) := by omega
  simp only [blockOffset, hin]
  split
  · rw [show (addr + low - p.base) / 4 * 4 = (addr - p.base) / 4 * 4 by omega]
  · rfl

/-- Settles O54: an access depends on its address by the offset only, and never on the lanes. -/
theorem misalignedHostAccess : Obligations.MisalignedHostAccess := by
  intro s addr low lanes v hp ha hl
  simp only [step_offering, hostAccess, blockOffset_add_low hp ha hl, and_self]

end Sys2Proof.Machine
end

section
/-! PROOFS. Every word of storage is written whole or not at all (20_memory.md R62, R78;
70_reset_and_hazards.md R341). -/

namespace Sys2Proof.Machine

theorem isSome_readByte_writeBytes (m : Memory) (base : Nat) (bs : List Byte) (off : Nat) :
    (readByte (writeBytes m base bs) off).isSome ↔
      (base ≤ off ∧ off < base + bs.length) ∨ (readByte m off).isSome := by
  rw [readByte_writeBytes]
  split
  · rename_i hin
    have hlt : off - base < bs.length := by omega
    simp [hin, hlt]
  · rename_i hout
    simp [hout]

/-- A write of whole words keeps every word whole. -/
theorem WordsWhole.writeBytes {m : Memory} {base : Nat} {bs : List Byte} (h : WordsWhole m)
    (hb : base % 4 = 0) (hl : bs.length % 4 = 0) : WordsWhole (writeBytes m base bs) := by
  intro w k hk
  have hin : (base ≤ 4 * w + k ∧ 4 * w + k < base + bs.length) ↔
      (base ≤ 4 * w ∧ 4 * w < base + bs.length) := by omega
  rw [isSome_readByte_writeBytes, isSome_readByte_writeBytes, hin, h w k hk]

theorem WordsWhole.storeSlot {m : Memory} {f : List Int} (h : WordsWhole m) (d : SlotNo)
    (hf : f.length = 256) : WordsWhole (storeSlot m d f) :=
  h.writeBytes (by rw [slotBase]; omega) (by rw [length_slotBytes, hf])

/-- A command stores whole words (R78). -/
theorem StorageAfter.wordsWhole {s : State} {m : Memory} (h : StorageAfter s m)
    (hw : WordsWhole s.mem) : WordsWhole m := by
  cases h with
  | same => exact hw
  | slot d f hd hf => exact hw.storeSlot d hf
  | bbuf n bs hn hb => exact hw.writeBytes (by decide) (by omega)

theorem CommandAfter.storageAfter {i : Instr} {s t : State} (h : CommandAfter i s t) :
    StorageAfter s t.mem := by
  cases h with
  | failed hw ht => rw [ht, failCommand_mem]; exact .same
  | completed m r hw hm ht => rw [ht, finish_mem]; exact hm
  | started d hw hi ht => rw [ht]; exact .same

theorem wordsWhole_rejStep (w : Word) {s : State} (hw : WordsWhole s.mem) :
    WordsWhole (rejStep w s).mem := by
  rcases rejStep_cases w s with ⟨hl, h⟩ | ⟨-, b0, b1, b2, rest, -, h⟩ | ⟨-, -, h⟩ <;> rw [h]
  · rw [rejComplete_eq]
    exact hw.storeSlot _ (by rw [List.length_map, hl])
  · exact hw
  · exact hw

theorem EngineAfter.wordsWhole {s t : State} (h : EngineAfter s t) (hw : WordsWhole s.mem) :
    WordsWhole t.mem := by
  cases h with
  | nothing he hq ht => rw [ht]; exact hw
  | command w rest i he hq hi hx => exact (exec_next hx).storageAfter.wordsWhole hw
  | undecoded w rest e he hq hi ht => rw [ht, failCommand_mem]; exact hw
  | running w he ht => rw [ht]; exact wordsWhole_rejStep w hw
  | waiting w he ht => rw [ht, wake_mem]; exact hw

/-- Of the host's writes only one to a window changes storage, by the word at its offset (R65, R66). -/
theorem HostWriteAfter.mem {off : Nat} {v : Word} {s t : State} (h : HostWriteAfter off v s t) :
    t.mem = s.mem ∨ t.mem = storeWord s.mem off v := by
  cases h with
  | locked hl hb => exact .inl (hostError_mem ..)
  | ctrl ho => left; rw [writeCtrl]; split <;> rfl
  | irqStatus ho => left; rw [writeIrqStatus_eq]
  | cmd ho =>
    left
    rw [writeCmd]; split
    · rfl
    · split
      · exact hostError_mem ..
      · rfl
  | xofData ho =>
    left
    rw [writeXofData]; split
    · exact wake_mem _
    · exact hostError_mem ..
  | sa ho hb => exact .inl rfl
  | sb ho hb => exact .inl rfl
  | storage hw hb => exact .inr rfl
  | ignored => exact .inl rfl

theorem StepAfter.wordsWhole {s t : State} (h : StepAfter s t) (hw : WordsWhole s.mem) :
    WordsWhole t.mem := by
  cases h with
  | engine hT h => exact h.wordsWhole hw
  | read addr off sc hs ho hr =>
    rcases hostRead_next hr with ⟨v, rfl⟩ | ⟨-, -, rfl⟩
    · exact hw
    · rw [hostError_eq]; exact hw
  | write addr off lanes v sc hs ho h =>
    obtain ⟨-, hoff⟩ := blockOffset_eq_some_iff.1 ho
    rcases h.mem with hm | hm <;> rw [hm]
    · exact hw
    · exact hw.writeBytes (by omega) (by simp [wordBytes])
  | outside a sc hs ht => rw [ht]; exact hw
  | reset sc hs ht => rw [ht]; exact fun _ _ _ => Iff.rfl

/-- Settles O40: no cell is listed after reset, and whatever a step stores it stores in whole words. -/
theorem stepKeepsWordsWhole : Obligations.StepKeepsWordsWhole :=
  ⟨fun _ => rfl, fun _ _ _ => Iff.rfl, fun _ _ hw h => (step_next h).wordsWhole hw⟩

end Sys2Proof.Machine
end

section
/-! PROOFS. The decoder and the encoder are inverse to each other (30_encoding.md R90 to R93, R98, R99,
R103). -/

namespace Sys2Proof

theorem decode_eq_ok_iff {w : Word} {i : Instr} :
    decode w = .ok i ↔ ∃ u, fieldUse (fieldOp w) = some u ∧ unusedZero u w = true ∧
      commandOf (fieldOp w) (fieldP w) (fieldD w) (fieldA w) (fieldB w) (fieldImm w) = some i := by
  rw [decode]
  cases fieldUse (fieldOp w) with
  | none => simp
  | some u =>
    cases hz : unusedZero u w with
    | false => simp [hz]
    | true =>
      cases commandOf (fieldOp w) (fieldP w) (fieldD w) (fieldA w) (fieldB w) (fieldImm w) <;>
        simp [hz]

/-- The opcode of a command's word is legal, and the fields it does not use are zero (R92, R101). -/
theorem reservedZero_encode : ∀ i : Instr, Laws.ReservedZero.Statement i
  | .nop => Laws.ReservedZero.nop
  | .ntt d a => Laws.ReservedZero.ntt d a
  | .nttb d a => Laws.ReservedZero.nttb d a
  | .intt d a => Laws.ReservedZero.intt d a
  | .pmul d a b => Laws.ReservedZero.pmul d a b
  | .padd d a b => Laws.ReservedZero.padd d a b
  | .psub d a b => Laws.ReservedZero.psub d a b
  | .pred d a => Laws.ReservedZero.pred d a
  | .pscale d a imm => Laws.ReservedZero.pscale d a imm
  | .pcanon d a => Laws.ReservedZero.pcanon d a
  | .enc1 a => Laws.ReservedZero.enc1 a
  | .enc4 a => Laws.ReservedZero.enc4 a
  | .enc5 a => Laws.ReservedZero.enc5 a
  | .enc10 a => Laws.ReservedZero.enc10 a
  | .enc11 a => Laws.ReservedZero.enc11 a
  | .enc12 a => Laws.ReservedZero.enc12 a
  | .dec1 d => Laws.ReservedZero.dec1 d
  | .dec4 d => Laws.ReservedZero.dec4 d
  | .dec5 d => Laws.ReservedZero.dec5 d
  | .dec10 d => Laws.ReservedZero.dec10 d
  | .dec11 d => Laws.ReservedZero.dec11 d
  | .dec12 d => Laws.ReservedZero.dec12 d
  | .cbd2 d => Laws.ReservedZero.cbd2 d
  | .cbd3 d => Laws.ReservedZero.cbd3 d
  | .rej d => Laws.ReservedZero.rej d
  | .smul => Laws.ReservedZero.smul
  | .smred => Laws.ReservedZero.smred
  | .sbar => Laws.ReservedZero.sbar
  | .shw => Laws.ReservedZero.shw

/-- The fields of a command's word give the command back (R90, R98). -/
theorem commandOf_encode (i : Instr) :
    commandOf (fieldOp (encode i)) (fieldP (encode i)) (fieldD (encode i)) (fieldA (encode i))
      (fieldB (encode i)) (fieldImm (encode i)) = some i := by
  cases i <;>
    simp only [encode, fieldOp_packWord, fieldP_packWord, fieldD_packWord, fieldA_packWord,
      fieldB_packWord, fieldImm_packWord] <;> rfl

/-- Settles O4: the word passes R97 steps 1 and 2, and its fields are the command's. -/
theorem decodeEncode : Obligations.DecodeEncode := by
  intro i
  obtain ⟨u, hu, hz⟩ := reservedZero_encode i
  exact decode_eq_ok_iff.2 ⟨u, hu, hz, commandOf_encode i⟩

theorem encode_of_encOf {p : BitVec 3} {a : SlotNo} {i : Instr} (h : encOf p a = some i) :
    encode i = packWord 0x0A p 0 a 0 0 := by
  rw [encOf] at h
  split at h
  case h_7 => cases h
  all_goals
    rename_i hp
    obtain ⟨-, rfl⟩ := BitVec.toNat_eq_nat.1 hp
    cases h
    rfl

theorem encode_of_decOf {p : BitVec 3} {d : SlotNo} {i : Instr} (h : decOf p d = some i) :
    encode i = packWord 0x0B p d 0 0 0 := by
  rw [decOf] at h
  split at h
  case h_7 => cases h
  all_goals
    rename_i hp
    obtain ⟨-, rfl⟩ := BitVec.toNat_eq_nat.1 hp
    cases h
    rfl

theorem encode_of_cbdOf {p : BitVec 3} {d : SlotNo} {i : Instr} (h : cbdOf p d = some i) :
    encode i = packWord 0x0C p d 0 0 0 := by
  rw [cbdOf] at h
  split at h
  case h_3 => cases h
  all_goals
    rename_i hp
    obtain ⟨-, rfl⟩ := BitVec.toNat_eq_nat.1 hp
    cases h
    rfl

/-- R97 step 2, field by field. -/
theorem unusedZero_iff {u : FieldUse} {w : Word} :
    unusedZero u w = true ↔
      (u.p = true ∨ fieldP w = 0) ∧ (u.d = true ∨ fieldD w = 0) ∧ (u.a = true ∨ fieldA w = 0) ∧
        (u.b = true ∨ fieldB w = 0) ∧ (u.imm = true ∨ fieldImm w = 0) := by
  simp only [unusedZero, Bool.and_eq_true, Bool.or_eq_true, beq_iff_eq, and_assoc]

/-- A command of fields of which the unused ones are zero has these fields' word (R92, R93, R98). -/
theorem encode_of_commandOf {op : BitVec 5} {p : BitVec 3} {d a b : SlotNo} {imm : BitVec 12}
    {u : FieldUse} {i : Instr} (hu : fieldUse op = some u) (hp : u.p = true ∨ p = 0)
    (hd : u.d = true ∨ d = 0) (ha : u.a = true ∨ a = 0) (hb : u.b = true ∨ b = 0)
    (hi : u.imm = true ∨ imm = 0) (hc : commandOf op p d a b imm = some i) :
    encode i = packWord op p d a b imm := by
  rw [commandOf] at hc
  split at hc
  case h_19 => cases hc
  all_goals
    rename_i hop
    obtain ⟨-, rfl⟩ := BitVec.toNat_eq_nat.1 hop
    cases hu
    simp only [Bool.false_eq_true, false_or, true_or] at hp hd ha hb hi
    subst_vars
  case h_11 => exact encode_of_encOf hc
  case h_12 => exact encode_of_decOf hc
  case h_13 => exact encode_of_cbdOf hc
  all_goals
    cases hc
    rfl

/-- Settles O5: the word is the packing of its fields, and those the opcode does not use are zero. -/
theorem encodeDecode : Obligations.EncodeDecode := by
  intro w i h
  obtain ⟨u, hu, hz, hc⟩ := decode_eq_ok_iff.1 h
  obtain ⟨hp, hd, ha, hb, hi⟩ := unusedZero_iff.1 hz
  rw [encode_of_commandOf hu hp hd ha hb hi hc, packWord_fields]

/-- Settles O3: each word is read, and the command's word is then that word by R99. -/
theorem specWordsDecode : Obligations.SpecWordsDecode := by
  intro x hx
  suffices h : decode x.1 = .ok x.2 from ⟨h, encodeDecode _ _ h⟩
  revert x
  decide

end Sys2Proof
end

section
/-! PROOFS. Every step keeps the invariant (10_state.md R39 to R41, 43_sampler.md R226, R228,
60_exceptions.md R305). An update that changes a few fields is given the clauses about these fields;
the other clauses are those of the state before. -/

namespace Sys2Proof.Machine

/-! ### Storage -/

/-- Every listed cell lies in a window (R61). -/
def Mapped (p : Params) (m : Memory) : Prop := ∀ x ∈ m, WindowOffset p x.1

theorem Mapped.writeBytes {p : Params} {m : Memory} {base : Nat} {bs : List Byte}
    (h : Mapped p m) (hw : ∀ off, base ≤ off → off < base + bs.length → WindowOffset p off) :
    Mapped p (writeBytes m base bs) := by
  intro x hx
  rcases mem_writeBytes hx with hx | ⟨hlo, hhi⟩
  · exact h x hx
  · exact hw x.1 hlo hhi

theorem Mapped.storeSlot {p : Params} {m : Memory} {d : SlotNo} {f : List Int} (h : Mapped p m)
    (hd : d.toNat < p.slots) (hf : f.length = 256) : Mapped p (storeSlot m d f) := by
  refine h.writeBytes fun off hlo hhi => ?_
  rw [length_slotBytes] at hhi
  simp only [slotBase] at hlo hhi
  rw [WindowOffset]
  omega

theorem Mapped.storeBbuf {p : Params} {m : Memory} {bs : List Byte} (h : Mapped p m)
    (hb : bs.length ≤ 384) : Mapped p (storeBbuf m bs) := by
  refine h.writeBytes fun off hlo hhi => ?_
  simp only [bbufBase] at hlo hhi
  rw [WindowOffset]
  omega

/-- A word at an offset that is a multiple of 4 lies in a window whole. -/
theorem Mapped.storeWord {p : Params} {m : Memory} {off : Nat} {v : Word} (h : Mapped p m)
    (ho : off % 4 = 0) (hw : WindowOffset p off) : Mapped p (storeWord m off v) := by
  refine h.writeBytes fun k hlo hhi => ?_
  simp only [wordBytes, List.length_cons, List.length_nil] at hhi
  rw [WindowOffset] at hw ⊢
  omega

theorem StorageAfter.mapped {s : State} {m : Memory} (h : StorageAfter s m)
    (hm : Mapped s.params s.mem) : Mapped s.params m := by
  cases h with
  | same => exact hm
  | slot d f hd hf => exact hm.storeSlot hd hf
  | bbuf n bs hn hb => exact hm.storeBbuf (by omega)

/-! ### Errors and resets -/

/-- Recording an error, be it the first or a further one, empties the queue (R305). -/
theorem State.Inv.recordError {s : State} (h : s.Inv) {code : ErrorCode} (hc : code ≠ .none)
    (op : BitVec 5) (info : Word) (done : Bool) :
    { s with
      cmdq := []
      irq := { s.irq with err := true, done := done }
      errCause := if s.irq.err then { s.errCause with multi := true } else ⟨code, op, false⟩
      errInfo := if s.irq.err then s.errInfo else info }.Inv :=
  { h with
    queueBound := Nat.zero_le _
    errorEmptiesQueue := fun _ => rfl
    noErrorRecorded := nofun
    errorRecorded := fun _ => by
      dsimp only
      split
      · rename_i he; exact h.errorRecorded he
      · exact hc }

theorem State.Inv.hostError {s : State} (h : s.Inv) {code : ErrorCode} (hc : code ≠ .none)
    (off : Nat) : (hostError code off s).Inv := by
  rw [hostError_eq]
  exact h.recordError hc _ _ _

/-- A failing command leaves the engine IDLE, whatever word it had taken (R306). -/
theorem State.Inv.failCommand {s : State} (h : { s with engine := .idle }.Inv) {code : ErrorCode}
    (hc : code ≠ .none) (w : Word) : (failCommand code w s).Inv := by
  rw [failCommand_eq]
  exact h.recordError hc _ _ _

theorem State.Inv.softReset {s : State} (h : s.Inv) : (softReset s).Inv :=
  { resetMeetsInvariant with
    legal := h.legal
    memWf := h.memWf
    memMapped := h.memMapped
    queueBound := Nat.zero_le _
    fifoBound := Nat.zero_le _
    runningRej := fun _ hw => hw.elim nofun nofun }

theorem State.Inv.hardReset {s : State} (h : s.Inv) : (hardReset s).Inv :=
  { resetMeetsInvariant with
    legal := h.legal
    memMapped := nofun
    queueBound := Nat.zero_le _
    fifoBound := Nat.zero_le _
    runningRej := fun _ hw => hw.elim nofun nofun }

/-! ### The engine -/

theorem State.Inv.finish {s : State} (h : { s with engine := .idle }.Inv) : (finish s).Inv := by
  rw [finish_eq]
  exact { h with }

/-- The engine has taken the head of the queue; ERR is 0, or nothing would have been queued. -/
theorem State.Inv.takeWord {s : State} (h : s.Inv) {w : Word} {rest : List Word}
    (hq : s.cmdq = w :: rest) : { takeWord w rest s with engine := .idle }.Inv := by
  have hb := h.queueBound
  rw [hq, List.length_cons] at hb
  exact { h with
    queueBound := Nat.le_of_succ_le hb
    errorEmptiesQueue := fun herr => by cases hq.symm.trans (h.errorEmptiesQueue herr)
    runningRej := fun _ hw => hw.elim nofun nofun
    waiting := nofun }

theorem CommandAfter.inv {i : Instr} {s t : State} (h : CommandAfter i s t)
    (hs : { s with engine := .idle }.Inv) : t.Inv := by
  cases h with
  | failed hw ht => rw [ht]; exact hs.failCommand (by decide) _
  | completed m r hw hm ht =>
    rw [ht]
    exact State.Inv.finish { hs with memWf := hm.wf hs.memWf, memMapped := hm.mapped hs.memMapped }
  | started d hw hi ht =>
    subst hi ht
    have hd : d.toNat < s.params.slots := by simpa [Instr.wf, Instr.slotsUsed] using hw
    exact { hs with
      runningRej := fun w hw => by
        obtain hw | hw := hw
        · cases hw; exact ⟨d, decodeEncode _, hd⟩
        · cases hw
      waiting := nofun
      rejBound := Nat.zero_le _
      rejRange := nofun
      rejTriples := rfl
      rejYield := Nat.zero_le _ }

theorem accept_cases (buf : List Half) (c : Nat) :
    accept buf c = buf ∨
      (c < 3329 ∧ buf.length < 256 ∧ accept buf c = buf ++ [BitVec.ofNat 16 c]) := by
  rw [accept]
  split
  · rename_i h; exact .inr ⟨h.1, h.2, rfl⟩
  · exact .inl rfl

/-- A candidate keeps rej_buf's bound and range, and adds one coefficient at most (R223, R224). -/
theorem accept_keeps {buf : List Half} (hl : buf.length ≤ 256) (hr : ∀ x ∈ buf, x.toNat < 3329)
    (c : Nat) : (accept buf c).length ≤ 256 ∧ (∀ x ∈ accept buf c, x.toNat < 3329) ∧
      (accept buf c).length ≤ buf.length + 1 := by
  rcases accept_cases buf c with h | ⟨hc, hlt, h⟩ <;> rw [h]
  · exact ⟨hl, hr, Nat.le_succ _⟩
  · refine ⟨by simpa using hlt, fun x hx => ?_, by simp⟩
    obtain hx | rfl := by simpa using hx
    · exact hr x hx
    · rw [BitVec.toNat_ofNat]; omega

theorem State.Inv.rejTriple {s : State} (h : s.Inv) {b0 b1 b2 : Byte} {rest : List Byte}
    (hf : s.fifo = b0 :: b1 :: b2 :: rest) : (rejTriple b0 b1 b2 rest s).Inv := by
  have hlen : rest.length + 3 = s.fifo.length := by rw [hf]; rfl
  have hfifo := h.fifoBound
  have htriples := h.rejTriples
  have hyield := h.rejYield
  obtain ⟨hl₁, hr₁, hn₁⟩ := accept_keeps h.rejBound h.rejRange (candidates b0 b1 b2).1
  obtain ⟨hl₂, hr₂, hn₂⟩ := accept_keeps hl₁ hr₁ (candidates b0 b1 b2).2
  exact { h with
    fifoBound := by dsimp only [Machine.rejTriple]; omega
    waiting := fun w hw => by
      have := h.waiting w hw
      omega
    rejBound := hl₂
    rejRange := hr₂
    rejTriples := by dsimp only [Machine.rejTriple]; omega
    rejYield := by dsimp only [Machine.rejTriple]; omega }

/-- Slot D of a running REJ is a legal one, and the slot its completion writes (R90, R97). -/
theorem State.Inv.fieldD_lt {s : State} (h : s.Inv) {w : Word} (he : s.engine = .exec w) :
    (fieldD w).toNat < s.params.slots := by
  obtain ⟨d, hd, hlt⟩ := h.runningRej w (.inl he)
  rw [← encodeDecode w _ hd, encode, fieldD_packWord]
  exact hlt

theorem State.Inv.rejStep {s : State} (h : s.Inv) {w : Word} (he : s.engine = .exec w) :
    (rejStep w s).Inv := by
  rcases rejStep_cases w s with ⟨hl, ht⟩ | ⟨-, b0, b1, b2, rest, hf, ht⟩ | ⟨-, hf, ht⟩ <;> rw [ht]
  · have hmap : Mapped s.params (storeSlot s.mem (fieldD w) (s.rejBuf.map BitVec.toInt)) :=
      Mapped.storeSlot h.memMapped (h.fieldD_lt he) (by rw [List.length_map, hl])
    rw [rejComplete_eq]
    exact { h with
      memWf := wf_storeSlot _ _ h.memWf
      memMapped := hmap
      fifoBound := Nat.zero_le _
      runningRej := fun _ hw => hw.elim nofun nofun
      waiting := nofun }
  · exact h.rejTriple hf
  · exact { h with
      runningRej := fun w' hw => by
        obtain hw | hw := hw
        · cases hw
        · cases hw; exact h.runningRej w (.inl he)
      waiting := fun _ _ => hf }

/-- A stall is lifted, or there is none with three bytes in the FIFO (R226). -/
theorem wake_cases (s : State) :
    (∃ w, s.engine = .xwait w ∧ wake s = { s with engine := .exec w }) ∨
      ((∀ w, s.engine = .xwait w → s.fifo.length < 3) ∧ wake s = s) := by
  rw [wake]
  split
  · rename_i w he
    split
    · exact .inl ⟨w, he, rfl⟩
    · rename_i hf; exact .inr ⟨fun _ _ => Nat.lt_of_not_le hf, rfl⟩
  · rename_i hx; exact .inr ⟨fun w he => absurd he (hx w), rfl⟩

/-- Filling the FIFO keeps the invariant when a stall is lifted with it (R221, R226). -/
theorem State.Inv.wake_fill {s : State} (h : s.Inv) {bs : List Byte}
    (hb : bs.length ≤ s.params.fifoBytes) : (wake { s with fifo := bs }).Inv := by
  rcases wake_cases { s with fifo := bs } with ⟨w, he, ht⟩ | ⟨hw, ht⟩ <;> rw [ht]
  · exact { h with
      fifoBound := hb
      runningRej := fun w' hw => by
        obtain hw | hw := hw
        · cases hw; exact h.runningRej w (.inr he)
        · cases hw
      waiting := nofun }
  · exact { h with fifoBound := hb, waiting := hw }

theorem decodeErrorCode_ne_none (e : DecodeError) : decodeErrorCode e ≠ .none := by
  cases e <;> decide

theorem EngineAfter.inv {s t : State} (h : EngineAfter s t) (hs : s.Inv) : t.Inv := by
  cases h with
  | nothing he hq ht => rw [ht]; exact hs
  | command w rest i he hq hi hx => exact (exec_next hx).inv (hs.takeWord hq)
  | undecoded w rest e he hq hi ht =>
    rw [ht]
    exact (hs.takeWord hq).failCommand (decodeErrorCode_ne_none e) w
  | running w he ht => rw [ht]; exact hs.rejStep he
  | waiting w he ht => rw [ht]; exact hs.wake_fill hs.fifoBound

/-! ### The host -/

theorem State.Inv.writeCtrl {s : State} (h : s.Inv) (v : Word) : (writeCtrl v s).Inv := by
  rw [Machine.writeCtrl]
  split
  · exact h.softReset
  · have hle : (if v.getLsbD 1 then [] else s.fifo).length ≤ s.fifo.length := by
      split
      · exact Nat.zero_le _
      · exact le_refl _
    exact { h with
      fifoBound := hle.trans h.fifoBound
      waiting := fun w hw => hle.trans_lt (h.waiting w hw) }

/-- A W1C of ERR while ERR = 1 clears the registers of the error with it (R308). -/
theorem State.Inv.writeIrqStatus {s : State} (h : s.Inv) (v : Word) :
    (writeIrqStatus v s).Inv := by
  rw [writeIrqStatus_eq]
  cases v.getLsbD 1 with
  | false => exact { h with
      errorEmptiesQueue := by simpa using h.errorEmptiesQueue
      noErrorRecorded := by simpa using h.noErrorRecorded
      errorRecorded := by simpa using h.errorRecorded }
  | true => exact { h with
      errorEmptiesQueue := by simp
      noErrorRecorded := by
        cases he : s.irq.err with
        | false => simpa using h.noErrorRecorded he
        | true => simp
      errorRecorded := by simp }

theorem State.Inv.writeCmd {s : State} (h : s.Inv) (w : Word) : (writeCmd w s).Inv := by
  rw [Machine.writeCmd]
  split
  · rename_i he
    exact { h with
      noErrorRecorded := fun h0 => by cases he.symm.trans h0
      errorRecorded := h.errorRecorded }
  · rename_i he
    split
    · exact h.hostError (by decide) _
    · rename_i hfull
      have hlt := Nat.lt_of_le_of_ne h.queueBound hfull
      exact { h with
        queueBound := by simpa using hlt
        errorEmptiesQueue := fun h1 => absurd h1 he }

theorem State.Inv.writeXofData {s : State} (h : s.Inv) (v : Word) : (writeXofData v s).Inv := by
  rw [Machine.writeXofData]
  split
  · rename_i hroom; exact h.wake_fill (by simpa [wordBytes] using hroom)
  · exact h.hostError (by decide) _

theorem HostWriteAfter.inv {off : Nat} {v : Word} {s t : State} (h : HostWriteAfter off v s t)
    (ho : off % 4 = 0) (hs : s.Inv) : t.Inv := by
  cases h with
  | locked hl hb => exact hs.hostError (by decide) _
  | ctrl ho => exact hs.writeCtrl v
  | irqStatus ho => exact hs.writeIrqStatus v
  | cmd ho => exact hs.writeCmd v
  | xofData ho => exact hs.writeXofData v
  | sa ho hb => exact { hs with }
  | sb ho hb => exact { hs with }
  | storage hw hb =>
    have hmap : Mapped s.params (storeWord s.mem off v) :=
      Mapped.storeWord hs.memMapped ho ((inWindow_iff hs.legal.slots_le).1 hw)
    exact { hs with memWf := wf_storeWord _ _ hs.memWf, memMapped := hmap }
  | ignored => exact hs

/-! ### A step -/

theorem StepAfter.inv {s t : State} (h : StepAfter s t) (hs : s.Inv) : t.Inv := by
  have hsc : ∀ sc, { s with script := sc }.Inv := fun _ => { hs with }
  cases h with
  | engine hT h => exact h.inv (hsc _)
  | read addr off sc _ ho hr =>
    rcases hostRead_next hr with ⟨v, rfl⟩ | ⟨-, -, rfl⟩
    · exact { hs with }
    · exact { (hsc sc).hostError (by decide) off with }
  | write addr off lanes v sc _ ho hw =>
    obtain ⟨-, hoff⟩ := blockOffset_eq_some_iff.1 ho
    exact hw.inv (by omega) (hsc sc)
  | outside a sc _ ht => rw [ht]; exact hsc sc
  | reset sc _ ht => rw [ht]; exact (hsc sc).hardReset

/-- Settles O38: each thing a step can answer keeps the clauses about what it changes. -/
theorem stepKeepsInvariant : Obligations.StepKeepsInvariant := by
  intro s t hs h
  exact ⟨(step_next h).inv hs, (step_keeps h).1⟩

end Sys2Proof.Machine
end

section
/-! PROOFS. The check of the word the engine takes (30_encoding.md R92, R97; 60_exceptions.md R306), and
the CMD write (R94). -/

namespace Sys2Proof

open Machine

/-! ### The tests of R97 on a word -/

/-- The bits of a field in the mask of an opcode: none of them if the opcode uses the field (R92). -/
def reserveField (n : Nat) (used : Bool) : BitVec n := if used then 0 else BitVec.allOnes n

theorem and_reserveField_eq_zero_iff {n : Nat} (x : BitVec n) (used : Bool) :
    x &&& reserveField n used = 0 ↔ used = true ∨ x = 0 := by
  cases used <;> simp [reserveField]

theorem fieldOp_and (v w : Word) : fieldOp (v &&& w) = fieldOp v &&& fieldOp w :=
  BitVec.extractLsb'_and
theorem fieldP_and (v w : Word) : fieldP (v &&& w) = fieldP v &&& fieldP w :=
  BitVec.extractLsb'_and
theorem fieldD_and (v w : Word) : fieldD (v &&& w) = fieldD v &&& fieldD w :=
  BitVec.extractLsb'_and
theorem fieldA_and (v w : Word) : fieldA (v &&& w) = fieldA v &&& fieldA w :=
  BitVec.extractLsb'_and
theorem fieldB_and (v w : Word) : fieldB (v &&& w) = fieldB v &&& fieldB w :=
  BitVec.extractLsb'_and
theorem fieldImm_and (v w : Word) : fieldImm (v &&& w) = fieldImm v &&& fieldImm w :=
  BitVec.extractLsb'_and

/-- A word is 0 if its six fields are. -/
theorem eq_zero_iff_fields {w : Word} :
    w = 0 ↔ fieldOp w = 0 ∧ fieldP w = 0 ∧ fieldD w = 0 ∧ fieldA w = 0 ∧ fieldB w = 0 ∧
      fieldImm w = 0 := by
  constructor
  · rintro rfl
    decide
  · rintro ⟨hop, hp, hd, ha, hb, hi⟩
    rw [← packWord_fields w, hop, hp, hd, ha, hb, hi]
    rfl

/-- The illegal opcodes (R97 step 1). -/
theorem fieldUse_eq_none_iff (op : BitVec 5) :
    fieldUse op = none ↔ op.toNat = 0x0E ∨ op.toNat = 0x0F ∨ 0x14 ≤ op.toNat := by
  revert op
  decide

/-- The mask of a legal opcode covers the fields that it does not use (R92). -/
theorem reservedMask_eq {op : BitVec 5} {u : FieldUse} (hu : fieldUse op = some u) :
    reservedMask op.toNat = packWord (reserveField 5 true) (reserveField 3 u.p)
      (reserveField 4 u.d) (reserveField 4 u.a) (reserveField 4 u.b) (reserveField 12 u.imm) := by
  have h : ∀ op : BitVec 5, ∀ u ∈ fieldUse op, reservedMask op.toNat =
      packWord (reserveField 5 true) (reserveField 3 u.p) (reserveField 4 u.d)
        (reserveField 4 u.a) (reserveField 4 u.b) (reserveField 12 u.imm) := by decide
  exact h op u hu

/-- R97 step 2, by the mask of the reserved bits. -/
theorem and_reservedMask_eq_zero_iff {w : Word} {u : FieldUse} (hu : fieldUse (fieldOp w) = some u) :
    w &&& reservedMask (fieldOp w).toNat = 0 ↔ unusedZero u w = true := by
  rw [eq_zero_iff_fields, unusedZero_iff, reservedMask_eq hu]
  simp only [fieldOp_and, fieldP_and, fieldD_and, fieldA_and, fieldB_and, fieldImm_and,
    fieldOp_packWord, fieldP_packWord, fieldD_packWord, fieldA_packWord, fieldB_packWord,
    fieldImm_packWord, and_reserveField_eq_zero_iff, true_or, true_and]

theorem encOf_eq_none_iff (p : BitVec 3) (a : SlotNo) : encOf p a = none ↔ 5 < p.toNat := by
  revert p a; decide

theorem decOf_eq_none_iff (p : BitVec 3) (d : SlotNo) : decOf p d = none ↔ 5 < p.toNat := by
  revert p d; decide

theorem cbdOf_eq_none_iff (p : BitVec 3) (d : SlotNo) : cbdOf p d = none ↔ 1 < p.toNat := by
  revert p d; decide

/-- R97 step 3: a legal opcode with a reserved P code. -/
theorem commandOf_eq_none_iff {op : BitVec 5} {u : FieldUse} (hu : fieldUse op = some u)
    (p : BitVec 3) (d a b : SlotNo) (imm : BitVec 12) :
    commandOf op p d a b imm = none ↔
      ((op.toNat = 0x0A ∨ op.toNat = 0x0B) ∧ 5 < p.toNat) ∨ (op.toNat = 0x0C ∧ 1 < p.toNat) := by
  rw [commandOf]
  split
  case h_19 =>
    have hlegal : ¬ (op.toNat = 0x0E ∨ op.toNat = 0x0F ∨ 0x14 ≤ op.toNat) := fun h => by
      cases hu.symm.trans ((fieldUse_eq_none_iff op).2 h)
    simp only [imp_false] at *
    omega
  all_goals rename_i hop
  case h_11 => simp [hop, encOf_eq_none_iff]
  case h_12 => simp [hop, decOf_eq_none_iff]
  case h_13 => simp [hop, cbdOf_eq_none_iff]
  all_goals simp [hop]

theorem usedSlots_eq (op : Nat) (w : Word) :
    usedSlots op w = (if reservedMask op &&& 0x00000F00 = 0 then [fieldD w] else []) ++
      (if reservedMask op &&& 0x0000F000 = 0 then [fieldA w] else []) ++
      (if reservedMask op &&& 0x000F0000 = 0 then [fieldB w] else []) := rfl

/-- The slot fields of a command's word that its opcode uses are the command's slots (R92, R98). -/
theorem usedSlots_encode (i : Instr) :
    usedSlots (fieldOp (encode i)).toNat (encode i) = i.slotsUsed := by
  rw [usedSlots_eq]
  cases i <;>
    simp only [encode, fieldOp_packWord, fieldD_packWord, fieldA_packWord, fieldB_packWord] <;> rfl

/-- R97 step 4, by the slot fields of the word. -/
theorem wf_eq_false_iff {w : Word} {i : Instr} (h : decode w = .ok i) (p : Params) :
    i.wf p = false ↔
      (usedSlots (fieldOp w).toNat w).any (fun n => decide (p.slots ≤ n.toNat)) = true := by
  rw [← encodeDecode w i h, usedSlots_encode, Instr.wf]
  simp

/-! ### The decoder's errors -/

theorem decode_of_illegalOp {w : Word} (hu : fieldUse (fieldOp w) = none) :
    decode w = .error .illegalOp := by rw [decode, hu]

theorem decode_of_reservedField {w : Word} {u : FieldUse} (hu : fieldUse (fieldOp w) = some u)
    (hz : unusedZero u w = false) : decode w = .error .reservedField := by
  simp only [decode, hu, hz, Bool.false_eq_true, if_false]

theorem decode_of_badParam {w : Word} {u : FieldUse} (hu : fieldUse (fieldOp w) = some u)
    (hz : unusedZero u w = true)
    (hc : commandOf (fieldOp w) (fieldP w) (fieldD w) (fieldA w) (fieldB w) (fieldImm w) = none) :
    decode w = .error .badParam := by
  simp only [decode, hu, hz, hc, if_true]

end Sys2Proof

namespace Sys2Proof.Machine

/-! ### The check -/

/-- A command that names a slot at or above P_SLOTS does nothing but fail (R97 step 4). -/
theorem exec_of_not_wf {i : Instr} {s : State} (h : i.wf s.params = false) :
    exec i s = .next (failCommand .badSlot (encode i) s) := by
  cases i with
  | nop | smul | smred | sbar | shw => cases h
  | _ => exact checked_of_not_wf h _

/-- The engine's turn with a word queued (R95). -/
theorem step_takes_head {s : State} {w : Word} {rest : List Word} (hT : EngineTurn s)
    (he : s.engine = .idle) (hq : s.cmdq = w :: rest) :
    step s = runWord w (takeWord w rest { s with script := s.script.drop 1 }) := by
  rw [step_of_engineTurn hT, engineStep, he, hq]

/-- A word that fails its check has the effects of R305, R306 and R320. -/
theorem failedFrom_failCommand (code : ErrorCode) (w : Word) (rest : List Word) (s : State) :
    FailedFrom code w s (failCommand code w (takeWord w rest s)) := by
  rw [failCommand_eq]
  rfl

theorem runWord_error {w : Word} {s : State} {e : DecodeError} (h : decode w = .error e) :
    runWord w s = .next (failCommand (decodeErrorCode e) w s) := by rw [runWord, h]

/-- Settles O2: the tests on the word are those of the decoder and of the command's slots. -/
theorem commandCheckOrder : Obligations.CommandCheckOrder := by
  intro s w rest hT he hq u op p
  have hfail : ∀ e, decode w = .error e →
      ∃ t, step s = .next t ∧ FailedFrom (decodeErrorCode e) w u t := fun e hd =>
    ⟨_, (step_takes_head hT he hq).trans (runWord_error hd), failedFrom_failCommand _ w rest u⟩
  cases hu : fieldUse (fieldOp w) with
  | none =>
    have hop : op = 0x0E ∨ op = 0x0F ∨ 0x14 ≤ op := (fieldUse_eq_none_iff _).1 hu
    rw [if_pos hop]
    exact hfail _ (decode_of_illegalOp hu)
  | some fields =>
  have hop : ¬ (op = 0x0E ∨ op = 0x0F ∨ 0x14 ≤ op) := fun h => by
    cases hu.symm.trans ((fieldUse_eq_none_iff _).2 h)
  have hmask : w &&& reservedMask op = 0 ↔ unusedZero fields w = true :=
    and_reservedMask_eq_zero_iff hu
  rw [if_neg hop]
  cases hz : unusedZero fields w with
  | false =>
    rw [if_pos fun h => by cases hz.symm.trans (hmask.1 h)]
    exact hfail _ (decode_of_reservedField hu hz)
  | true =>
  have hparam := commandOf_eq_none_iff hu (fieldP w) (fieldD w) (fieldA w) (fieldB w) (fieldImm w)
  rw [if_neg (not_not.2 (hmask.2 hz))]
  cases hc : commandOf (fieldOp w) (fieldP w) (fieldD w) (fieldA w) (fieldB w) (fieldImm w) with
  | none =>
    have hbad : ((op = 0x0A ∨ op = 0x0B) ∧ 5 < p) ∨ (op = 0x0C ∧ 1 < p) := hparam.1 hc
    rw [if_pos hbad]
    exact hfail _ (decode_of_badParam hu hz hc)
  | some i =>
  have hgood : ¬ (((op = 0x0A ∨ op = 0x0B) ∧ 5 < p) ∨ (op = 0x0C ∧ 1 < p)) := fun h => by
    cases hc.symm.trans (hparam.2 h)
  have hi : decode w = .ok i := decode_eq_ok_iff.2 ⟨fields, hu, hz, hc⟩
  have hslots : i.wf s.params = false ↔
      (usedSlots op w).any (fun n => decide (s.params.slots ≤ n.toNat)) = true :=
    wf_eq_false_iff hi s.params
  rw [if_neg hgood]
  cases hw : i.wf s.params with
  | false =>
    rw [if_pos (hslots.1 hw)]
    refine ⟨_, (step_runs_head hT he hq hi).trans (exec_of_not_wf hw), ?_⟩
    rw [encodeDecode w i hi]
    exact failedFrom_failCommand _ w rest u
  | true =>
    rw [if_neg fun h => by cases hw.symm.trans (hslots.2 h)]
    exact ⟨i, hi, hw, step_runs_head hT he hq hi⟩

/-! ### The CMD write -/

@[simp] theorem hostWrite_cmd (w : Word) (s : State) : hostWrite 0x018 w s = writeCmd w s := rfl

/-- Settles O45: what stands at 0x018 is CMD, and a full queue is a host error. -/
theorem cmdWriteRule : Obligations.CmdWriteRule := by
  intro s lanes w low hl
  rw [step_offering_write lanes w (by decide) hl, hostWrite_cmd, writeCmd,
    hostError_eq_afterHostError]

end Sys2Proof.Machine
end

section
/-! PROOFS. No step refuses, and what a step that faults has read (30_encoding.md R99,
70_reset_and_hazards.md R341). -/

namespace Sys2Proof.Machine

/-! ### Reads of storage without a value -/

theorem exists_none_of_allSome_none {α : Type} {n : Nat} {g : Nat → Option α}
    (h : allSome ((List.range n).map g) = none) : ∃ k, k < n ∧ g k = none := by
  by_contra hall
  obtain ⟨r, hr⟩ := allSome_isSome (l := (List.range n).map g) fun x hx => by
    obtain ⟨k, hk, rfl⟩ := List.mem_map.1 hx
    exact fun hg => hall ⟨k, List.mem_range.1 hk, hg⟩
  cases hr.symm.trans h

theorem loadSlot_eq_none_iff {m : Memory} {n : SlotNo} :
    loadSlot m n = none ↔ ∃ k, k < 256 ∧ coeff m n k = none :=
  ⟨exists_none_of_allSome_none, fun ⟨_, hk, h⟩ => loadSlot_none hk h⟩

theorem loadBbuf_eq_none_iff {m : Memory} {n : Nat} :
    loadBbuf m n = none ↔ ∃ k, k < n ∧ bbufByte m k = none :=
  ⟨exists_none_of_allSome_none, fun ⟨_, hk, h⟩ => loadBbuf_none hk h⟩

/-- A word without a value has a byte without one (R341). -/
theorem exists_of_loadWord_eq_none {m : Memory} {off : Nat} (h : loadWord m off = none) :
    ∃ k, k < 4 ∧ readByte m (off + k) = none := by
  by_contra hall
  have hsome : ∀ k, k < 4 → ∃ b, readByte m (off + k) = some b := fun k hk =>
    Option.ne_none_iff_exists'.1 fun hn => hall ⟨k, hk, hn⟩
  obtain ⟨b0, h0⟩ := hsome 0 (by decide)
  obtain ⟨b1, h1⟩ := hsome 1 (by decide)
  obtain ⟨b2, h2⟩ := hsome 2 (by decide)
  obtain ⟨b3, h3⟩ := hsome 3 (by decide)
  cases (loadWord_eq_some h0 h1 h2 h3).symm.trans h

/-! ### What a command, a turn of the engine and a host read can answer -/

/-- An answer is a next state, or a fault for which `P` gives the reason; it is no refusal. -/
inductive NextOrFault (P : Prop) : Result → Prop where
  | next (t : State) : NextOrFault P (.next t)
  | fault (r : Fault) (h : P) : NextOrFault P (.fault r)

theorem NextOrFault.mono {P Q : Prop} {x : Result} (h : NextOrFault P x) (hPQ : P → Q) :
    NextOrFault Q x := by
  cases h with
  | next t => exact .next t
  | fault r h => exact .fault r (hPQ h)

theorem NextOrFault.of_fault {P : Prop} {r : Fault} {x : Result} (h : NextOrFault P x)
    (hx : x = .fault r) : P := by
  subst hx
  cases h with
  | fault _ h => exact h

theorem NextOrFault.ne_refused {P : Prop} {x : Result} (h : NextOrFault P x) (r : Refusal) :
    x ≠ .refused r := by
  rintro rfl
  cases h

/-- A source slot of the command, or its source bytes of BBUF, lack a value (R341). -/
def LacksOperand (i : Instr) (m : Memory) : Prop :=
  (∃ n ∈ sourceSlots i, ∃ k, k < 256 ∧ coeff m n k = none) ∨
    ∃ k, k < sourceBytes i ∧ bbufByte m k = none

theorem nextOrFault_checked {P : Prop} {i : Instr} {s : State} {k : Result}
    (h : NextOrFault P k) : NextOrFault P (checked i s k) := by
  rw [checked]
  split
  · exact h
  · exact .next _

theorem nextOrFault_withSlot {i : Instr} {n : SlotNo} {s : State} {k : List Int → Result}
    (hn : n ∈ sourceSlots i) (hk : ∀ f, NextOrFault (LacksOperand i s.mem) (k f)) :
    NextOrFault (LacksOperand i s.mem) (withSlot n s k) := by
  rw [withSlot]
  split
  · exact hk _
  · rename_i hnone
    exact .fault _ (.inl ⟨n, hn, loadSlot_eq_none_iff.1 hnone⟩)

theorem nextOrFault_withBbuf {i : Instr} {n : Nat} {s : State} {k : List Byte → Result}
    (hn : n = sourceBytes i) (hk : ∀ bs, NextOrFault (LacksOperand i s.mem) (k bs)) :
    NextOrFault (LacksOperand i s.mem) (withBbuf n s k) := by
  rw [withBbuf]
  split
  · exact hk _
  · rename_i hnone
    exact .fault _ (.inr (hn ▸ loadBbuf_eq_none_iff.1 hnone))

theorem nextOrFault_slotCommand {i : Instr} {d a : SlotNo} {F : List Int → List Int} {s : State}
    (ha : a ∈ sourceSlots i) : NextOrFault (LacksOperand i s.mem) (slotCommand i d a F s) :=
  nextOrFault_checked (nextOrFault_withSlot ha fun _ => .next _)

theorem nextOrFault_slotCommand2 {i : Instr} {d a b : SlotNo}
    {F : List Int → List Int → List Int} {s : State} (ha : a ∈ sourceSlots i)
    (hb : b ∈ sourceSlots i) : NextOrFault (LacksOperand i s.mem) (slotCommand2 i d a b F s) :=
  nextOrFault_checked (nextOrFault_withSlot ha fun _ => nextOrFault_withSlot hb fun _ => .next _)

theorem nextOrFault_encCommand {i : Instr} {n : Nat} {a : SlotNo} {s : State}
    (ha : a ∈ sourceSlots i) : NextOrFault (LacksOperand i s.mem) (encCommand i n a s) :=
  nextOrFault_checked (nextOrFault_withSlot ha fun _ => .next _)

theorem nextOrFault_bbufCommand {i : Instr} {n : Nat} {d : SlotNo} {F : List Byte → List Int}
    {s : State} (hn : n = sourceBytes i) :
    NextOrFault (LacksOperand i s.mem) (bbufCommand i n d F s) :=
  nextOrFault_checked (nextOrFault_withBbuf hn fun _ => .next _)

/-- A command answers a next state, or faults for an operand without a value (R99, R341). -/
theorem nextOrFault_exec (i : Instr) (s : State) :
    NextOrFault (LacksOperand i s.mem) (exec i s) := by
  cases i with
  | nop | smul | smred | sbar | shw => exact .next _
  | rej d => exact nextOrFault_checked (.next _)
  | ntt d a | nttb d a | intt d a | pred d a | pscale d a imm | pcanon d a =>
    exact nextOrFault_slotCommand (List.mem_singleton.2 rfl)
  | pmul d a b | padd d a b | psub d a b =>
    exact nextOrFault_slotCommand2 (List.mem_cons_self ..)
      (List.mem_cons_of_mem _ (List.mem_singleton.2 rfl))
  | enc1 a | enc4 a | enc5 a | enc10 a | enc11 a | enc12 a =>
    exact nextOrFault_encCommand (List.mem_singleton.2 rfl)
  | dec1 d | dec4 d | dec5 d | dec10 d | dec11 d | dec12 d | cbd2 d | cbd3 d =>
    exact nextOrFault_bbufCommand rfl

/-- The engine faults with a command that lacks an operand at the head of the queue only. -/
theorem nextOrFault_engineStep (s : State) :
    NextOrFault (∃ w rest i, s.cmdq = w :: rest ∧ s.engine = .idle ∧ decode w = .ok i ∧
      LacksOperand i s.mem) (engineStep s) := by
  rw [engineStep]
  split
  · exact .next _
  · rename_i w rest he hq
    rw [runWord]
    split
    · rename_i i hi
      exact (nextOrFault_exec i _).mono fun h => ⟨w, rest, i, hq, he, hi, h⟩
    · exact .next _
  · exact .next _
  · exact .next _

/-- A host read faults for a byte without a value while the block is idle only (R341). -/
theorem nextOrFault_hostRead (off : Nat) (s : State) :
    NextOrFault (s.busy = false ∧ ∃ k, k < 4 ∧ readByte s.mem (off + k) = none)
      (hostRead off s) := by
  rw [hostRead]
  split
  · exact .next _
  · rename_i hfree
    cases hp : portAt s.params off with
    | storage =>
      have hb : s.busy = false := by simpa [hp, Port.locked] using hfree
      dsimp only
      split
      · exact .next _
      · rename_i hnone
        exact .fault _ ⟨hb, exists_of_loadWord_eq_none hnone⟩
    | _ => exact .next _

/-! ### A step -/

/-- Why a step faults: the engine's next word reads, or the host reads, storage with no value (R341). -/
def FaultReason (s : State) : Prop :=
  (∃ w rest i, s.cmdq = w :: rest ∧ s.engine = .idle ∧ decode w = .ok i ∧ LacksOperand i s.mem) ∨
    ∃ addr sc off k, s.script = .host (.read addr) :: sc ∧ blockOffset s.params addr = some off ∧
      s.busy = false ∧ k < 4 ∧ readByte s.mem (off + k) = none

theorem nextOrFault_step (s : State) : NextOrFault (FaultReason s) (step s) := by
  match hs : s.script with
  | [] =>
    rw [step_of_engineTurn (.inl hs)]
    exact (nextOrFault_engineStep _).mono .inl
  | .engine :: sc =>
    rw [step_of_engineTurn (.inr ⟨sc, hs⟩)]
    exact (nextOrFault_engineStep _).mono .inl
  | .host (.read addr) :: sc =>
    rw [step, hs]
    simp only [hostAccess]
    split
    · rename_i off ho
      exact (nextOrFault_hostRead off _).mono fun ⟨hb, k, hk, hn⟩ =>
        .inr ⟨addr, sc, off, k, hs, ho, hb, hk, hn⟩
    · exact .next _
  | .host (.write addr lanes v) :: sc =>
    rw [step, hs]
    simp only [hostAccess]
    split <;> exact .next _
  | .reset :: sc =>
    rw [step, hs]
    exact .next _

/-- Settles O37: a step answers a next state, or faults for the reason given. -/
theorem stepNeverRefuses : Obligations.StepNeverRefuses :=
  ⟨fun s => (nextOrFault_step s).ne_refused, fun s _ h => (nextOrFault_step s).of_fault h⟩

end Sys2Proof.Machine
end

section
/-! PROOFS. The laws of mont_reduce and mont_mul (40_field.md R120, R121, R125, R127). -/

namespace Sys2Proof.Machine

/-! ### mont_reduce -/

/-- The factor k of R120: the int16 congruent to 62209 v. -/
def montK (v : Int) : Int := (v * 62209).bmod 65536

/-- The value e of R125, before the wrap to int16. -/
def montExact (v : Int) : Int := (v - montK v * 3329) / 65536

theorem abs_montK_le (v : Int) : |montK v| ≤ 32768 := by
  have hlo : -32768 ≤ montK v := Int.le_bmod (by decide)
  have hhi : montK v < 32768 := Int.bmod_lt (by decide)
  exact abs_le.2 ⟨hlo, hhi.le⟩

/-- 62209 is the inverse of q mod 2^16. -/
theorem dvd_sub_montK (v : Int) : (65536 : Int) ∣ v - montK v * 3329 := by
  have h : (65536 : Int) ∣ montK v - v * 62209 := Int.dvd_bmod_sub_self
  omega

theorem montExact_mul (v : Int) : montExact v * 65536 = v - montK v * 3329 :=
  Int.ediv_mul_cancel (dvd_sub_montK v)

/-- The high halves of v and k q differ by e, as their low halves agree (R125). -/
theorem montReduce_eq (v : Int) : montReduce v = wrap16 (montExact v) := by
  have h := montExact_mul v
  have hk : sext16 (v * 62209 % 65536) = montK v := wrap16_eq_bmod _
  simp only [montReduce, hk]
  congr 1
  omega

theorem montReduce_of_fits {v : Int} (h : -32768 ≤ montExact v ∧ montExact v < 32768) :
    montReduce v = montExact v := by
  rw [montReduce_eq, wrap16_of_fits h]

theorem dvd_montExact_sub (v : Int) : (3329 : Int) ∣ montExact v * 65536 - v :=
  ⟨-montK v, by rw [montExact_mul]; ring⟩

theorem abs_montExact_le (v : Int) : |montExact v| * 65536 ≤ |v| + 109084672 :=
  calc |montExact v| * 65536 = |v - montK v * 3329| := by
        rw [← montExact_mul, abs_mul, Nat.abs_ofNat]
    _ ≤ |v| + |montK v| * 3329 := by
        simpa only [abs_mul, Nat.abs_ofNat] using abs_sub v (montK v * 3329)
    _ ≤ |v| + 109084672 := by have := abs_montK_le v; omega

theorem montReduce_bounds {v : Int} (h : |v| < 109084672) :
    -3329 < montReduce v ∧ montReduce v < 3329 := by
  have he : |montExact v| < 3329 := by have := abs_montExact_le v; omega
  obtain ⟨hlo, hhi⟩ := abs_lt.1 he
  rw [montReduce_of_fits (by omega)]
  exact ⟨hlo, hhi⟩

/-- Settles O58: 62209 inverts q mod 2^16, so that e is exact, and k is an int16. -/
theorem montReduceLaw : Obligations.MontReduceLaw := by
  refine ⟨fun v _ _ => ⟨dvd_sub_montK v, ?_, fun hlo hhi => ?_, abs_montExact_le v, fun hlo hhi => ?_⟩,
    by decide, by decide, by decide⟩
  · rw [montReduce_eq, wrap16_eq_bmod, montExact, montK]
  · have he : montReduce v = montExact v := montReduce_of_fits ⟨hlo, Int.lt_add_one_of_le hhi⟩
    exact ⟨he, he ▸ dvd_montExact_sub v⟩
  · exact montReduce_bounds (abs_lt.2 ⟨hlo, hhi⟩)

/-! ### mont_mul -/

theorem abs_int16_le {x : Int} (h : -32768 ≤ x ∧ x < 32768) : |x| ≤ 32768 :=
  abs_le.2 ⟨h.1, h.2.le⟩

theorem abs_mul_int16_le {a b n : Int} (ha : -32768 ≤ a ∧ a < 32768) (hb : |b| ≤ n) :
    |a * b| ≤ 32768 * n := by
  rw [abs_mul]
  exact mul_le_mul (abs_int16_le ha) hb (abs_nonneg b) (by decide)

/-- A product with an int16 is reduced without a wrap (R127). -/
theorem montMul_eq {a b : Int} (ha : -32768 ≤ a ∧ a < 32768) (hb : |b| ≤ 32768) :
    montMul a b = montExact (a * b) := by
  have hv := abs_mul_int16_le ha hb
  have he := abs_montExact_le (a * b)
  have := abs_le.1 (show |montExact (a * b)| ≤ 32767 by omega)
  exact montReduce_of_fits (by omega)

theorem abs_montMul_mul_le {a b n : Int} (ha : -32768 ≤ a ∧ a < 32768) (hb : |b| ≤ n)
    (hn : n ≤ 32768) : |montMul a b| * 65536 ≤ 32768 * n + 109084672 := by
  rw [montMul_eq ha (hb.trans hn)]
  exact (abs_montExact_le _).trans (by have := abs_mul_int16_le ha hb; omega)

theorem montMul_bounds {a b : Int} (ha : -32768 ≤ a ∧ a < 32768) (hb : |b| ≤ 32768) :
    -18048 ≤ montMul a b ∧ montMul a b ≤ 18048 := by
  have := abs_montMul_mul_le ha hb le_rfl
  exact abs_le.1 (by omega)

theorem dvd_montMul_sub {a b : Int} (ha : -32768 ≤ a ∧ a < 32768) (hb : |b| ≤ 32768) :
    (3329 : Int) ∣ montMul a b * 65536 - a * b := by
  rw [montMul_eq ha hb]
  exact dvd_montExact_sub _

/-- R is invertible mod q, so that it cancels: b stands for β in the Montgomery domain (R127). -/
theorem dvd_sub_mul_of_montgomery {m a b β : Int} (hm : (3329 : Int) ∣ m * 65536 - a * b)
    (hb : (3329 : Int) ∣ b - β * 65536) : (3329 : Int) ∣ m - a * β := by
  have h : (3329 : Int) ∣ (m - a * β) * 65536 := by
    have := dvd_add hm (hb.mul_left a)
    ring_nf at this ⊢
    exact this
  exact Int.dvd_of_dvd_mul_left_of_gcd_one h (by decide)

/-- The largest magnitude in the ROM; the bound 1664 of R127 alone would give 2496, not 2494. -/
theorem abs_zrom_le : ∀ i, i < 128 → |zrom i| ≤ 1659 := by decide

theorem montMul_zrom_bounds {a : Int} (ha : -32768 ≤ a ∧ a < 32768) {i : Nat} (hi : i < 128) :
    -2494 ≤ montMul a (zrom i) ∧ montMul a (zrom i) ≤ 2494 := by
  have := abs_montMul_mul_le ha (abs_zrom_le i hi) (by decide)
  exact abs_le.1 (by omega)

/-- Settles O59: the product is at most 2^30 in magnitude, so that its reduction does not wrap. -/
theorem montMulLaw : Obligations.MontMulLaw := by
  intro a b ha0 ha1 hb0 hb1
  have ha : -32768 ≤ a ∧ a < 32768 := ⟨ha0, Int.lt_add_one_of_le ha1⟩
  have hb : |b| ≤ 32768 := abs_int16_le ⟨hb0, Int.lt_add_one_of_le hb1⟩
  obtain ⟨hp0, hp1⟩ := abs_le.1 (abs_mul_int16_le ha hb)
  obtain ⟨hm0, hm1⟩ := montMul_bounds ha hb
  have hd := dvd_montMul_sub ha hb
  exact ⟨hp0, hp1, montMul_eq ha hb, hm0, hm1, hd, fun _ => dvd_sub_mul_of_montgomery hd,
    fun _ => montMul_zrom_bounds ha⟩

end Sys2Proof.Machine
end

section
/-! PROOFS. The scalar commands (40_field.md R122, R123, R126, R130 to R133). -/

namespace Sys2Proof.Machine

/-- A scalar command completes with its value in SR, whatever the state (R130 to R133). -/
theorem scalarCommand_completes (v : Int) (s : State) :
    ∃ t, scalarCommand v s = .next t ∧ WroteSr s t ∧ t.sr = toHalf v :=
  ⟨_, rfl, ⟨by rw [CompletedFrom, finish_eq], finish_mem _⟩, finish_sr _⟩

theorem saHalf_bounds (s : State) : -32768 ≤ saHalf s ∧ saHalf s < 32768 := toInt_bounds _

/-- Settles O29: the product of two int16 values is reduced without a wrap, and SR holds it whole. -/
theorem smulResult : Obligations.SmulResult := by
  intro s
  obtain ⟨t, ht, hw, hsr⟩ := scalarCommand_completes (montMul (saHalf s) s.sb.toInt) s
  have ha := saHalf_bounds s
  have hb := abs_int16_le (toInt_bounds s.sb)
  obtain ⟨hlo, hhi⟩ := montMul_bounds ha hb
  have hv : t.sr.toInt = montMul (saHalf s) s.sb.toInt := by
    rw [hsr, toInt_toHalf, wrap16_of_fits (by omega)]
  refine ⟨t, ht, hw, ?_⟩
  rw [hv]
  exact ⟨montMul_eq ha hb, hlo, hhi, dvd_montMul_sub ha hb⟩

theorem wrap16_montReduce (v : Int) : wrap16 (montReduce v) = (montExact v).bmod 65536 := by
  rw [montReduce_eq, wrap16_eq_bmod, wrap16_eq_bmod, Int.bmod_bmod]

/-- Settles O30: the value is wrapped to int16 already when SR takes it. -/
theorem smredResult : Obligations.SmredResult := by
  intro s
  obtain ⟨t, ht, hw, hsr⟩ := scalarCommand_completes (montReduce s.sa.toInt) s
  exact ⟨t, ht, hw, by rw [hsr, toInt_toHalf, wrap16_montReduce, montExact, montK]⟩

theorem dvd_barrett_sub (x : Int) : (3329 : Int) ∣ barrett x - x :=
  ⟨-((x * 20159 + 33554432) / 67108864), by simp only [barrett]; ring⟩

/-- 20159 q exceeds 2^26 by 447 only: over int16 the quotient is x / q rounded (R126). -/
theorem barrett_bounds {x : Int} (h : -32768 ≤ x ∧ x < 32768) :
    -1664 ≤ barrett x ∧ barrett x ≤ 1664 := by
  simp only [barrett]
  omega

/-- Settles O31: the centred representative fits SR. -/
theorem sbarResult : Obligations.SbarResult := by
  intro s
  obtain ⟨t, ht, hw, hsr⟩ := scalarCommand_completes (barrett (saHalf s)) s
  obtain ⟨hlo, hhi⟩ := barrett_bounds (saHalf_bounds s)
  have hv : t.sr.toInt = barrett (saHalf s) := by
    rw [hsr, toInt_toHalf, wrap16_of_fits (by omega)]
  refine ⟨t, ht, hw, ?_⟩
  rw [hv]
  exact ⟨hlo, hhi, dvd_barrett_sub _⟩

theorem toBits_toNat_eq_map {n : Nat} (x : BitVec n) :
    toBits n x.toNat = (List.range n).map x.getLsbD := by
  refine List.ext_getElem (by simp) fun i hi _ => ?_
  have hb := getElem?_toBits n x.toNat i (by simpa using hi)
  rw [List.getElem?_eq_getElem hi] at hb
  simp [Option.some.inj hb, BitVec.getLsbD, Nat.testBit_eq_decide_div_mod_eq, Bool.beq_eq_decide_eq]

theorem popcount_toNat {n : Nat} (x : BitVec n) :
    popcount n x.toNat = ((List.range n).filter fun i => x.getLsbD i).length := by
  rw [popcount, toBits_toNat_eq_map, List.count, List.countP_map, List.countP_eq_length_filter]
  simp [Function.comp_def]

theorem toNat_toHalf_natCast {k : Nat} (h : k < 65536) : (toHalf k).toNat = k := by
  rw [toHalf, BitVec.ofInt_natCast, BitVec.toNat_ofNat, Nat.mod_eq_of_lt h]

theorem popcount_le (n v : Nat) : popcount n v ≤ n := by
  simpa [popcount] using List.count_le_length (a := true) (l := toBits n v)

/-- Settles O32: bit i of the stream of SA is its bit i, and the count fits SR. -/
theorem shwResult : Obligations.ShwResult := by
  intro s
  obtain ⟨t, ht, hw, hsr⟩ := scalarCommand_completes (popcount 32 s.sa.toNat) s
  have hle := popcount_le 32 s.sa.toNat
  exact ⟨t, ht, hw, by rw [hsr, toNat_toHalf_natCast (by omega), popcount_toNat]⟩

end Sys2Proof.Machine
end

section
/-! PROOFS. The ring commands NOP, PADD, PSUB, PRED, PSCALE, PCANON and PMUL (41_ring.md R150 to R159,
40_field.md R125 to R127). -/

namespace Sys2Proof.Machine

/-! ### Commands that complete into slot D -/

/-- A completed slot command, whole: slot D holds the wraps, and nothing else has changed (R150). -/
theorem wroteSlot_finishSlot {d : SlotNo} {l : List Int} {h : Nat → Int} (s : State)
    (hl : l.length = 256) (hh : ∀ k, k < 256 → wrap16 (l.getD k 0) = h k) :
    WroteSlot d h s (finishSlot d l s) := by
  refine ⟨by rw [CompletedFrom, finishSlot_eq], finishSlot_sr d l s, fun k hk => ?_, fun off ho => ?_⟩
  · rw [coeff_finishSlot d l s k hl hk, hh k hk]
  · rw [finishSlot_eq]
    exact readByte_storeSlot_outside _ _ _ _ (by rw [hl]; exact ho)

theorem slotCommand_wroteSlot {i : Instr} {d a : SlotNo} {F : List Int → List Int} {s : State}
    {f h : Nat → Int} (hw : i.wf s.params = true) (ha : HoldsSlot s.mem a f)
    (hl : (F ((List.range 256).map f)).length = 256)
    (hh : ∀ k, k < 256 → wrap16 ((F ((List.range 256).map f)).getD k 0) = h k) :
    ∃ t, slotCommand i d a F s = .next t ∧ WroteSlot d h s t :=
  ⟨_, slotCommand_completes hw ha, wroteSlot_finishSlot s hl hh⟩

theorem slotCommand2_wroteSlot {i : Instr} {d a b : SlotNo} {F : List Int → List Int → List Int}
    {s : State} {f g h : Nat → Int} (hw : i.wf s.params = true) (ha : HoldsSlot s.mem a f)
    (hb : HoldsSlot s.mem b g)
    (hl : (F ((List.range 256).map f) ((List.range 256).map g)).length = 256)
    (hh : ∀ k, k < 256 →
      wrap16 ((F ((List.range 256).map f) ((List.range 256).map g)).getD k 0) = h k) :
    ∃ t, slotCommand2 i d a b F s = .next t ∧ WroteSlot d h s t :=
  ⟨_, slotCommand2_completes hw ha hb, wroteSlot_finishSlot s hl hh⟩

/-- A command that acts on each coefficient of A alone. -/
theorem slotCommand_map_wroteSlot {i : Instr} {d a : SlotNo} {φ : Int → Int} {s : State}
    {f h : Nat → Int} (hw : i.wf s.params = true) (ha : HoldsSlot s.mem a f)
    (hh : ∀ k, k < 256 → wrap16 (φ (f k)) = h k) :
    ∃ t, slotCommand i d a (List.map φ) s = .next t ∧ WroteSlot d h s t :=
  slotCommand_wroteSlot hw ha (by simp) fun k hk => by
    rw [← hh k hk]
    simp [hk]

/-- A command that acts on each pair of coefficients of A and B alone. -/
theorem slotCommand2_zipWith_wroteSlot {i : Instr} {d a b : SlotNo} {φ : Int → Int → Int} {s : State}
    {f g h : Nat → Int} (hw : i.wf s.params = true) (ha : HoldsSlot s.mem a f)
    (hb : HoldsSlot s.mem b g) (hh : ∀ k, k < 256 → wrap16 (φ (f k) (g k)) = h k) :
    ∃ t, slotCommand2 i d a b (List.zipWith φ) s = .next t ∧ WroteSlot d h s t :=
  slotCommand2_wroteSlot hw ha hb (by simp) fun k hk => by
    rw [← hh k hk]
    simp [hk]

theorem wrap16_wrap16 (v : Int) : wrap16 (wrap16 v) = wrap16 v := by
  simp only [wrap16_eq_bmod, Int.bmod_bmod]

/-! ### Coefficient by coefficient -/

/-- Settles O6: NOP is the completion of a command and nothing else. -/
theorem nopCompletes : Obligations.NopCompletes :=
  fun s => congrArg Host.Outcome.next (finish_eq s)

/-- Settles O7: the sum is wrapped before slot D takes it, so that it is stored whole. -/
theorem paddResult : Obligations.PaddResult := by
  intro s d a b f g hd ha hb hf hg
  exact slotCommand2_zipWith_wroteSlot (by simp [Instr.wf, Instr.slotsUsed, hd, ha, hb]) hf hg
    fun k _ => by rw [wrap16_wrap16, wrap16_eq_bmod]

/-- Settles O8: as for the sum. -/
theorem psubResult : Obligations.PsubResult := by
  intro s d a b f g hd ha hb hf hg
  exact slotCommand2_zipWith_wroteSlot (by simp [Instr.wf, Instr.slotsUsed, hd, ha, hb]) hf hg
    fun k _ => by rw [wrap16_wrap16, wrap16_eq_bmod]

/-- Settles O9: the centred representative of an int16 fits slot D. -/
theorem predResult : Obligations.PredResult := by
  intro s d a f hd ha hf
  have hfits : ∀ k, k < 256 → -1664 ≤ barrett (f k) ∧ barrett (f k) ≤ 1664 := fun k hk =>
    barrett_bounds (coeff_bounds (hf k hk))
  obtain ⟨t, ht, hw⟩ := slotCommand_map_wroteSlot (i := .pred d a) (d := d) (φ := barrett)
    (by simp [Instr.wf, Instr.slotsUsed, hd, ha]) hf
    fun k hk => wrap16_of_fits (by have := hfits k hk; omega)
  exact ⟨t, _, ht, hw, fun k hk => ⟨(hfits k hk).1, (hfits k hk).2, dvd_barrett_sub _⟩⟩

theorem abs_imm_le (imm : BitVec 12) : |(imm.toNat : Int)| ≤ 4095 := by
  rw [Nat.abs_cast]
  have := imm.isLt
  omega

/-- The immediate is below 2^12, and (2^15 4095 + 2^15 q) / 2^16 is 3712 (R156). -/
theorem montMul_imm_bounds {x : Int} (hx : -32768 ≤ x ∧ x < 32768) (imm : BitVec 12) :
    -3713 < montMul x imm.toNat ∧ montMul x imm.toNat < 3713 := by
  have := abs_montMul_mul_le hx (abs_imm_le imm) (by decide)
  exact abs_lt.1 (by omega)

/-- Settles O10: the immediate is an int16, so that the product is reduced without a wrap. -/
theorem pscaleResult : Obligations.PscaleResult := by
  intro s d a imm f hd ha hf
  have himm : |(imm.toNat : Int)| ≤ 32768 := (abs_imm_le imm).trans (by decide)
  have hfits : ∀ k, k < 256 → -3713 < montMul (f k) imm.toNat ∧ montMul (f k) imm.toNat < 3713 :=
    fun k hk => montMul_imm_bounds (coeff_bounds (hf k hk)) imm
  obtain ⟨t, ht, hw⟩ := slotCommand_map_wroteSlot (i := .pscale d a imm) (d := d)
    (φ := fun x => montMul x imm.toNat) (by simp [Instr.wf, Instr.slotsUsed, hd, ha]) hf
    fun k hk => wrap16_of_fits (by have := hfits k hk; omega)
  exact ⟨t, _, ht, hw, fun k hk => ⟨montMul_eq (coeff_bounds (hf k hk)) himm, (hfits k hk).1,
    (hfits k hk).2, dvd_montMul_sub (coeff_bounds (hf k hk)) himm⟩⟩

/-- Settles O11: q is added to negative values only, so that the sum fits int16. -/
theorem pcanonResult : Obligations.PcanonResult := by
  intro s d a f hd ha hf
  refine slotCommand_map_wroteSlot (by simp [Instr.wf, Instr.slotsUsed, hd, ha]) hf fun k hk => ?_
  have hb := coeff_bounds (hf k hk)
  refine wrap16_of_fits ?_
  rw [canon]
  split <;> omega

/-! ### The base-case products -/

theorem wrap32_eq_bmod (v : Int) : wrap32 v = v.bmod (2 ^ 32) := by
  simp only [wrap32, sext32, Int.bmod]
  norm_num

theorem wrap16_montReduce_self (v : Int) : wrap16 (montReduce v) = montReduce v := by
  rw [montReduce_eq, wrap16_wrap16]

/-- Coefficient k of the base-case products of f and g (R159). -/
def pmulCoeff (f g : Nat → Int) (k : Nat) : Int :=
  (baseMul 0 ((List.range 256).map f) ((List.range 256).map g)).getD k 0

theorem getD_map_range (e : Nat → Int) {k n : Nat} (hk : k < n) :
    ((List.range n).map e).getD k 0 = e k := by simp [hk]

theorem pmulCoeff_pair (f g : Nat → Int) {p j : Nat} (hp : p < 128) (hj : j < 2) :
    pmulCoeff f g (2 * p + j) =
      (basePair (gamma p) (f (2 * p)) (f (2 * p + 1)) (g (2 * p)) (g (2 * p + 1))).getD j 0 := by
  have h := getElem?_baseMul 128 0 p ((List.range 256).map f) ((List.range 256).map g)
    (by simp) (by simp) hp j hj
  have h0 : 2 * p < 256 := by omega
  have h1 : 2 * p + 1 < 256 := by omega
  rw [Nat.zero_add, getD_map_range f h0, getD_map_range f h1, getD_map_range g h0,
    getD_map_range g h1] at h
  rw [pmulCoeff, List.getD_eq_getElem?_getD, h, ← List.getD_eq_getElem?_getD]

theorem pmulCoeff_even (f g : Nat → Int) {p : Nat} (hp : p < 128) :
    pmulCoeff f g (2 * p) = montReduce (wrap32 (f (2 * p) * g (2 * p) +
      montReduce (f (2 * p + 1) * g (2 * p + 1)) * gamma p)) :=
  pmulCoeff_pair f g hp (j := 0) (by decide)

theorem pmulCoeff_odd (f g : Nat → Int) {p : Nat} (hp : p < 128) :
    pmulCoeff f g (2 * p + 1) =
      montReduce (wrap32 (f (2 * p) * g (2 * p + 1) + f (2 * p + 1) * g (2 * p))) :=
  pmulCoeff_pair f g hp (j := 1) (by decide)

theorem eq_pair_of_lt_256 {k : Nat} (hk : k < 256) : ∃ p, p < 128 ∧ (k = 2 * p ∨ k = 2 * p + 1) :=
  ⟨k / 2, by omega, by omega⟩

/-- Every coefficient of the products is one of the two reductions of a pair. -/
theorem pmulCoeff_eq_montReduce (f g : Nat → Int) {k : Nat} (hk : k < 256) :
    ∃ v, pmulCoeff f g k = montReduce v := by
  obtain ⟨p, hp, rfl | rfl⟩ := eq_pair_of_lt_256 hk
  · exact ⟨_, pmulCoeff_even f g hp⟩
  · exact ⟨_, pmulCoeff_odd f g hp⟩

/-- The products are int16 values, which slot D takes whole. -/
theorem exec_pmul_wroteSlot {s : State} {d a b : SlotNo} {f g : Nat → Int}
    (hd : d.toNat < s.params.slots) (ha : a.toNat < s.params.slots) (hb : b.toNat < s.params.slots)
    (hf : HoldsSlot s.mem a f) (hg : HoldsSlot s.mem b g) :
    ∃ t, exec (.pmul d a b) s = .next t ∧ WroteSlot d (pmulCoeff f g) s t := by
  refine slotCommand2_wroteSlot (by simp [Instr.wf, Instr.slotsUsed, hd, ha, hb]) hf hg
    (length_baseMul 128 0 _ _ (by simp) (by simp)) fun k hk => ?_
  obtain ⟨v, hv⟩ := pmulCoeff_eq_montReduce f g hk
  rw [← pmulCoeff, hv, wrap16_montReduce_self]

/-- Settles O12: the products pair by pair. -/
theorem pmulResult : Obligations.PmulResult := by
  intro s d a b f g hd ha hb hf hg
  obtain ⟨t, ht, hw⟩ := exec_pmul_wroteSlot hd ha hb hf hg
  refine ⟨t, _, ht, hw, fun p hp => ⟨?_, ?_⟩⟩
  · rw [pmulCoeff_even f g hp, wrap32_eq_bmod, gamma]
  · rw [pmulCoeff_odd f g hp, wrap32_eq_bmod]

/-! ### The base-case products of centred inputs -/

theorem abs_gamma_le {p : Nat} (hp : p < 128) : |gamma p| ≤ 1659 := by
  rw [gamma]
  split
  · exact abs_zrom_le _ (by omega)
  · rw [abs_neg]
    exact abs_zrom_le _ (by omega)

/-- gamma(p) represents 17^(2 brv7(p) + 1) in the Montgomery domain (R158). -/
theorem dvd_gamma_sub :
    ∀ p, p < 128 → (3329 : Int) ∣ gamma p - 17 ^ (2 * brv7 p + 1) * 65536 := by
  decide +kernel

theorem dvd_montReduce_sub {v : Int} (h : |v| < 109084672) :
    (3329 : Int) ∣ montReduce v * 65536 - v := by
  have he := abs_montExact_le v
  rw [montReduce_of_fits (by have := abs_lt.1 (show |montExact v| < 3329 by omega); omega)]
  exact dvd_montExact_sub v

theorem wrap32_of_abs_lt {v : Int} (h : |v| < 2147483648) : wrap32 v = v := by
  have := abs_lt.1 h
  simp only [wrap32, sext32]
  split <;> omega

theorem abs_mul_centred_le {x y : Int} (hx : -1664 ≤ x ∧ x ≤ 1664) (hy : -1664 ≤ y ∧ y ≤ 1664) :
    |x * y| ≤ 1664 * 1664 := by
  rw [abs_mul]
  exact mul_le_mul (abs_le.2 hx) (abs_le.2 hy) (abs_nonneg y) (by decide)

/-- A reduction of a value this small neither wraps nor leaves (-q, q) (R125). -/
theorem montReduce_wrap32_small {v : Int} (h : |v| < 109084672) :
    (-3329 < montReduce (wrap32 v) ∧ montReduce (wrap32 v) < 3329) ∧
      (3329 : Int) ∣ montReduce (wrap32 v) * 65536 - v := by
  rw [wrap32_of_abs_lt (by omega)]
  exact ⟨montReduce_bounds h, dvd_montReduce_sub h⟩

/-- The first value of a pair is small: two terms of at most 1664^2 and 3329 * 1659. -/
theorem abs_evenTerm_lt {a0 a1 b0 b1 γ : Int} (h0 : |a0 * b0| ≤ 1664 * 1664)
    (h1 : |a1 * b1| ≤ 1664 * 1664) (hγ : |γ| ≤ 1659) :
    |a0 * b0 + montReduce (a1 * b1) * γ| < 109084672 := by
  have ht : |montReduce (a1 * b1)| ≤ 3329 := (abs_lt.2 (montReduce_bounds (by omega))).le
  have hm : |montReduce (a1 * b1) * γ| ≤ 3329 * 1659 := by
    rw [abs_mul]
    exact mul_le_mul ht hγ (abs_nonneg γ) (by decide)
  have := abs_add_le (a0 * b0) (montReduce (a1 * b1) * γ)
  omega

/-- The reduction in the first value and the R in gamma cancel. -/
theorem dvd_evenTerm_sub {a0 b0 v γ ζ : Int} (hv : |v| < 109084672)
    (hγ : (3329 : Int) ∣ γ - ζ * 65536) :
    (3329 : Int) ∣ a0 * b0 + montReduce v * γ - (a0 * b0 + v * ζ) := by
  have h := dvd_add (hγ.mul_left (montReduce v)) ((dvd_montReduce_sub hv).mul_left ζ)
  have he : a0 * b0 + montReduce v * γ - (a0 * b0 + v * ζ) =
      montReduce v * (γ - ζ * 65536) + ζ * (montReduce v * 65536 - v) := by ring
  rwa [he]

section
variable {f g : Nat → Int} (hf : ∀ i, i < 256 → -1664 ≤ f i ∧ f i ≤ 1664)
  (hg : ∀ i, i < 256 → -1664 ≤ g i ∧ g i ≤ 1664)
include hf hg

theorem pmulCoeff_even_centred {p : Nat} (hp : p < 128) :
    (-3329 < pmulCoeff f g (2 * p) ∧ pmulCoeff f g (2 * p) < 3329) ∧
      (3329 : Int) ∣ pmulCoeff f g (2 * p) * 65536 - (f (2 * p) * g (2 * p) +
        f (2 * p + 1) * g (2 * p + 1) * 17 ^ (2 * brv7 p + 1)) := by
  have h0 := abs_mul_centred_le (hf (2 * p) (by omega)) (hg (2 * p) (by omega))
  have h1 := abs_mul_centred_le (hf (2 * p + 1) (by omega)) (hg (2 * p + 1) (by omega))
  obtain ⟨hb, hd⟩ := montReduce_wrap32_small (abs_evenTerm_lt h0 h1 (abs_gamma_le hp))
  rw [pmulCoeff_even f g hp]
  refine ⟨hb, ?_⟩
  have := dvd_add hd (dvd_evenTerm_sub (a0 := f (2 * p)) (b0 := g (2 * p))
    (v := f (2 * p + 1) * g (2 * p + 1)) (by omega) (dvd_gamma_sub p hp))
  rwa [sub_add_sub_cancel] at this

theorem pmulCoeff_odd_centred {p : Nat} (hp : p < 128) :
    (-3329 < pmulCoeff f g (2 * p + 1) ∧ pmulCoeff f g (2 * p + 1) < 3329) ∧
      (3329 : Int) ∣ pmulCoeff f g (2 * p + 1) * 65536 -
        (f (2 * p) * g (2 * p + 1) + f (2 * p + 1) * g (2 * p)) := by
  have h0 := abs_mul_centred_le (hf (2 * p) (by omega)) (hg (2 * p + 1) (by omega))
  have h1 := abs_mul_centred_le (hf (2 * p + 1) (by omega)) (hg (2 * p) (by omega))
  have h := abs_add_le (f (2 * p) * g (2 * p + 1)) (f (2 * p + 1) * g (2 * p))
  rw [pmulCoeff_odd f g hp]
  exact montReduce_wrap32_small (by omega)

theorem pmulCoeff_bounds_centred {k : Nat} (hk : k < 256) :
    -3329 < pmulCoeff f g k ∧ pmulCoeff f g k < 3329 := by
  obtain ⟨p, hp, rfl | rfl⟩ := eq_pair_of_lt_256 hk
  · exact (pmulCoeff_even_centred hf hg hp).1
  · exact (pmulCoeff_odd_centred hf hg hp).1

end

/-- Settles O13: on centred inputs no intermediate value of a pair wraps. -/
theorem pmulIsBaseCaseProduct : Obligations.PmulIsBaseCaseProduct := by
  intro s d a b f g hd ha hb hf hg hcf hcg
  obtain ⟨t, ht, -, -, hslot, -⟩ := exec_pmul_wroteSlot hd ha hb hf hg
  exact ⟨t, _, ht, hslot, fun k hk => pmulCoeff_bounds_centred hcf hcg hk, fun p hp =>
    ⟨(pmulCoeff_even_centred hcf hcg hp).2, (pmulCoeff_odd_centred hcf hcg hp).2⟩⟩

end Sys2Proof.Machine
end

section
/-! PROOFS. What every command leaves alone (41_ring.md R150, 30_encoding.md R98). -/

namespace Sys2Proof.Machine

theorem SameOutside.refl (lo len : Nat) (m : Memory) : SameOutside lo len m m := fun _ _ => rfl

theorem sameOutside_writeBytes (m : Memory) (lo : Nat) (bs : List Byte) :
    SameOutside lo bs.length m (writeBytes m lo bs) := fun off h =>
  readByte_writeBytes_outside m lo bs off h

theorem sameOutside_storeSlot (m : Memory) (d : SlotNo) {f : List Int} (hf : f.length = 256) :
    SameOutside (0x1000 + 0x200 * d.toNat) 512 m (storeSlot m d f) := by
  have h := sameOutside_writeBytes m (slotBase d.toNat) (f.flatMap fun v => halfBytes (toHalf v))
  rwa [length_slotBytes, hf] at h

/-- Of storage only the range given may differ, and SR does not. -/
def WritesOnly (r : Nat × Nat) (s t : State) : Prop :=
  SameOutside r.1 r.2 s.mem t.mem ∧ t.sr = s.sr

theorem writesOnly_failCommand (r : Nat × Nat) (code : ErrorCode) (w : Word) (s : State) :
    WritesOnly r s (failCommand code w s) :=
  ⟨by rw [failCommand_mem]; exact .refl _ _ _, failCommand_sr ..⟩

theorem writesOnly_finishSlot (d : SlotNo) {f : List Int} (s : State) (hf : f.length = 256) :
    WritesOnly (0x1000 + 0x200 * d.toNat, 512) s (finishSlot d f s) :=
  ⟨by rw [finishSlot_eq]; exact sameOutside_storeSlot _ d hf, finishSlot_sr ..⟩

theorem writesOnly_slotCommand {i : Instr} {d a : SlotNo} {F : List Int → List Int} {s t : State}
    (hF : ∀ f, f.length = 256 → (F f).length = 256) (h : slotCommand i d a F s = .next t) :
    WritesOnly (0x1000 + 0x200 * d.toNat, 512) s t := by
  rcases slotCommand_next h with ⟨-, rfl⟩ | ⟨-, f, hf, rfl⟩
  · exact writesOnly_failCommand ..
  · exact writesOnly_finishSlot d s (hF f (length_loadSlot hf))

theorem writesOnly_slotCommand2 {i : Instr} {d a b : SlotNo} {F : List Int → List Int → List Int}
    {s t : State} (hF : ∀ f g, f.length = 256 → g.length = 256 → (F f g).length = 256)
    (h : slotCommand2 i d a b F s = .next t) : WritesOnly (0x1000 + 0x200 * d.toNat, 512) s t := by
  rcases slotCommand2_next h with ⟨-, rfl⟩ | ⟨-, f, g, hf, hg, rfl⟩
  · exact writesOnly_failCommand ..
  · exact writesOnly_finishSlot d s (hF f g (length_loadSlot hf) (length_loadSlot hg))

theorem writesOnly_bbufCommand {i : Instr} {n : Nat} {d : SlotNo} {F : List Byte → List Int}
    {s t : State} (hF : ∀ bs, (F bs).length = 256) (h : bbufCommand i n d F s = .next t) :
    WritesOnly (0x1000 + 0x200 * d.toNat, 512) s t := by
  rcases bbufCommand_next h with ⟨-, rfl⟩ | ⟨-, bs, -, rfl⟩
  · exact writesOnly_failCommand ..
  · exact writesOnly_finishSlot d s (hF bs)

theorem writesOnly_encCommand {i : Instr} {n : Nat} {a : SlotNo} {s t : State}
    (h : encCommand i n a s = .next t) : WritesOnly (0x400, 32 * n) s t := by
  rcases encCommand_next h with ⟨-, rfl⟩ | ⟨-, f, -, rfl⟩
  · exact writesOnly_failCommand ..
  · have hs := sameOutside_writeBytes s.mem bbufBase (byteEncode n f)
    rw [length_byteEncode] at hs
    exact ⟨by rw [finish_mem]; exact hs, finish_sr _⟩

theorem writesOnly_execRej {d : SlotNo} {s t : State} (h : execRej d s = .next t) :
    WritesOnly (0, 0) s t := by
  rcases execRej_next h with ⟨-, rfl⟩ | ⟨-, rfl⟩
  · exact writesOnly_failCommand ..
  · exact ⟨.refl _ _ _, rfl⟩

/-- A command other than a scalar one writes its range only. -/
theorem exec_writesOnly {i : Instr} {s t : State} (hi : writesSr i = false)
    (h : exec i s = .next t) : WritesOnly (writtenRange i) s t := by
  cases i with
  | nop => cases h; exact ⟨by rw [finish_mem]; exact .refl _ _ _, finish_sr s⟩
  | smul | smred | sbar | shw => exact absurd hi (by decide)
  | rej d => exact writesOnly_execRej h
  | ntt d a => exact writesOnly_slotCommand (fun _ => length_forwardNtt) h
  | nttb d a => exact writesOnly_slotCommand (fun _ => length_forwardNttB) h
  | intt d a => exact writesOnly_slotCommand (fun _ => length_inverseNtt) h
  | pred d a | pscale d a imm | pcanon d a =>
    exact writesOnly_slotCommand (fun f hf => by rw [List.length_map, hf]) h
  | pmul d a b => exact writesOnly_slotCommand2 (fun f g hf hg => length_baseMul 128 0 f g hf hg) h
  | padd d a b | psub d a b =>
    exact writesOnly_slotCommand2 (fun f g hf hg => by rw [List.length_zipWith, hf, hg]; rfl) h
  | enc1 a | enc4 a | enc5 a | enc10 a | enc11 a | enc12 a => exact writesOnly_encCommand h
  | dec1 d | dec4 d | dec5 d | dec10 d | dec11 d | dec12 d =>
    exact writesOnly_bbufCommand (length_byteDecode _) h
  | cbd2 d | cbd3 d => exact writesOnly_bbufCommand (length_cbdSample _) h

theorem scalarCommand_mem {v : Int} {s t : State} (h : scalarCommand v s = .next t) :
    t.mem = s.mem := by
  cases h
  exact finish_mem _

theorem sameOutside_exec {i : Instr} {s t : State} (h : exec i s = .next t) :
    SameOutside (writtenRange i).1 (writtenRange i).2 s.mem t.mem := by
  cases hi : writesSr i with
  | false => exact (exec_writesOnly hi h).1
  | true =>
    have hm : t.mem = s.mem := by
      cases i with
      | smul | smred | sbar | shw => exact scalarCommand_mem h
      | _ => exact absurd hi (by simp [writesSr])
    rw [hm]
    exact .refl _ _ _

/-- The progress of a REJ changes by a REJ's start only (R225). -/
theorem CommandAfter.rejProgress {i : Instr} {s t : State} (h : CommandAfter i s t)
    (hi : ∀ d, i ≠ .rej d) : t.rejBuf = s.rejBuf ∧ t.rejUsed = s.rejUsed := by
  cases h with
  | failed _ ht => simp [ht]
  | completed _ _ _ _ ht => simp [ht]
  | started d _ hd _ => exact absurd hd (hi d)

/-- Settles O34: the bookkeeping of a command touches none of these, and its meaning only its range,
SR if it is a scalar command, and the progress of a REJ if it is one. -/
theorem commandFrame : Obligations.CommandFrame := by
  intro i s t h
  have hsr : writesSr i = false → t.sr = s.sr := fun hi => (exec_writesOnly hi h).2
  have hrej := (exec_next h).rejProgress
  have hmem := sameOutside_exec h
  cases exec_next h with
  | failed _ ht =>
    rw [failCommand_eq] at ht
    subst ht
    exact ⟨rfl, rfl, rfl, rfl, rfl, rfl, rfl, rfl, rfl, hsr, hrej, hmem⟩
  | completed _ _ _ _ ht =>
    rw [finish_eq] at ht
    subst ht
    exact ⟨rfl, rfl, rfl, rfl, rfl, rfl, rfl, rfl, rfl, hsr, hrej, hmem⟩
  | started _ _ _ ht =>
    subst ht
    exact ⟨rfl, rfl, rfl, rfl, rfl, rfl, rfl, rfl, rfl, hsr, hrej, hmem⟩

end Sys2Proof.Machine
end

section
/-! PROOFS. What the in-place loops of the NTT commands leave in the array, and that the model's layers
on lists leave the same (42_ntt.md R182 to R186, R188). -/

namespace Sys2Proof.Machine

/-! ### One group -/

/-- The first `n` butterflies of a group's loop. -/
def groupSteps (bf : Int → Int → Int × Int) (len start n : Nat) (f : Nat → Int) : Nat → Int :=
  (List.range n).foldl (fun f k =>
    let j := start + k
    let r := bf (f j) (f (j + len))
    setAt (setAt f j r.1) (j + len) r.2) f

theorem groupLoop_eq_groupSteps (bf : Int → Int → Int × Int) (len start : Nat) (f : Nat → Int) :
    groupLoop bf len start f = groupSteps bf len start len f := rfl

/-- No butterfly of a group reads what an earlier one has written. -/
theorem groupSteps_apply (bf : Int → Int → Int × Int) {len start n : Nat} (f : Nat → Int)
    (hn : n ≤ len) (m : Nat) :
    groupSteps bf len start n f m =
      if start ≤ m ∧ m < start + n then (bf (f m) (f (m + len))).1
      else if start + len ≤ m ∧ m < start + len + n then (bf (f (m - len)) (f m)).2
      else f m := by
  induction n generalizing m with
  | zero =>
    rw [if_neg (by omega), if_neg (by omega)]
    rfl
  | succ n ih =>
    have h0 : groupSteps bf len start n f (start + n) = f (start + n) := by
      rw [ih (by omega), if_neg (by omega), if_neg (by omega)]
    have h1 : groupSteps bf len start n f (start + n + len) = f (start + n + len) := by
      rw [ih (by omega), if_neg (by omega), if_neg (by omega)]
    have hs : groupSteps bf len start (n + 1) f =
        setAt (setAt (groupSteps bf len start n f) (start + n)
          (bf (f (start + n)) (f (start + n + len))).1) (start + n + len)
          (bf (f (start + n)) (f (start + n + len))).2 := by
      rw [← h0, ← h1, groupSteps, List.range_succ, List.foldl_append]
      rfl
    rw [hs, setAt, setAt]
    by_cases hm1 : m = start + n + len
    · subst hm1
      rw [if_pos rfl, if_neg (by omega), if_pos (by omega), Nat.add_sub_cancel]
    · by_cases hm0 : m = start + n
      · subst hm0
        rw [if_neg hm1, if_pos rfl, if_pos (by omega)]
      · have h0 : (start ≤ m ∧ m < start + n) ↔ (start ≤ m ∧ m < start + (n + 1)) := by omega
        have h1 : (start + len ≤ m ∧ m < start + len + n) ↔
            (start + len ≤ m ∧ m < start + len + (n + 1)) := by omega
        rw [if_neg hm1, if_neg hm0, ih (by omega)]
        simp only [h0, h1]

/-! ### One layer -/

/-- `f'` holds, on the pairs of the first `groups` groups, the butterflies of the pairs of `f` (R182). -/
structure IsLayer (bf : Nat → Int → Int → Int × Int) (len groups : Nat) (f f' : Nat → Int) : Prop where
  pair : ∀ g, g < groups → ∀ j, j < len →
    f' (2 * len * g + j) = (bf g (f (2 * len * g + j)) (f (2 * len * g + j + len))).1 ∧
    f' (2 * len * g + j + len) = (bf g (f (2 * len * g + j)) (f (2 * len * g + j + len))).2

/-- The first `n` groups of a layer's loop, on the running zeta index and the array; `next` steps the
index. -/
def layerSteps (next : Nat → Nat) (bf : Nat → Int → Int → Int × Int) (len n : Nat)
    (x : Nat × (Nat → Int)) : Nat × (Nat → Int) :=
  (List.range n).foldl (fun x g => (next x.1, groupLoop (bf x.1) len (2 * len * g) x.2)) x

section
variable (next : Nat → Nat) (bf : Nat → Int → Int → Int × Int) (len n i : Nat) (f : Nat → Int)

theorem layerSteps_succ (x : Nat × (Nat → Int)) : layerSteps next bf len (n + 1) x =
    (next (layerSteps next bf len n x).1,
      groupLoop (bf (layerSteps next bf len n x).1) len (2 * len * n)
        (layerSteps next bf len n x).2) := by
  rw [layerSteps, List.range_succ, List.foldl_append]
  rfl

theorem layerSteps_fst : (layerSteps next bf len n (i, f)).1 = next^[n] i := by
  induction n with
  | zero => rfl
  | succ n ih => rw [layerSteps_succ, ih, Function.iterate_succ_apply']

/-- A group's loop leaves the later groups alone. -/
theorem layerSteps_snd_of_le {m : Nat} (hm : 2 * len * n ≤ m) :
    (layerSteps next bf len n (i, f)).2 m = f m := by
  induction n with
  | zero => rfl
  | succ n ih =>
    rw [Nat.mul_succ] at hm
    rw [layerSteps_succ, groupLoop_eq_groupSteps]
    dsimp only
    rw [groupSteps_apply _ _ le_rfl, if_neg (by omega), if_neg (by omega), ih (by omega)]

theorem isLayer_layerSteps :
    IsLayer (fun g => bf (next^[g] i)) len n f (layerSteps next bf len n (i, f)).2 := by
  induction n with
  | zero => exact ⟨fun g hg => absurd hg (Nat.not_lt_zero g)⟩
  | succ n ih =>
    refine ⟨fun g hg j hj => ?_⟩
    rw [layerSteps_succ, groupLoop_eq_groupSteps, layerSteps_fst]
    dsimp only
    rw [groupSteps_apply _ _ le_rfl, groupSteps_apply _ _ le_rfl]
    obtain hlt | rfl := Nat.lt_succ_iff_lt_or_eq.1 hg
    · have hle : 2 * len * (g + 1) ≤ 2 * len * n := Nat.mul_le_mul_left _ hlt
      rw [Nat.mul_succ] at hle
      rw [if_neg (by omega), if_neg (by omega), if_neg (by omega), if_neg (by omega)]
      exact ih.pair g hlt j hj
    · rw [if_pos (by omega), if_neg (by omega), if_pos (by omega), Nat.add_sub_cancel,
        layerSteps_snd_of_le _ _ _ _ _ _ (by omega), layerSteps_snd_of_le _ _ _ _ _ _ (by omega)]
      exact ⟨rfl, rfl⟩

end

section
variable {bf : Nat → Int → Int → Int × Int} {len groups : Nat} {f f' : Nat → Int}
  (hs : groups * (2 * len) = 256)
include hs

theorem pair_index_lt {g j : Nat} (hg : g < groups) (hj : j < len) :
    2 * len * g + j < 256 ∧ 2 * len * g + j + len < 256 := by
  have h : (g + 1) * (2 * len) ≤ groups * (2 * len) := Nat.mul_le_mul_right _ hg
  rw [hs, Nat.succ_mul, Nat.mul_comm] at h
  omega

/-- Every index is the first or the second of a pair (R182). -/
theorem exists_pair_index {m : Nat} (hm : m < 256) : ∃ g, g < groups ∧ ∃ j, j < len ∧
    (m = 2 * len * g + j ∨ m = 2 * len * g + j + len) := by
  have hpos : 0 < 2 * len := Nat.pos_of_ne_zero fun h => by rw [h] at hs; omega
  have hd := Nat.div_add_mod m (2 * len)
  have hr := Nat.mod_lt m hpos
  refine ⟨m / (2 * len), (Nat.div_lt_iff_lt_mul hpos).2 (by omega), ?_⟩
  by_cases h : m % (2 * len) < len
  · exact ⟨_, h, .inl hd.symm⟩
  · exact ⟨m % (2 * len) - len, by omega, .inr (by omega)⟩

/-- What every butterfly makes of `P`, the layer makes of it. -/
theorem IsLayer.forall_lt {P P' : Int → Prop} (h : IsLayer bf len groups f f')
    (hP : ∀ m, m < 256 → P (f m))
    (hbf : ∀ g, g < groups → ∀ a b, P a → P b → P' (bf g a b).1 ∧ P' (bf g a b).2) :
    ∀ m, m < 256 → P' (f' m) := by
  intro m hm
  obtain ⟨g, hg, j, hj, hmj⟩ := exists_pair_index hs hm
  obtain ⟨hlt1, hlt2⟩ := pair_index_lt hs hg hj
  obtain ⟨h1, h2⟩ := hbf g hg _ _ (hP _ hlt1) (hP _ hlt2)
  obtain ⟨e1, e2⟩ := h.pair g hg j hj
  obtain rfl | rfl := hmj
  · rwa [e1]
  · rwa [e2]

/-- The model's layer on the list of the coefficients. -/
theorem butterflyLayer_eq_of_isLayer (h : IsLayer bf len groups f f') :
    butterflyLayer bf len groups 0 ((List.range 256).map f) = (List.range 256).map f' := by
  have hlen : groups * (2 * len) ≤ ((List.range 256).map f).length := by simp [hs]
  refine List.ext_getElem? fun m => ?_
  by_cases hm : m < 256
  · obtain ⟨g, hg, j, hj, hmj⟩ := exists_pair_index hs hm
    obtain ⟨hlt1, hlt2⟩ := pair_index_lt hs hg hj
    obtain ⟨h1, h2⟩ := getElem?_butterflyLayer bf len groups 0 _ g j hlen hg hj
    rw [getD_map_range f hlt1, getD_map_range f hlt2, Nat.zero_add] at h1 h2
    obtain ⟨e1, e2⟩ := h.pair g hg j hj
    obtain rfl | rfl := hmj
    · rw [h1, ← e1]; simp [hm]
    · rw [h2, ← e2]; simp [hm]
  · rw [List.getElem?_eq_none (by rw [length_butterflyLayer _ _ _ _ _ hlen]; omega),
      List.getElem?_eq_none (by simpa using hm)]

end

/-! ### The layers of a transform -/

/-- The loops of the layers `Ls`, on the running zeta index and the array. -/
def layerLoops (next : Nat → Nat) (bf : Nat → Int → Int → Int × Int) (Ls : List Nat)
    (x : Nat × (Nat → Int)) : Nat × (Nat → Int) :=
  Ls.foldl (fun x L => layerSteps next bf (2 ^ L) (128 / 2 ^ L) x) x

theorem groups_eq_two_pow {L : Nat} (hL : 1 ≤ L ∧ L ≤ 7) : 128 / 2 ^ L = 2 ^ (7 - L) :=
  Nat.pow_div (m := 7) hL.2 (Nat.zero_lt_two)

section
variable {next : Nat → Nat} {bf : Nat → Int → Int → Int × Int}

theorem layerLoops_cons {L : Nat} (hL : 1 ≤ L ∧ L ≤ 7) (Ls : List Nat) (i : Nat) (f : Nat → Int) :
    layerLoops next bf (L :: Ls) (i, f) = layerLoops next bf Ls
      (next^[2 ^ (7 - L)] i, (layerSteps next bf (2 ^ L) (2 ^ (7 - L)) (i, f)).2) := by
  rw [layerLoops, List.foldl_cons, groups_eq_two_pow hL, ← layerSteps_fst]
  rfl

/-- What every butterfly keeps, the layers keep. -/
theorem layerLoops_forall_lt {P : Int → Prop}
    (hbf : ∀ i a b, P a → P b → P (bf i a b).1 ∧ P (bf i a b).2) (Ls : List Nat) (i : Nat)
    (f : Nat → Int) (hL : ∀ L ∈ Ls, 1 ≤ L ∧ L ≤ 7) (hP : ∀ m, m < 256 → P (f m)) :
    ∀ m, m < 256 → P ((layerLoops next bf Ls (i, f)).2 m) := by
  induction Ls generalizing i f with
  | nil => exact hP
  | cons L Ls ih =>
    have hL' := hL L (List.mem_cons_self ..)
    rw [layerLoops_cons hL']
    exact ih _ _ (fun K hK => hL K (List.mem_cons_of_mem _ hK))
      ((isLayer_layerSteps ..).forall_lt (groups_mul_span hL') hP fun _ _ => hbf _)

end

/-- The layers of NTT and NTTB, the index going up (R185, R186). -/
def upLoops : List Nat → Nat × (Nat → Int) → Nat × (Nat → Int) :=
  layerLoops Nat.succ fun i => ct (zrom i)

/-- The layers of INTT, the index going down (R188). -/
def downLoops : List Nat → Nat × (Nat → Int) → Nat × (Nat → Int) :=
  layerLoops Nat.pred fun i => gs (zrom i)

theorem nttLoop_eq (f : Nat → Int) :
    nttLoop f = barrett ∘ (upLoops [7, 6, 5, 4, 3, 2, 1] (1, f)).2 := by
  rw [upLoops, ← ctSpec_eq_ct]
  rfl

theorem nttbLoop_eq (f : Nat → Int) :
    nttbLoop f = barrett ∘ (upLoops [6, 5, 4, 3, 2, 1] (2, groupLoop ctPlain 128 0 f)).2 := by
  rw [upLoops, ← ctSpec_eq_ct, ← ctPlainSpec_eq_ctPlain]
  rfl

theorem inttLoop_eq (f : Nat → Int) :
    inttLoop f = barrett ∘ (downLoops [1, 2, 3, 4, 5, 6, 7] (127, f)).2 := by
  rw [downLoops, ← gsSpec_eq_gs]
  rfl

/-- Layer L of NTT from ROM index `i` up, on the array (R185). -/
def upLayer (L i : Nat) (f : Nat → Int) : Nat → Int :=
  (layerSteps Nat.succ (fun i => ct (zrom i)) (2 ^ L) (2 ^ (7 - L)) (i, f)).2

/-- Layer L of INTT from ROM index `i` down, on the array (R188). -/
def downLayer (L i : Nat) (f : Nat → Int) : Nat → Int :=
  (layerSteps Nat.pred (fun i => gs (zrom i)) (2 ^ L) (2 ^ (7 - L)) (i, f)).2

/-- Group g uses entry i + g (R181). -/
theorem isLayer_upLayer (L i : Nat) (f : Nat → Int) :
    IsLayer (fun g => ct (zrom (i + g))) (2 ^ L) (2 ^ (7 - L)) f (upLayer L i f) := by
  simpa only [Nat.succ_iterate, upLayer] using
    isLayer_layerSteps Nat.succ (fun i => ct (zrom i)) _ _ i f

/-- Group g uses entry i - g (R181). -/
theorem isLayer_downLayer (L i : Nat) (f : Nat → Int) :
    IsLayer (fun g => gs (zrom (i - g))) (2 ^ L) (2 ^ (7 - L)) f (downLayer L i f) := by
  simpa only [Nat.pred_iterate, downLayer] using
    isLayer_layerSteps Nat.pred (fun i => gs (zrom i)) _ _ i f

/-- A layer of one group, as layer 7 of NTTB is (R186). -/
theorem isLayer_groupLoop (bf : Int → Int → Int × Int) (len : Nat) (f : Nat → Int) :
    IsLayer (fun _ => bf) len 1 f (groupLoop bf len 0 f) :=
  isLayer_layerSteps id (fun _ => bf) len 1 0 f

theorem upLoops_cons {L : Nat} (hL : 1 ≤ L ∧ L ≤ 7) (Ls : List Nat) (i : Nat) (f : Nat → Int) :
    upLoops (L :: Ls) (i, f) = upLoops Ls (i + 2 ^ (7 - L), upLayer L i f) := by
  rw [upLoops, layerLoops_cons hL, Nat.succ_iterate, upLayer]

theorem downLoops_cons {L : Nat} (hL : 1 ≤ L ∧ L ≤ 7) (Ls : List Nat) (i : Nat) (f : Nat → Int) :
    downLoops (L :: Ls) (i, f) = downLoops Ls (i - 2 ^ (7 - L), downLayer L i f) := by
  rw [downLoops, layerLoops_cons hL, Nat.pred_iterate, downLayer]

/-! ### The model's transforms on lists -/

theorem forwardLayers_eq (Ls : List Nat) (i : Nat) (f : Nat → Int) (hL : ∀ L ∈ Ls, 1 ≤ L ∧ L ≤ 7) :
    forwardLayers Ls i ((List.range 256).map f) = (List.range 256).map (upLoops Ls (i, f)).2 := by
  induction Ls generalizing i f with
  | nil => rfl
  | cons L Ls ih =>
    have hL' := hL L (List.mem_cons_self ..)
    rw [forwardLayers, butterflyLayer_eq_of_isLayer (groups_mul_span hL') (isLayer_upLayer ..),
      ih _ _ fun K hK => hL K (List.mem_cons_of_mem _ hK), upLoops_cons hL']

theorem inverseLayers_eq (Ls : List Nat) (i : Nat) (f : Nat → Int) (hL : ∀ L ∈ Ls, 1 ≤ L ∧ L ≤ 7) :
    inverseLayers Ls i ((List.range 256).map f) = (List.range 256).map (downLoops Ls (i, f)).2 := by
  induction Ls generalizing i f with
  | nil => rfl
  | cons L Ls ih =>
    have hL' := hL L (List.mem_cons_self ..)
    rw [inverseLayers, butterflyLayer_eq_of_isLayer (groups_mul_span hL') (isLayer_downLayer ..),
      ih _ _ fun K hK => hL K (List.mem_cons_of_mem _ hK), downLoops_cons hL']

theorem forwardNtt_eq (f : Nat → Int) :
    forwardNtt ((List.range 256).map f) = (List.range 256).map (nttLoop f) := by
  rw [forwardNtt, forwardLayers_eq _ _ _ (by decide), List.map_map, nttLoop_eq]

theorem forwardNttB_eq (f : Nat → Int) :
    forwardNttB ((List.range 256).map f) = (List.range 256).map (nttbLoop f) := by
  rw [forwardNttB, butterflyLayer_eq_of_isLayer (by decide) (isLayer_groupLoop ctPlain 128 f),
    forwardLayers_eq _ _ _ (by decide), List.map_map, nttbLoop_eq]

theorem inverseNtt_eq (f : Nat → Int) :
    inverseNtt ((List.range 256).map f) = (List.range 256).map (inttLoop f) := by
  rw [inverseNtt, inverseLayers_eq _ _ _ (by decide), List.map_map, inttLoop_eq]

end Sys2Proof.Machine
end

section
/-! PROOFS. The NTT commands complete with what their pseudocode leaves (42_ntt.md R185, R186, R188). -/

namespace Sys2Proof.Machine

/-! ### Every value is an int16 -/

/-- The range of a coefficient (R20). -/
def IsInt16 (v : Int) : Prop := -32768 ≤ v ∧ v < 32768

theorem isInt16_wrap16 (v : Int) : IsInt16 (wrap16 v) := by
  rw [wrap16_eq_bmod]
  exact ⟨Int.le_bmod (by decide), Int.bmod_lt (by decide)⟩

theorem isInt16_barrett {v : Int} (h : IsInt16 v) : IsInt16 (barrett v) := by
  obtain ⟨hlo, hhi⟩ := barrett_bounds h
  exact ⟨by omega, by omega⟩

theorem isInt16_montMul (a b : Int) : IsInt16 (montMul a b) := by
  rw [montMul, ← wrap16_montReduce_self]
  exact isInt16_wrap16 _

theorem isInt16_ct (z a b : Int) : IsInt16 (ct z a b).1 ∧ IsInt16 (ct z a b).2 :=
  ⟨isInt16_wrap16 _, isInt16_wrap16 _⟩

theorem isInt16_gs (z a b : Int) : IsInt16 (gs z a b).1 ∧ IsInt16 (gs z a b).2 :=
  ⟨isInt16_barrett (isInt16_wrap16 _), isInt16_montMul _ _⟩

section
variable {f : Nat → Int} (hf : ∀ m, m < 256 → IsInt16 (f m))
include hf

theorem isInt16_nttLoop : ∀ m, m < 256 → IsInt16 (nttLoop f m) := by
  rw [nttLoop_eq]
  exact fun m hm => isInt16_barrett <| layerLoops_forall_lt (fun _ _ _ _ _ => isInt16_ct ..) _ _ _
    (by decide) hf m hm

theorem isInt16_nttbLoop : ∀ m, m < 256 → IsInt16 (nttbLoop f m) := by
  have h7 := (isLayer_groupLoop ctPlain 128 f).forall_lt (P' := IsInt16) (by decide) hf
    fun _ _ _ _ _ _ => ⟨isInt16_wrap16 _, isInt16_wrap16 _⟩
  rw [nttbLoop_eq]
  exact fun m hm => isInt16_barrett <| layerLoops_forall_lt (fun _ _ _ _ _ => isInt16_ct ..) _ _ _
    (by decide) h7 m hm

theorem isInt16_inttLoop : ∀ m, m < 256 → IsInt16 (inttLoop f m) := by
  rw [inttLoop_eq]
  exact fun m hm => isInt16_barrett <| layerLoops_forall_lt (fun _ _ _ _ _ => isInt16_gs ..) _ _ _
    (by decide) hf m hm

end

/-! ### The commands -/

/-- A command whose function leaves int16 values, which slot D takes whole. -/
theorem slotCommand_int16_wroteSlot {i : Instr} {d a : SlotNo} {F : List Int → List Int} {s : State}
    {f h : Nat → Int} (hw : i.wf s.params = true) (ha : HoldsSlot s.mem a f)
    (hF : F ((List.range 256).map f) = (List.range 256).map h)
    (hh : ∀ m, m < 256 → IsInt16 (h m)) :
    ∃ t, slotCommand i d a F s = .next t ∧ WroteSlot d h s t :=
  slotCommand_wroteSlot hw ha (by simp [hF]) fun k hk => by
    rw [hF, getD_map_range h hk, wrap16_of_fits (hh k hk)]

theorem HoldsSlot.isInt16 {m : Memory} {a : SlotNo} {f : Nat → Int} (h : HoldsSlot m a f) :
    ∀ k, k < 256 → IsInt16 (f k) := fun k hk => coeff_bounds (h k hk)

/-- Settles O14: the model's layers on the list are the loops on the array, butterfly by butterfly. -/
theorem nttResult : Obligations.NttResult := by
  intro s d a f hd ha hf
  exact slotCommand_int16_wroteSlot (by simp [Instr.wf, Instr.slotsUsed, hd, ha]) hf (forwardNtt_eq f)
    (isInt16_nttLoop hf.isInt16)

/-- Settles O15: as for NTT, its layer 7 being one group of the plain butterfly. -/
theorem nttbResult : Obligations.NttbResult := by
  intro s d a f hd ha hf
  exact slotCommand_int16_wroteSlot (by simp [Instr.wf, Instr.slotsUsed, hd, ha]) hf
    (forwardNttB_eq f) (isInt16_nttbLoop hf.isInt16)

/-- Settles O16: as for NTT, with the index going down. -/
theorem inttResult : Obligations.InttResult := by
  intro s d a f hd ha hf
  exact slotCommand_int16_wroteSlot (by simp [Instr.wf, Instr.slotsUsed, hd, ha]) hf (inverseNtt_eq f)
    (isInt16_inttLoop hf.isInt16)

end Sys2Proof.Machine
end

section
/-! PROOFS. The zeta ROM as powers of 17 mod q (42_ntt.md R180, 41_ring.md R158), and how the powers
that the layers use belong together (R181, R182). -/

namespace Sys2Proof.Machine

theorem dvd_zrom_sub : ∀ i, i < 128 → (3329 : Int) ∣ zrom i - 17 ^ brv7 i * 65536 := by
  decide +kernel

/-- Settles O60: each entry by evaluation. -/
theorem zetaConstants : Obligations.ZetaConstants := by
  refine ⟨fun i hi => ?_, fun p hp => ⟨rfl, Int.emod_eq_zero_of_dvd (dvd_gamma_sub p hp)⟩⟩
  obtain ⟨hlo, hhi⟩ := abs_le.1 (abs_zrom_le i hi)
  exact ⟨by omega, by omega, Int.emod_eq_zero_of_dvd (dvd_zrom_sub i hi)⟩

/-! ### Modulo q -/

/-- The integers mod q. -/
abbrev Zq : Type := ZMod 3329

theorem cast_eq_iff_dvd {a b : Int} : (a : Zq) = b ↔ (3329 : Int) ∣ a - b := by
  rw [eq_comm, ZMod.intCast_eq_intCast_iff_dvd_sub]
  rfl

/-- What ROM entry `i` represents in the Montgomery domain (R180). -/
def zeta (i : Nat) : Zq := 17 ^ brv7 i

/-- The root of the factor X^2 - root of output pair `p` (R189). -/
def leafRoot (p : Nat) : Zq := 17 ^ (2 * brv7 p + 1)

theorem seventeen_pow_128 : (17 : Zq) ^ 128 = -1 := by decide +kernel

theorem seventeen_pow_256 : (17 : Zq) ^ 256 = 1 := by
  rw [show 256 = 128 * 2 from rfl, pow_mul, seventeen_pow_128, neg_one_sq]

theorem cast_barrett (x : Int) : (barrett x : Zq) = x := cast_eq_iff_dvd.2 (dvd_barrett_sub x)

theorem cast_montMul_zrom {a : Int} (ha : -32768 ≤ a ∧ a < 32768) {i : Nat} (hi : i < 128) :
    (montMul a (zrom i) : Zq) = zeta i * a := by
  have hz : |zrom i| ≤ 32768 := (abs_zrom_le i hi).trans (by decide)
  have h := cast_eq_iff_dvd.2 (dvd_sub_mul_of_montgomery (dvd_montMul_sub ha hz) (dvd_zrom_sub i hi))
  rw [h, zeta]
  push_cast
  ring

/-! ### The exponents of the layers; layer k + 1 of the forward transform starts at index 2^(6-k) -/

/-- Bit k of the number of an output pair says which half of its group the pair lies in. -/
theorem leafExponent_eq : ∀ k, k < 7 → ∀ p, p < 128 →
    (2 * brv7 p + 1) * 2 ^ k % 256 = brv7 (2 ^ (6 - k) + p / 2 ^ (k + 1)) + 128 * (p / 2 ^ k % 2) := by
  decide +kernel

theorem leafRoot_pow {k p : Nat} (hk : k < 7) (hp : p < 128) :
    leafRoot p ^ 2 ^ k = zeta (2 ^ (6 - k) + p / 2 ^ (k + 1)) * (-1) ^ (p / 2 ^ k % 2) := by
  rw [leafRoot, ← pow_mul, pow_eq_pow_mod _ seventeen_pow_256, leafExponent_eq k hk p hp, pow_add,
    pow_mul, seventeen_pow_128, zeta]

/-- The index of INTT goes down over the entries that mirror those of NTT (R181). -/
theorem brv7_add_mirror : ∀ k, k < 7 → ∀ g, g < 2 ^ (6 - k) →
    brv7 (2 ^ (6 - k) + g) + brv7 (2 ^ (7 - k) - 1 - g) = 128 := by
  decide +kernel

theorem zeta_mul_mirror {k g : Nat} (hk : k < 7) (hg : g < 2 ^ (6 - k)) :
    zeta (2 ^ (6 - k) + g) * zeta (2 ^ (7 - k) - 1 - g) = -1 := by
  rw [zeta, zeta, ← pow_add, brv7_add_mirror k hk g hg, seventeen_pow_128]

end Sys2Proof.Machine
end

section
/-! PROOFS. The forward transforms without a wrap: NTT is exact and NTTB is NTT (42_ntt.md R183, R185,
R187, R189). -/

namespace Sys2Proof.Machine

/-! ### One butterfly -/

/-- `r` is the exact butterfly of `a` and `b` with the factor `ζ` mod q, and at most `n` in
magnitude. -/
structure ExactCt (ζ : Zq) (n a b : Int) (r : Int × Int) : Prop where
  bound : |r.1| ≤ n ∧ |r.2| ≤ n
  fst : (r.1 : Zq) = a + ζ * b
  snd : (r.2 : Zq) = a - ζ * b

/-- The sums do not wrap when the product `t` is small beside the room that `a` leaves. -/
theorem exactCt_of_product {ζ : Zq} {n c a b t : Int} (ha : |a| ≤ n) (ht : |t| ≤ c)
    (hn : n + c ≤ 32767) (hζ : (t : Zq) = ζ * b) :
    ExactCt ζ (n + c) a b (wrap16 (a + t), wrap16 (a - t)) := by
  have hadd : |a + t| ≤ n + c := (abs_add_le a t).trans (add_le_add ha ht)
  have hsub : |a - t| ≤ n + c := (abs_sub a t).trans (add_le_add ha ht)
  have h1 := abs_le.1 (hadd.trans hn)
  have h2 := abs_le.1 (hsub.trans hn)
  rw [wrap16_of_fits (by omega), wrap16_of_fits (by omega)]
  exact ⟨⟨hadd, hsub⟩, by push_cast; rw [hζ], by push_cast; rw [hζ]⟩

theorem exactCt_ct {n a b : Int} {i : Nat} (ha : |a| ≤ n) (hb : |b| ≤ n) (hn : n + 2494 ≤ 32767)
    (hi : i < 128) : ExactCt (zeta i) (n + 2494) a b (ct (zrom i) a b) := by
  have hb16 : -32768 ≤ b ∧ b < 32768 := by have := abs_le.1 hb; omega
  exact exactCt_of_product ha (abs_le.2 (montMul_zrom_bounds hb16 hi)) hn (cast_montMul_zrom hb16 hi)

/-- -1600 is 17^64, which entry 1 represents (R186). -/
theorem cast_neg_1600 : ((-1600 : Int) : Zq) = zeta 1 := by decide +kernel

theorem exactCt_ctPlain {a b : Int} (ha : |a| ≤ 11) (hb : |b| ≤ 11) :
    ExactCt (zeta 1) 17611 a b (ctPlain a b) := by
  have ht : |b * -1600| ≤ 17600 := by rw [abs_mul]; norm_num; omega
  have hw : wrap16 (b * -1600) = b * -1600 := wrap16_of_fits (by have := abs_le.1 ht; omega)
  rw [ctPlain, hw]
  exact exactCt_of_product ha ht (by decide) (by rw [Int.cast_mul, cast_neg_1600, mul_comm])

/-! ### One layer -/

/-- `f'` is `f` after layer k + 1 of the forward transform mod q, and at most `n` in magnitude. -/
structure ExactUp (k : Nat) (n : Int) (f f' : Nat → Int) : Prop where
  bound : ∀ m, m < 256 → |f' m| ≤ n
  pair : ∀ g, g < 2 ^ (6 - k) → ∀ j, j < 2 ^ (k + 1) → ExactCt (zeta (2 ^ (6 - k) + g)) n
    (f (2 * 2 ^ (k + 1) * g + j)) (f (2 * 2 ^ (k + 1) * g + j + 2 ^ (k + 1)))
    (f' (2 * 2 ^ (k + 1) * g + j), f' (2 * 2 ^ (k + 1) * g + j + 2 ^ (k + 1)))

theorem sub_succ_eq (k : Nat) : 7 - (k + 1) = 6 - k := by omega

theorem two_pow_seven_sub {k : Nat} (hk : k < 7) : 2 ^ (7 - k) = 2 ^ (6 - k) + 2 ^ (6 - k) := by
  rw [show 7 - k = 6 - k + 1 by omega, pow_succ, mul_two]

theorem groups_mul_span_succ {k : Nat} (hk : k < 7) : 2 ^ (6 - k) * (2 * 2 ^ (k + 1)) = 256 := by
  rw [← sub_succ_eq]
  exact groups_mul_span ⟨by omega, by omega⟩

theorem IsLayer.exactUp {k : Nat} {n n' : Int} {bf : Nat → Int → Int → Int × Int} {f f' : Nat → Int}
    (hk : k < 7) (h : IsLayer bf (2 ^ (k + 1)) (2 ^ (6 - k)) f f') (hf : ∀ m, m < 256 → |f m| ≤ n)
    (hbf : ∀ g, g < 2 ^ (6 - k) → ∀ a b, |a| ≤ n → |b| ≤ n →
      ExactCt (zeta (2 ^ (6 - k) + g)) n' a b (bf g a b)) : ExactUp k n' f f' := by
  have hs := groups_mul_span_succ hk
  refine ⟨h.forall_lt (P' := (|·| ≤ n')) hs hf fun g hg a b ha hb => (hbf g hg a b ha hb).bound,
    fun g hg j hj => ?_⟩
  obtain ⟨hlt1, hlt2⟩ := pair_index_lt hs hg hj
  obtain ⟨e1, e2⟩ := h.pair g hg j hj
  rw [e1, e2]
  exact hbf g hg _ _ (hf _ hlt1) (hf _ hlt2)

theorem up_index_lt {k g : Nat} (hg : g < 2 ^ (6 - k)) : 2 ^ (6 - k) + g < 128 := by
  have h : 2 ^ (6 - k) ≤ 2 ^ 6 := Nat.pow_le_pow_right (by decide) (Nat.sub_le 6 k)
  omega

theorem exactUp_upLayer {k : Nat} {n : Int} {f : Nat → Int} (hk : k < 7)
    (hf : ∀ m, m < 256 → |f m| ≤ n) (hn : n + 2494 ≤ 32767) :
    ExactUp k (n + 2494) f (upLayer (k + 1) (2 ^ (6 - k)) f) := by
  have h := isLayer_upLayer (k + 1) (2 ^ (6 - k)) f
  rw [sub_succ_eq] at h
  exact h.exactUp hk hf fun g hg a b ha hb => exactCt_ct ha hb hn (up_index_lt hg)

theorem exactUp_plain {f : Nat → Int} (hf : ∀ m, m < 256 → |f m| ≤ 11) :
    ExactUp 6 17611 f (groupLoop ctPlain 128 0 f) := by
  refine (isLayer_groupLoop ctPlain 128 f).exactUp (by decide) hf fun g hg a b ha hb => ?_
  obtain rfl : g = 0 := Nat.lt_one_iff.1 hg
  exact exactCt_ctPlain ha hb

/-! ### The value of a block at the root of one of its output pairs -/

/-- Before layers k, …, 1 the array is cut into blocks of 2^(k+1) coefficients, two interleaved
polynomials each (b = 0, 1): the value, at the root of output pair p, of the one that p comes from. -/
def leafEval (k : Nat) (f : Nat → Int) (p b : Nat) : Zq :=
  ∑ i ∈ Finset.range (2 ^ k), (f (2 ^ (k + 1) * (p / 2 ^ k) + (2 * i + b)) : Zq) * leafRoot p ^ i

theorem leafEval_zero (f : Nat → Int) (p b : Nat) : leafEval 0 f p b = f (2 * p + b) := by
  simp [leafEval]

/-- A layer reduces the polynomial of a group modulo two factors; the value at a root of a factor is
kept. -/
theorem ExactUp.leafEval_eq {k p b : Nat} {n : Int} {f f' : Nat → Int} (h : ExactUp k n f f')
    (hk : k < 7) (hp : p < 128) (hb : b < 2) : leafEval k f' p b = leafEval (k + 1) f p b := by
  have hg : p / 2 ^ (k + 1) < 2 ^ (6 - k) := by
    rw [Nat.div_lt_iff_lt_mul (Nat.two_pow_pos _), ← pow_add, show 6 - k + (k + 1) = 7 by omega]
    exact hp
  have hroot := leafRoot_pow hk hp
  have hdiv : p / 2 ^ k / 2 = p / 2 ^ (k + 1) := by rw [Nat.div_div_eq_div_mul, pow_succ]
  have hsplit : Finset.range (2 ^ (k + 1)) = Finset.range (2 ^ k + 2 ^ k) := by rw [pow_succ, mul_two]
  rw [leafEval, leafEval, hsplit, Finset.sum_range_add, ← Finset.sum_add_distrib]
  refine Finset.sum_congr rfl fun i hi => ?_
  have hj : 2 * i + b < 2 ^ (k + 1) := by have := Finset.mem_range.1 hi; omega
  generalize p / 2 ^ (k + 1) = g at hg hroot hdiv ⊢
  have e0 : 2 ^ (k + 1 + 1) * g + (2 * i + b) = 2 * 2 ^ (k + 1) * g + (2 * i + b) := by ring
  have e1 : 2 ^ (k + 1 + 1) * g + (2 * (2 ^ k + i) + b) =
      2 * 2 ^ (k + 1) * g + (2 * i + b) + 2 ^ (k + 1) := by ring
  rw [e0, e1, pow_add (leafRoot p), hroot]
  rcases Nat.mod_two_eq_zero_or_one (p / 2 ^ k) with hbit | hbit
  · have e2 : 2 ^ (k + 1) * (p / 2 ^ k) + (2 * i + b) = 2 * 2 ^ (k + 1) * g + (2 * i + b) := by
      rw [show p / 2 ^ k = 2 * g by omega]; ring
    rw [e2, (h.pair g hg _ hj).fst, hbit]
    ring
  · have e2 : 2 ^ (k + 1) * (p / 2 ^ k) + (2 * i + b) =
        2 * 2 ^ (k + 1) * g + (2 * i + b) + 2 ^ (k + 1) := by
      rw [show p / 2 ^ k = 2 * g + 1 by omega]; ring
    rw [e2, (h.pair g hg _ hj).snd, hbit]
    ring

/-! ### The layers of the transforms -/

/-- Layers k, …, 1 of NTT and NTTB, which start at ROM index 2^(7-k) (R185, R186). -/
def upTransform (k : Nat) (f : Nat → Int) : Nat → Int :=
  (upLoops (List.range' 1 k).reverse (2 ^ (7 - k), f)).2

theorem upTransform_succ {k : Nat} (hk : k < 7) (f : Nat → Int) :
    upTransform (k + 1) f = upTransform k (upLayer (k + 1) (2 ^ (6 - k)) f) := by
  rw [upTransform, List.range'_concat, List.reverse_append, List.reverse_singleton,
    List.singleton_append, one_mul, Nat.add_comm 1 k, upLoops_cons ⟨by omega, by omega⟩, sub_succ_eq,
    ← two_pow_seven_sub hk, upTransform]

theorem nttLoop_eq_upTransform (f : Nat → Int) : nttLoop f = barrett ∘ upTransform 7 f := nttLoop_eq f

theorem nttbLoop_eq_upTransform (f : Nat → Int) :
    nttbLoop f = barrett ∘ upTransform 6 (groupLoop ctPlain 128 0 f) := nttbLoop_eq f

/-- Each layer adds at most 2494, so that none wraps (R187, R189). -/
theorem upTransform_exact {k : Nat} (hk : k ≤ 7) {n : Int} {f : Nat → Int}
    (hf : ∀ m, m < 256 → |f m| ≤ n) (hn : n + 2494 * k ≤ 32767) :
    (∀ m, m < 256 → |upTransform k f m| ≤ 32767) ∧
      ∀ p, p < 128 → ∀ b, b < 2 → (upTransform k f (2 * p + b) : Zq) = leafEval k f p b := by
  induction k generalizing n f with
  | zero =>
    exact ⟨fun m hm => (hf m hm).trans (by omega), fun p _ b _ => (leafEval_zero f p b).symm⟩
  | succ k ih =>
    have hup := exactUp_upLayer hk hf (by omega)
    obtain ⟨hbound, hval⟩ := ih (by omega) hup.bound (by push_cast at hn; omega)
    rw [upTransform_succ hk]
    exact ⟨hbound, fun p hp b hb => (hval p hp b hb).trans (hup.leafEval_eq hk hp hb)⟩

section
variable {f : Nat → Int}

theorem barrett_centred {x : Int} (hx : |x| ≤ 32767) : -1664 ≤ barrett x ∧ barrett x ≤ 1664 :=
  barrett_bounds (by have := abs_le.1 hx; omega)

theorem nttLoop_centred (hf : ∀ m, m < 256 → |f m| ≤ 15309) {m : Nat} (hm : m < 256) :
    -1664 ≤ nttLoop f m ∧ nttLoop f m ≤ 1664 := by
  rw [nttLoop_eq_upTransform]
  exact barrett_centred ((upTransform_exact le_rfl hf (by decide)).1 m hm)

theorem cast_nttLoop (hf : ∀ m, m < 256 → |f m| ≤ 15309) {p b : Nat} (hp : p < 128) (hb : b < 2) :
    (nttLoop f (2 * p + b) : Zq) = leafEval 7 f p b := by
  rw [nttLoop_eq_upTransform, Function.comp_apply, cast_barrett]
  exact (upTransform_exact le_rfl hf (by decide)).2 p hp b hb

theorem nttbLoop_centred (hf : ∀ m, m < 256 → |f m| ≤ 11) {m : Nat} (hm : m < 256) :
    -1664 ≤ nttbLoop f m ∧ nttbLoop f m ≤ 1664 := by
  rw [nttbLoop_eq_upTransform]
  exact barrett_centred ((upTransform_exact (by decide) (exactUp_plain hf).bound (by decide)).1 m hm)

theorem cast_nttbLoop (hf : ∀ m, m < 256 → |f m| ≤ 11) {p b : Nat} (hp : p < 128) (hb : b < 2) :
    (nttbLoop f (2 * p + b) : Zq) = leafEval 7 f p b := by
  have h7 := exactUp_plain hf
  rw [nttbLoop_eq_upTransform, Function.comp_apply, cast_barrett,
    (upTransform_exact (by decide) h7.bound (by decide)).2 p hp b hb,
    h7.leafEval_eq (by decide) hp hb]

/-- A centred representative is unique (R126). -/
theorem eq_of_centred {x y : Int} (hx : -1664 ≤ x ∧ x ≤ 1664) (hy : -1664 ≤ y ∧ y ≤ 1664)
    (h : (x : Zq) = y) : x = y := by
  have := cast_eq_iff_dvd.1 h
  omega

theorem nttbLoop_eq_nttLoop (hf : ∀ m, m < 256 → |f m| ≤ 11) {m : Nat} (hm : m < 256) :
    nttbLoop f m = nttLoop f m := by
  have hf' : ∀ m, m < 256 → |f m| ≤ 15309 := fun m hm => (hf m hm).trans (by decide)
  refine eq_of_centred (nttbLoop_centred hf hm) (nttLoop_centred hf' hm) ?_
  have hp : m / 2 < 128 := by omega
  have hb : m % 2 < 2 := by omega
  rw [← Nat.div_add_mod m 2, cast_nttbLoop hf hp hb, cast_nttLoop hf' hp hb]

end

/-- At 128 coefficients each the two polynomials are the whole array (R189). -/
theorem leafEval_seven (f : Nat → Int) {p : Nat} (hp : p < 128) (b : Nat) : leafEval 7 f p b =
    (((List.range 128).map fun k => f (2 * k + b) * 17 ^ ((2 * brv7 p + 1) * k)).sum : Int) := by
  rw [← List.sum_toFinset _ List.nodup_range, List.toFinset_range, Int.cast_sum, leafEval]
  refine Finset.sum_congr rfl fun k _ => ?_
  rw [show p / 2 ^ 7 = 0 from Nat.div_eq_of_lt hp, Nat.mul_zero, Nat.zero_add, leafRoot, ← pow_mul]
  push_cast
  rfl

/-- Settles O17: the last layer leaves blocks of one coefficient each, their own values, and no layer
changes a value. -/
theorem nttIsExact : Obligations.NttIsExact := by
  intro s d a f hd ha hf hb
  have hbound : ∀ m, m < 256 → |f m| ≤ 15309 := fun m hm => abs_le.2 (hb m hm)
  obtain ⟨t, ht, hw⟩ := nttResult s d a f hd ha hf
  refine ⟨t, _, ht, hw, fun p b hp hb => ?_⟩
  obtain ⟨hlo, hhi⟩ := nttLoop_centred hbound (m := 2 * p + b) (by omega)
  exact ⟨hlo, hhi, cast_eq_iff_dvd.1 ((cast_nttLoop hbound hp hb).trans (leafEval_seven f hp b))⟩

/-- Settles O18: both transforms leave the centred representatives of the same values. -/
theorem nttbEqualsNtt : Obligations.NttbEqualsNtt := by
  intro s d a f hd ha hf hb
  have hbound : ∀ m, m < 256 → |f m| ≤ 11 := fun m hm => abs_le.2 (hb m hm)
  have hF : forwardNttB ((List.range 256).map f) = forwardNtt ((List.range 256).map f) := by
    rw [forwardNttB_eq, forwardNtt_eq]
    exact List.map_congr_left fun m hm => nttbLoop_eq_nttLoop hbound (List.mem_range.1 hm)
  have hnttb : exec (.nttb d a) s = .next (finishSlot d (forwardNttB ((List.range 256).map f)) s) :=
    slotCommand_completes (by simp [Instr.wf, Instr.slotsUsed, hd, ha]) hf
  have hntt : exec (.ntt d a) s = .next (finishSlot d (forwardNtt ((List.range 256).map f)) s) :=
    slotCommand_completes (by simp [Instr.wf, Instr.slotsUsed, hd, ha]) hf
  exact ⟨_, hF ▸ hnttb, hntt⟩

end Sys2Proof.Machine
end

section
/-! PROOFS. INTT undoes NTT but for the factor 128 (42_ntt.md R184, R188, R190, R191). -/

namespace Sys2Proof.Machine

/-! ### One butterfly -/

/-- `r` is the exact inverse butterfly of `a` and `b` with the factor `ζ` mod q, and as small as an
input of the next layer must be (R191). -/
structure ExactGs (ζ : Zq) (a b : Int) (r : Int × Int) : Prop where
  bound : |r.1| ≤ 16383 ∧ |r.2| ≤ 16383
  fst : (r.1 : Zq) = a + b
  snd : (r.2 : Zq) = (b - a) * ζ

theorem exactGs_gs {a b : Int} {i : Nat} (ha : |a| ≤ 16383) (hb : |b| ≤ 16383) (hi : i < 128) :
    ExactGs (zeta i) a b (gs (zrom i) a b) := by
  have ha' := abs_le.1 ha
  have hb' := abs_le.1 hb
  have hsum : -32768 ≤ a + b ∧ a + b < 32768 := by omega
  have hdiff : -32768 ≤ b - a ∧ b - a < 32768 := by omega
  obtain ⟨hlo1, hhi1⟩ := barrett_bounds hsum
  obtain ⟨hlo2, hhi2⟩ := montMul_zrom_bounds hdiff hi
  rw [gs, wrap16_of_fits hsum, wrap16_of_fits hdiff]
  refine ⟨⟨abs_le.2 (by omega), abs_le.2 (by omega)⟩, ?_, ?_⟩
  · rw [cast_barrett, Int.cast_add]
  · rw [cast_montMul_zrom hdiff hi, Int.cast_sub, mul_comm]

/-! ### One layer -/

theorem down_index_lt (k g : Nat) : 2 ^ (7 - k) - 1 - g < 128 := by
  have h : 2 ^ (7 - k) ≤ 2 ^ 7 := Nat.pow_le_pow_right (by decide) (Nat.sub_le 7 k)
  omega

/-- Layer k + 1 of INTT takes c times what layer k + 1 of NTT leaves of `f` to 2 c times `f`. -/
theorem downLayer_of_exactUp {k : Nat} (hk : k < 7) {n : Int} {c : Zq} {f f' h : Nat → Int}
    (hup : ExactUp k n f f') (hb : ∀ m, m < 256 → |h m| ≤ 16383)
    (hv : ∀ m, m < 256 → (h m : Zq) = c * f' m) :
    (∀ m, m < 256 → |downLayer (k + 1) (2 ^ (7 - k) - 1) h m| ≤ 16383) ∧
      ∀ m, m < 256 → (downLayer (k + 1) (2 ^ (7 - k) - 1) h m : Zq) = c * 2 * f m := by
  have hs := groups_mul_span_succ hk
  have hl := isLayer_downLayer (k + 1) (2 ^ (7 - k) - 1) h
  rw [sub_succ_eq] at hl
  refine ⟨hl.forall_lt hs (P' := (|·| ≤ 16383)) hb fun g _ a b ha hb =>
    (exactGs_gs ha hb (down_index_lt k g)).bound, fun m hm => ?_⟩
  obtain ⟨g, hg, j, hj, hmj⟩ := exists_pair_index hs hm
  obtain ⟨hlt1, hlt2⟩ := pair_index_lt hs hg hj
  have hmirror := zeta_mul_mirror hk hg
  obtain ⟨-, hfst, hsnd⟩ := exactGs_gs (hb _ hlt1) (hb _ hlt2) (down_index_lt k g)
  obtain ⟨e1, e2⟩ := hl.pair g hg j hj
  have ha := hv _ hlt1
  have hb := hv _ hlt2
  rw [(hup.pair g hg j hj).fst] at ha
  rw [(hup.pair g hg j hj).snd] at hb
  rw [← e1, ha, hb] at hfst
  rw [← e2, ha, hb] at hsnd
  obtain rfl | rfl := hmj
  · rw [hfst]
    ring
  · rw [hsnd]
    linear_combination (-2 * c * f (2 * 2 ^ (k + 1) * g + j + 2 ^ (k + 1))) * hmirror

/-! ### The layers of INTT -/

/-- Layers 1, …, k of INTT (R188). -/
def downTransform (k : Nat) (f : Nat → Int) : Nat × (Nat → Int) :=
  downLoops (List.range' 1 k) (127, f)

theorem downTransform_succ {k : Nat} (hk : k < 7) (f : Nat → Int) :
    downTransform (k + 1) f = layerSteps Nat.pred (fun i => gs (zrom i)) (2 ^ (k + 1)) (2 ^ (6 - k))
      (downTransform k f) := by
  rw [downTransform, downLoops, layerLoops, List.range'_concat, List.foldl_append, one_mul,
    Nat.add_comm 1 k, List.foldl_cons, List.foldl_nil, groups_eq_two_pow ⟨by omega, by omega⟩,
    sub_succ_eq]
  rfl

theorem downTransform_fst {k : Nat} (hk : k ≤ 7) (f : Nat → Int) :
    (downTransform k f).1 = 2 ^ (7 - k) - 1 := by
  induction k with
  | zero => rfl
  | succ k ih =>
    have hi := two_pow_seven_sub hk
    rw [downTransform_succ hk, ← Prod.mk.eta (p := downTransform k f), layerSteps_fst,
      Nat.pred_iterate, ih (by omega), sub_succ_eq]
    omega

theorem downTransform_succ_snd {k : Nat} (hk : k < 7) (f : Nat → Int) :
    (downTransform (k + 1) f).2 = downLayer (k + 1) (2 ^ (7 - k) - 1) (downTransform k f).2 := by
  rw [downTransform_succ hk, downLayer, sub_succ_eq, ← downTransform_fst hk.le f]

theorem inttLoop_eq_downTransform (f : Nat → Int) : inttLoop f = barrett ∘ (downTransform 7 f).2 :=
  inttLoop_eq f

/-- Layers 1, …, k of INTT undo layers k, …, 1 of NTT, innermost first, with a factor 2 each. -/
theorem downTransform_upTransform {k : Nat} (hk : k ≤ 7) {n : Int} {f h : Nat → Int}
    (hf : ∀ m, m < 256 → |f m| ≤ n) (hn : n + 2494 * k ≤ 32767) (hb : ∀ m, m < 256 → |h m| ≤ 16383)
    (hv : ∀ m, m < 256 → (h m : Zq) = upTransform k f m) :
    (∀ m, m < 256 → |(downTransform k h).2 m| ≤ 16383) ∧
      ∀ m, m < 256 → ((downTransform k h).2 m : Zq) = 2 ^ k * f m := by
  induction k generalizing n f with
  | zero => exact ⟨hb, fun m hm => by rw [pow_zero, one_mul]; exact hv m hm⟩
  | succ k ih =>
    have hup := exactUp_upLayer hk hf (by omega)
    rw [upTransform_succ hk] at hv
    obtain ⟨hb', hv'⟩ := ih (by omega) hup.bound (by push_cast at hn; omega) hv
    rw [downTransform_succ_snd hk, pow_succ]
    exact downLayer_of_exactUp hk hup hb' hv'

section
variable {f : Nat → Int} (hf : ∀ m, m < 256 → |f m| ≤ 15309)
include hf

theorem inttLoop_nttLoop {m : Nat} (hm : m < 256) :
    (-1664 ≤ inttLoop (nttLoop f) m ∧ inttLoop (nttLoop f) m ≤ 1664) ∧
      (3329 : Int) ∣ inttLoop (nttLoop f) m - 128 * f m := by
  have hb : ∀ m, m < 256 → |nttLoop f m| ≤ 16383 := fun m hm =>
    (abs_le.2 (nttLoop_centred hf hm)).trans (by decide)
  have hv : ∀ m, m < 256 → (nttLoop f m : Zq) = upTransform 7 f m := fun m _ => by
    rw [nttLoop_eq_upTransform, Function.comp_apply, cast_barrett]
  obtain ⟨hbound, hval⟩ := downTransform_upTransform le_rfl hf (by decide) hb hv
  rw [inttLoop_eq_downTransform]
  refine ⟨barrett_centred ((hbound m hm).trans (by decide)), cast_eq_iff_dvd.1 ?_⟩
  rw [Function.comp_apply, cast_barrett, hval m hm]
  norm_num

end

theorem WroteSlot.params {d : SlotNo} {h : Nat → Int} {s t : State} (hw : WroteSlot d h s t) :
    t.params = s.params := by
  obtain ⟨hc, -⟩ := hw
  rw [CompletedFrom] at hc
  rw [hc]

/-- Settles O19: slot D between the two commands holds what NTT leaves, centred. -/
theorem inttNttScales128 : Obligations.InttNttScales128 := by
  intro s d e a f hd he ha hf hb
  have hbound : ∀ m, m < 256 → |f m| ≤ 15309 := fun m hm => abs_le.2 (hb m hm)
  obtain ⟨t, ht, hwt⟩ := nttResult s d a f hd ha hf
  have hp := hwt.params
  obtain ⟨-, -, hslot, -⟩ := hwt
  obtain ⟨u, hu, -, -, hslot', -⟩ := inttResult t e d _ (hp ▸ he) (hp ▸ hd) hslot
  refine ⟨t, u, _, ht, hu, hslot', fun m hm => ?_⟩
  obtain ⟨⟨hlo, hhi⟩, hdvd⟩ := inttLoop_nttLoop hbound hm
  exact ⟨hlo, hhi, hdvd⟩

end Sys2Proof.Machine
end

section
/-! PROOFS. CBD (43_sampler.md R235 to R237). -/

namespace Sys2Proof.Machine

/-! ### The weight of a stretch of the bit stream -/

theorem bitOf_lt_two (b : Nat → Byte) (k : Nat) : bitOf b k < 2 := Nat.mod_lt _ (by decide)

/-- The bits a to a + n - 1 of the stream of whole bytes (R235). -/
theorem take_drop_byteStream (b : Nat → Byte) {m a n : Nat} (h : a + n ≤ 8 * m) :
    ((byteStream ((List.range m).map b)).drop a).take n =
      (List.range n).map fun j => bitOf b (a + j) == 1 := by
  refine List.ext_getElem? fun j => ?_
  by_cases hj : j < n
  · have hbyte : (a + j) / 8 < m := by omega
    rw [List.getElem?_take_of_lt hj, List.getElem?_drop, getElem?_byteStream]
    simp [hj, hbyte, bitOf]
  · rw [List.getElem?_eq_none (by simp; omega), List.getElem?_eq_none (by simpa using hj)]

theorem count_true_eq_sum (g : Nat → Nat) (hg : ∀ j, g j < 2) (l : List Nat) :
    (l.map fun j => g j == 1).count true = (l.map g).sum := by
  induction l with
  | nil => rfl
  | cons j l ih =>
    have hj := hg j
    rw [List.map_cons, List.count_cons, ih, List.map_cons, List.sum_cons, Nat.add_comm]
    congr 1
    interval_cases g j <;> rfl

theorem count_take_drop_byteStream (b : Nat → Byte) {m a n : Nat} (h : a + n ≤ 8 * m) :
    (((byteStream ((List.range m).map b)).drop a).take n).count true =
      ((List.range n).map fun j => bitOf b (a + j)).sum := by
  rw [take_drop_byteStream b h, count_true_eq_sum _ fun j => bitOf_lt_two b (a + j)]

/-! ### The coefficients -/

/-- Coefficient i: the weight of bits 2 eta i to 2 eta i + eta - 1 of the stream, less that of the next
eta bits (R236). -/
def cbdDiff (eta : Nat) (b : Nat → Byte) (i : Nat) : Int :=
  (((List.range eta).map fun j => bitOf b (2 * eta * i + j)).sum : Int) -
    (((List.range eta).map fun j => bitOf b (2 * eta * i + eta + j)).sum : Int)

theorem getD_cbdSample (b : Nat → Byte) {eta i : Nat} (hi : i < 256) :
    (cbdSample eta ((List.range (64 * eta)).map b)).getD i 0 = cbdDiff eta b i := by
  have hend : 2 * eta * (i + 1) ≤ 2 * eta * 256 := Nat.mul_le_mul_left _ hi
  rw [Nat.mul_succ] at hend
  have hfield := getElem?_fields (2 * eta) 256 i (byteStream ((List.range (64 * eta)).map b)) hi
  rw [cbdSample, List.getD_eq_getElem?_getD, List.getElem?_map, hfield, Option.map_some,
    Option.getD_some, cbdCoeff, List.take_take, List.drop_take, List.drop_drop,
    Nat.min_eq_left (by omega), show 2 * eta - eta = eta by omega,
    count_take_drop_byteStream b (by omega), count_take_drop_byteStream b (by omega), cbdDiff]

theorem sum_bitOf_le (b : Nat → Byte) (n a : Nat) :
    ((List.range n).map fun j => bitOf b (a + j)).sum ≤ n := by
  rw [← count_true_eq_sum _ fun j => bitOf_lt_two b (a + j)]
  exact List.count_le_length.trans (by simp)

theorem cbdDiff_bounds (eta : Nat) (b : Nat → Byte) (i : Nat) :
    -(eta : Int) ≤ cbdDiff eta b i ∧ cbdDiff eta b i ≤ eta := by
  have hplus := sum_bitOf_le b eta (2 * eta * i)
  have hminus := sum_bitOf_le b eta (2 * eta * i + eta)
  rw [cbdDiff]
  omega

/-- Coefficients this small fit slot D whole. -/
theorem cbdCommand_wroteSlot {i : Instr} {d : SlotNo} {s : State} {b : Nat → Byte} {eta : Nat}
    (hw : i.wf s.params = true) (hb : HoldsBbuf s.mem (64 * eta) b) (heta : eta ≤ 3) :
    ∃ t, bbufCommand i (64 * eta) d (cbdSample eta) s = .next t ∧ WroteSlot d (cbdDiff eta b) s t := by
  refine ⟨_, bbufCommand_completes hw hb,
    wroteSlot_finishSlot s (length_cbdSample _ _) fun k hk => ?_⟩
  have hbounds := cbdDiff_bounds eta b k
  rw [getD_cbdSample b hk, wrap16_of_fits (by omega)]

/-- Settles O23: the two halves of a field of the stream have at most eta bits each. -/
theorem cbdResult : Obligations.CbdResult := by
  intro s d b hd x hx hb
  have hcbd : ∃ t, exec x.2 s = .next t ∧ WroteSlot d (cbdDiff x.1 b) s t := by
    obtain rfl | rfl : x = (2, Instr.cbd2 d) ∨ x = (3, .cbd3 d) := by simpa using hx
    · exact cbdCommand_wroteSlot (i := .cbd2 d) (by simpa [Instr.wf, Instr.slotsUsed] using hd) hb
        (Nat.le_succ 2)
    · exact cbdCommand_wroteSlot (i := .cbd3 d) (by simpa [Instr.wf, Instr.slotsUsed] using hd) hb
        le_rfl
  obtain ⟨t, ht, hw⟩ := hcbd
  exact ⟨t, _, ht, hw, fun i _ => ⟨rfl, cbdDiff_bounds x.1 b i⟩⟩

end Sys2Proof.Machine
end

section
/-! PROOFS. The single steps of a REJ and the XOF_DATA write (43_sampler.md R221 to R227). -/

namespace Sys2Proof.Machine

/-! ### The XOF_DATA write -/

@[simp] theorem hostWrite_xofData (v : Word) (s : State) : hostWrite 0x020 v s = writeXofData v s :=
  rfl

/-- The engine once a stall is lifted (R226). -/
def Engine.resumed : Engine → Engine
  | .xwait w => .exec w
  | e => e

theorem wake_of_three_le {s : State} (h : 3 ≤ s.fifo.length) :
    wake s = { s with engine := s.engine.resumed } := by
  obtain ⟨w, he, hw⟩ | ⟨hx, hw⟩ := wake_cases s
  · rw [hw, he]
    rfl
  · have hr : s.engine.resumed = s.engine := by
      cases he : s.engine with
      | xwait w => exact absurd (hx w he) (Nat.not_lt.2 h)
      | idle | exec w => rfl
    rw [hw, hr]

theorem writeXofData_of_room (v : Word) {s : State} (h : s.fifo.length + 4 ≤ s.params.fifoBytes) :
    writeXofData v s =
      { s with fifo := s.fifo ++ wordBytes v, engine := s.engine.resumed } := by
  rw [writeXofData, if_pos h, wake_of_three_le (by simp [wordBytes])]

/-- Settles O46: four bytes more are three at least, so that the write lifts any stall. -/
theorem xofDataWriteRule : Obligations.XofDataWriteRule := by
  intro s lanes v low hl
  rw [step_offering_write lanes v (by decide) hl, hostWrite_xofData]
  split
  · rename_i hroom
    rw [writeXofData_of_room v hroom]
    cases s.engine <;> rfl
  · rename_i hfull
    rw [writeXofData, if_neg hfull, hostError_eq_afterHostError]

/-! ### The steps of a REJ -/

/-- Settles O24: the start, once the slot number has passed its check. -/
theorem rejStarts : Obligations.RejStarts := fun _ _ hd =>
  checked_of_wf (by simpa [Instr.wf, Instr.slotsUsed] using hd) _

/-- Offering candidates in order appends those below q, as far as there is room (R224, R225). -/
theorem foldl_accept (buf : List Half) (cs : List Nat) :
    cs.foldl accept buf = buf ++
      ((cs.filter fun c => decide (c < 3329)).map (BitVec.ofNat 16)).take (256 - buf.length) := by
  induction cs generalizing buf with
  | nil => simp
  | cons c cs ih =>
    rw [List.foldl_cons, ih, accept]
    by_cases hc : c < 3329
    · by_cases hl : buf.length < 256
      · have hroom : 256 - buf.length = 256 - (buf.length + 1) + 1 := by omega
        simp [hc, hl, hroom]
      · simp [hl, Nat.sub_eq_zero_of_le (Nat.not_lt.1 hl)]
    · simp [hc]

theorem rejStep_of_triple {w : Word} {s : State} {b0 b1 b2 : Byte} {rest : List Byte}
    (hl : s.rejBuf.length < 256) (hf : s.fifo = b0 :: b1 :: b2 :: rest) :
    rejStep w s = rejTriple b0 b1 b2 rest s := by
  rw [rejStep, if_neg (Nat.ne_of_lt hl), hf]

theorem rejStep_of_short {w : Word} {s : State} (hl : s.rejBuf.length < 256)
    (hf : s.fifo.length < 3) : rejStep w s = rejWait w s := by
  obtain ⟨hfull, -⟩ | ⟨-, b0, b1, b2, rest, hf', -⟩ | ⟨-, -, h⟩ := rejStep_cases w s
  · exact absurd hfull (Nat.ne_of_lt hl)
  · rw [hf'] at hf
    simp only [List.length_cons] at hf
    omega
  · exact h

/-- The turn of an engine that runs a REJ (R225). -/
theorem step_exec {s : State} {w : Word} (hT : EngineTurn s) (he : s.engine = .exec w) :
    step s = .next (rejStep w { s with script := s.script.drop 1 }) := by
  rw [step_of_engineTurn hT, engineStep, he]

/-- Settles O25: the two candidates are offered in order. -/
theorem rejTakesTriple : Obligations.RejTakesTriple := by
  intro s w d b0 b1 b2 rest hT he _ hl hf
  rw [step_exec hT he, rejStep_of_triple (s := { s with script := s.script.drop 1 }) hl hf,
    rejTriple]
  have hbuf := foldl_accept s.rejBuf [(candidates b0 b1 b2).1, (candidates b0 b1 b2).2]
  simp only [List.foldl_cons, List.foldl_nil] at hbuf
  rw [hbuf]
  rfl

/-- Settles O26: with fewer than three bytes no triple can be taken and no stall lifted. -/
theorem rejWaits : Obligations.RejWaits := by
  refine ⟨fun s w d hT he _ hl hf => ?_, fun s w d hT he _ hf => ?_, fun s hT he hq => ?_⟩
  · rw [step_exec hT he, rejStep_of_short (s := { s with script := s.script.drop 1 }) hl hf,
      rejWait]
  · rw [step_of_engineTurn hT, engineStep, he]
    simp only [wake, if_neg (Nat.not_le.2 hf)]
  · rw [step_of_engineTurn hT, engineStep, he, hq]

theorem fieldD_of_decode_rej {w : Word} {d : SlotNo} (h : decode w = .ok (.rej d)) :
    fieldD w = d := by
  rw [← encodeDecode w _ h, encode, fieldD_packWord]

/-- Settles O27: the slot of the word is D, and what rej_buf holds are int16 values. -/
theorem rejCompletes : Obligations.RejCompletes := by
  intro s w d hT he hd hl
  refine ⟨rejComplete d { s with script := s.script.drop 1 }, ?_, ?_, fun i hi => ?_, ?_⟩
  · rw [step_exec hT he, rejStep, if_pos hl, fieldD_of_decode_rej hd]
  · rw [rejComplete_eq]
  · rw [rejComplete_eq]
    have hi' : i < (s.rejBuf.map BitVec.toInt).length := by simpa [hl] using hi
    have := coeff_storeSlot_same s.mem d (s.rejBuf.map BitVec.toInt) i hi'
    simp only [this, List.getElem_map, wrap16_of_fits (toInt_bounds _)]
    simp [hl, hi]
  · rw [rejComplete_eq]
    exact sameOutside_storeSlot s.mem d (by simpa using hl)

end Sys2Proof.Machine
end

section
/-! PROOFS. The accepted candidates of a byte stream, triple after triple (43_sampler.md R223, R224). -/

namespace Sys2Proof.Machine

theorem acceptedOf_of_short {bs : List Byte} (h : bs.length < 3) : acceptedOf bs = [] :=
  match bs, h with
  | [], _ | [_], _ | [_, _], _ => rfl

/-- A stream is cut between two triples. -/
theorem acceptedOf_take_append_drop (n : Nat) (bs : List Byte) :
    acceptedOf bs = acceptedOf (bs.take (3 * n)) ++ acceptedOf (bs.drop (3 * n)) := by
  induction n generalizing bs with
  | zero => rfl
  | succ n ih =>
    by_cases h : bs.length < 3
    · rw [List.take_of_length_le (by omega), List.drop_eq_nil_of_le (by omega),
        acceptedOf_of_short (bs := []) (by decide), List.append_nil]
    · match bs with
      | b0 :: b1 :: b2 :: bs =>
        rw [Nat.mul_succ, List.take_succ_cons, List.take_succ_cons, List.take_succ_cons,
          List.drop_succ_cons, List.drop_succ_cons, List.drop_succ_cons, acceptedOf, acceptedOf,
          List.append_assoc, ← ih]
      | [] | [_] | [_, _] => simp at h

/-- One triple more. -/
theorem acceptedOf_take_succ {n : Nat} {bs rest : List Byte} {b0 b1 b2 : Byte}
    (h : bs.drop (3 * n) = b0 :: b1 :: b2 :: rest) :
    acceptedOf (bs.take (3 * (n + 1))) = acceptedOf (bs.take (3 * n)) ++
      [b0.toNat + 256 * (b1.toNat % 16), b1.toNat / 16 + 16 * b2.toNat].filter
        (fun c => decide (c < 3329)) := by
  rw [acceptedOf_take_append_drop n, List.take_take, Nat.min_eq_left (by omega), List.drop_take, h,
    show 3 * (n + 1) - 3 * n = 3 by omega]
  simp [acceptedOf]

theorem lt_of_mem_acceptedOf {bs : List Byte} {c : Nat} (h : c ∈ acceptedOf bs) : c < 3329 := by
  induction bs using acceptedOf.induct with
  | case1 b0 b1 b2 rest ih =>
    rw [acceptedOf, List.mem_append, List.mem_filter] at h
    obtain ⟨-, hc⟩ | h := h
    · exact of_decide_eq_true hc
    · exact ih h
  | case2 bs hbs =>
    rw [acceptedOf] at h
    · cases h
    · exact hbs

theorem toInt_ofNat_of_lt {c : Nat} (h : c < 32768) : (BitVec.ofNat 16 c).toInt = c := by
  rw [BitVec.toInt_eq_toNat_of_lt, BitVec.toNat_ofNat, Nat.mod_eq_of_lt (by omega)]
  rw [BitVec.toNat_ofNat]
  omega

end Sys2Proof.Machine
end

section
/-! PROOFS. A host access or a turn of the engine that feeds a REJ (43_sampler.md R221, R226, R228;
20_memory.md R69). -/

namespace Sys2Proof.Machine

/-! ### Runs -/

theorem run_succ_of_step {s u : State} (h : step s = .next u) (k : Nat) :
    Host.Core.run Sys2Proof.core (k + 1) s = Host.Core.run Sys2Proof.core k u := by
  have hc : Sys2Proof.core.step s = .next u := h
  simp only [Host.Core.run, hc]

/-- Some number of steps reaches a state with `P`. -/
def RunsTo (s : State) (P : State → Prop) : Prop :=
  ∃ k t, Host.Core.run Sys2Proof.core k s = .next t ∧ P t

theorem RunsTo.here {s : State} {P : State → Prop} (h : P s) : RunsTo s P := ⟨0, s, rfl, h⟩

theorem RunsTo.step {s u : State} {P : State → Prop} (hs : step s = .next u) (h : RunsTo u P) :
    RunsTo s P := by
  obtain ⟨k, t, hr, ht⟩ := h
  exact ⟨k + 1, t, (run_succ_of_step hs k).trans hr, ht⟩

theorem KeepsRoom.step {s u : State} (h : KeepsRoom s) (hs : step s = .next u)
    (hc : u.cmdCount = s.cmdCount) : KeepsRoom u := by
  intro j t addr lanes v sc hr hcount
  exact h (j + 1) t addr lanes v sc ((run_succ_of_step hs j).trans hr) (hcount.trans hc)

/-! ### The bytes to come -/

/-- The bytes that a REJ is still to take from: those in the FIFO, then those to be written. -/
def State.incoming (s : State) : List Byte := s.fifo ++ pushedBytes s.params s.script

theorem pushedBytes_of_engineTurn {s : State} (hT : EngineTurn s) (p : Params) :
    pushedBytes p (s.script.drop 1) = pushedBytes p s.script := by
  obtain h | ⟨sc, h⟩ := hT <;> rw [h] <;> rfl

theorem pushedBytes_write (p : Params) (addr : Nat) (lanes : BitVec 4) (v : Word) (sc : List Event) :
    pushedBytes p (.host (.write addr lanes v) :: sc) =
      (if blockOffset p addr = some 0x020 then wordBytes v else []) ++ pushedBytes p sc := rfl

/-! ### Steps beside a REJ -/

/-- What a REJ's steps before its completion leave as it was. -/
structure SameSoFar (s u : State) : Prop where
  params : u.params = s.params
  mem : u.mem = s.mem
  cmdCount : u.cmdCount = s.cmdCount
  done : u.irq.done = s.irq.done

/-- `v` is `u` after a step that leaves a REJ alone, but for the bytes it brings and the stall it lifts
with them. -/
structure FedBy (u v : State) : Prop where
  same : SameSoFar u v
  cmdq : v.cmdq = u.cmdq
  rejBuf : v.rejBuf = u.rejBuf
  rejUsed : v.rejUsed = u.rejUsed
  incoming : v.incoming = u.incoming
  engine : (v.engine = u.engine ∧ v.fifo = u.fifo) ∨ v.engine = u.engine.resumed

theorem fedBy_of_engineTurn {u : State} (hT : EngineTurn u) :
    FedBy u { u with script := u.script.drop 1 } where
  same := ⟨rfl, rfl, rfl, rfl⟩
  cmdq := rfl
  rejBuf := rfl
  rejUsed := rfl
  incoming := congrArg (u.fifo ++ ·) (pushedBytes_of_engineTurn hT u.params)
  engine := .inl ⟨rfl, rfl⟩

theorem lockedOffset_of_locked {p : Params} {off : Nat} (h : (portAt p off).locked = true) :
    LockedOffset p off := by
  obtain h | h | h | h := (locked_iff _).1 h
  · exact .inl ((portAt_eq_iff (by decide)).1 h)
  · exact .inr (.inl ((portAt_eq_iff (by decide)).1 h))
  · exact .inr (.inr (.inl ((portAt_eq_iff (by decide)).1 h)))
  · have hw := inWindow_of_portAt h
    rw [inWindow, Bool.or_eq_true, decide_eq_true_iff, decide_eq_true_iff, bbufBase, slotBase,
      slotBase] at hw
    refine .inr (.inr (.inr ?_))
    rw [WindowOffset]
    omega

/-- A read of no locked resource answers a value and does nothing else (R69). -/
theorem hostRead_of_not_lockedOffset {off : Nat} {s : State} (h : ¬ LockedOffset s.params off) :
    ∃ v, hostRead off s = .next { s with rdata := v } := by
  have hl : (portAt s.params off).locked = false :=
    Bool.eq_false_iff.2 fun hl => h (lockedOffset_of_locked hl)
  rw [hostRead]
  cases hp : portAt s.params off with
  | sa | sb | sr | storage => rw [hp] at hl; cases hl
  | _ => exact ⟨_, rfl⟩

theorem step_read_fed {u : State} {addr : Nat} {sc : List Event}
    (hs : u.script = .host (.read addr) :: sc) (hf : FeedsRej u.params (.host (.read addr))) :
    ∃ v, step u = .next v ∧ FedBy u v := by
  have hin : u.fifo ++ pushedBytes u.params sc = u.incoming := by rw [State.incoming, hs]; rfl
  rw [step, hs]
  simp only [hostAccess]
  cases ho : blockOffset u.params addr with
  | none => exact ⟨_, rfl, ⟨rfl, rfl, rfl, rfl⟩, rfl, rfl, rfl, hin, .inl ⟨rfl, rfl⟩⟩
  | some off =>
    obtain ⟨v, hv⟩ := hostRead_of_not_lockedOffset (s := { u with script := sc }) (hf off ho)
    exact ⟨_, hv, ⟨rfl, rfl, rfl, rfl⟩, rfl, rfl, rfl, hin, .inl ⟨rfl, rfl⟩⟩

theorem step_write_fed {u : State} {addr : Nat} {lanes : BitVec 4} {v : Word} {sc : List Event}
    (hs : u.script = .host (.write addr lanes v) :: sc)
    (hf : FeedsRej u.params (.host (.write addr lanes v))) (hr : KeepsRoom u) :
    ∃ t, step u = .next t ∧ FedBy u t := by
  have hin : u.incoming = u.fifo ++
      ((if blockOffset u.params addr = some 0x020 then wordBytes v else []) ++
        pushedBytes u.params sc) := by
    rw [State.incoming, hs, pushedBytes_write]
  cases ho : blockOffset u.params addr with
  | none =>
    refine ⟨{ u with script := sc }, ?_, ⟨rfl, rfl, rfl, rfl⟩, rfl, rfl, rfl, ?_, .inl ⟨rfl, rfl⟩⟩
    · rw [step, hs]
      simp only [hostAccess, ho]
    · rw [hin, ho]
      rfl
  | some off =>
    rw [step_of_hostWrite hs ho]
    obtain rfl | ⟨rfl, h0⟩ := hf off ho
    · have hroom := hr 0 u addr lanes v sc rfl rfl hs ho
      rw [hostWrite_xofData, writeXofData_of_room (s := { u with script := sc }) v hroom]
      refine ⟨_, rfl, ⟨rfl, rfl, rfl, rfl⟩, rfl, rfl, rfl, ?_, .inr rfl⟩
      rw [hin, if_pos ho, ← List.append_assoc]
      rfl
    · rw [hostWrite_irqStatus, writeIrqStatus_eq]
      refine ⟨_, rfl, ⟨rfl, rfl, rfl, ?_⟩, rfl, rfl, rfl, ?_, .inl ⟨rfl, rfl⟩⟩
      · rw [h0, Bool.not_false, Bool.and_true]
      · rw [hin, ho]
        rfl

/-- What may come next in a run that feeds a REJ: a turn of the engine, or a host access that feeds. -/
theorem engineTurn_or_fed {u : State} (hf : ∀ e ∈ u.script, FeedsRej u.params e)
    (hr : KeepsRoom u) :
    EngineTurn u ∨ (u.script ≠ [] ∧ ∃ v, step u = .next v ∧ FedBy u v) := by
  match hs : u.script with
  | [] => exact .inl (.inl hs)
  | .engine :: sc => exact .inl (.inr ⟨sc, hs⟩)
  | .host (.read addr) :: sc =>
    exact .inr ⟨List.cons_ne_nil _ _, step_read_fed hs (hf _ (by rw [hs]; exact List.mem_cons_self))⟩
  | .host (.write addr lanes v) :: sc =>
    exact .inr ⟨List.cons_ne_nil _ _,
      step_write_fed hs (hf _ (by rw [hs]; exact List.mem_cons_self)) hr⟩
  | .reset :: sc => exact absurd (hf .reset (by rw [hs]; exact List.mem_cons_self)) id

end Sys2Proof.Machine
end

section
/-! PROOFS. A whole REJ (43_sampler.md R225 to R228). -/

namespace Sys2Proof.Machine

/-! ### What holds along the run -/

/-- A state `u` of a run from `s` in which a REJ that has taken `n` triples is still to complete. -/
structure RejPending (s u : State) (n : Nat) : Prop where
  same : SameSoFar s u
  feeds : ∀ e ∈ u.script, FeedsRej u.params e
  room : KeepsRoom u
  incoming : u.incoming = s.incoming.drop (3 * n)

theorem RejPending.step {s u v : State} {n m : Nat} (h : RejPending s u n) (hs : step u = .next v)
    (hv : SameSoFar u v) (hin : v.incoming = u.incoming.drop (3 * m)) : RejPending s v (n + m) where
  same := ⟨hv.params.trans h.same.params, hv.mem.trans h.same.mem, hv.cmdCount.trans h.same.cmdCount,
    hv.done.trans h.same.done⟩
  feeds := by
    obtain ⟨hp, hsc, -⟩ := step_keeps hs
    rw [hp, hsc]
    exact fun e he => h.feeds e (List.mem_of_mem_drop he)
  room := h.room.step hs hv.cmdCount
  incoming := by rw [hin, h.incoming, List.drop_drop, Nat.mul_add]

/-- The REJ is at the head of the queue of an idle engine. -/
structure RejQueued (s : State) (d : SlotNo) (rest : List Word) (u : State) : Prop where
  pending : RejPending s u 0
  engine : u.engine = .idle
  cmdq : u.cmdq = encode (.rej d) :: rest

/-- The REJ has started and has taken `n` triples: rej_buf holds what they give, as far as 256. -/
structure RejRunning (s : State) (d : SlotNo) (rest : List Word) (n : Nat) (u : State) : Prop where
  pending : RejPending s u n
  engine : u.engine = .exec (encode (.rej d)) ∨
    (u.engine = .xwait (encode (.rej d)) ∧ u.fifo.length < 3 ∧ u.rejBuf.length < 256)
  cmdq : u.cmdq = rest
  rejUsed : u.rejUsed = 3 * n
  rejBuf : u.rejBuf = ((acceptedOf (s.incoming.take (3 * n))).take 256).map (BitVec.ofNat 16)
  needed : (acceptedOf (s.incoming.take (3 * (n - 1)))).length < 256

/-- The REJ has completed, after `n` triples. -/
def RejDone (s : State) (d : SlotNo) (rest : List Word) (n : Nat) (t : State) : Prop :=
  HoldsSlot t.mem d (fun i => ((acceptedOf s.incoming).getD i 0 : Nat)) ∧
  SameOutside (0x1000 + 0x200 * d.toNat) 512 s.mem t.mem ∧
  t.engine = .idle ∧ t.cmdq = rest ∧ t.fifo = [] ∧ t.cmdCount = s.cmdCount + 1 ∧
  t.irq.done = (s.irq.done || rest.isEmpty) ∧ t.rejConsumed = BitVec.ofNat 32 (3 * n) ∧
  256 ≤ (acceptedOf (s.incoming.take (3 * n))).length ∧
  (acceptedOf (s.incoming.take (3 * (n - 1)))).length < 256

/-! ### Before the start -/

section
variable {s u v : State} {d : SlotNo} {rest : List Word}

theorem RejQueued.fed (h : RejQueued s d rest u) (hs : step u = .next v) (hf : FedBy u v) :
    RejQueued s d rest v where
  pending := h.pending.step (m := 0) hs hf.same hf.incoming
  engine := by
    obtain ⟨he, -⟩ | he := hf.engine <;> rw [he, h.engine]
    rfl
  cmdq := hf.cmdq.trans h.cmdq

/-- The start (R225). -/
theorem RejQueued.start (h : RejQueued s d rest u) (hd : d.toNat < s.params.slots)
    (hT : EngineTurn u) : ∃ v, step u = .next v ∧ RejRunning s d rest 0 v := by
  have hs := (step_runs_head hT h.engine h.cmdq (decodeEncode _)).trans
    (rejStarts _ d (h.pending.same.params ▸ hd))
  exact ⟨_, hs, h.pending.step (m := 0) hs ⟨rfl, rfl, rfl, rfl⟩
    (congrArg (u.fifo ++ ·) (pushedBytes_of_engineTurn hT u.params)), .inl rfl, rfl, rfl, rfl,
    Nat.zero_lt_succ _⟩

end

/-! ### The running REJ -/

section
variable {s u v : State} {d : SlotNo} {rest : List Word} {n : Nat}

theorem RejRunning.length_rejBuf (h : RejRunning s d rest n u) :
    u.rejBuf.length = min 256 (acceptedOf (s.incoming.take (3 * n))).length := by
  rw [h.rejBuf, List.length_map, List.length_take]

theorem RejRunning.fed (h : RejRunning s d rest n u) (hs : step u = .next v) (hf : FedBy u v) :
    RejRunning s d rest n v where
  pending := h.pending.step (m := 0) hs hf.same hf.incoming
  engine := by
    obtain ⟨he, hb⟩ | he := hf.engine
    · rw [he, hb, hf.rejBuf]
      exact h.engine
    · obtain hx | ⟨hx, -⟩ := h.engine <;> rw [he, hx] <;> exact .inl rfl
  cmdq := hf.cmdq.trans h.cmdq
  rejUsed := hf.rejUsed.trans h.rejUsed
  rejBuf := hf.rejBuf.trans h.rejBuf
  needed := h.needed

/-- A REJ that lacks bytes has some still to come, if the stream gives 256 coefficients. -/
theorem RejRunning.script_ne_nil (h : RejRunning s d rest n u)
    (hacc : 256 ≤ (acceptedOf s.incoming).length) (hl : u.rejBuf.length < 256)
    (hf : u.fifo.length < 3) : u.script ≠ [] := by
  intro hs
  have hin : u.incoming = u.fifo := by rw [State.incoming, hs, pushedBytes, List.append_nil]
  rw [acceptedOf_take_append_drop n, ← h.pending.incoming, hin, acceptedOf_of_short hf,
    List.append_nil] at hacc
  rw [h.length_rejBuf] at hl
  omega

theorem RejRunning.triple (h : RejRunning s d rest n u) (hT : EngineTurn u)
    (he : u.engine = .exec (encode (.rej d))) (hl : u.rejBuf.length < 256) {b0 b1 b2 : Byte}
    {bs : List Byte} (hf : u.fifo = b0 :: b1 :: b2 :: bs) :
    ∃ v, step u = .next v ∧ RejRunning s d rest (n + 1) v := by
  have hs := rejTakesTriple u _ d b0 b1 b2 bs hT he (decodeEncode _) hl hf
  have hlen := h.length_rejBuf
  have hin : s.incoming.drop (3 * n) = b0 :: b1 :: b2 :: (bs ++ pushedBytes u.params u.script) := by
    rw [← h.pending.incoming, State.incoming, hf]
    rfl
  refine ⟨_, hs, h.pending.step (m := 1) hs ⟨rfl, rfl, rfl, rfl⟩ ?_, .inl he, h.cmdq, ?_, ?_, ?_⟩
  · rw [h.pending.incoming, hin, State.incoming]
    dsimp only
    rw [pushedBytes_of_engineTurn hT]
    rfl
  · dsimp only
    rw [h.rejUsed]
    rfl
  · dsimp only
    rw [acceptedOf_take_succ hin, List.take_append, List.map_append, ← h.rejBuf, List.map_take,
      show 256 - (acceptedOf (s.incoming.take (3 * n))).length = 256 - u.rejBuf.length by omega]
  · rw [Nat.add_sub_cancel]
    omega

theorem RejRunning.wait (h : RejRunning s d rest n u) (hT : EngineTurn u)
    (he : u.engine = .exec (encode (.rej d))) (hl : u.rejBuf.length < 256)
    (hf : u.fifo.length < 3) : ∃ v, step u = .next v ∧ RejRunning s d rest n v := by
  have hs := rejWaits.1 u _ d hT he (decodeEncode _) hl hf
  exact ⟨_, hs, h.pending.step (m := 0) hs ⟨rfl, rfl, rfl, rfl⟩
    (congrArg (u.fifo ++ ·) (pushedBytes_of_engineTurn hT u.params)), .inr ⟨rfl, hf, hl⟩, h.cmdq,
    h.rejUsed, h.rejBuf, h.needed⟩

/-- What a full rej_buf holds (R224, R228). -/
theorem RejRunning.toInt_rejBuf (h : RejRunning s d rest n u) (hl : u.rejBuf.length = 256) {i : Nat}
    (hi : i < 256) : (u.rejBuf.getD i 0).toInt = ((acceptedOf s.incoming).getD i 0 : Nat) := by
  have hlen := h.length_rejBuf
  have hi' : i < (acceptedOf (s.incoming.take (3 * n))).length := by omega
  have hc := lt_of_mem_acceptedOf (List.getElem_mem hi')
  rw [acceptedOf_take_append_drop n s.incoming, h.rejBuf, List.getD_append _ _ _ _ hi',
    List.getD_eq_getElem _ _ hi', ← toInt_ofNat_of_lt (hc.trans (by decide))]
  simp [hi, hi']

theorem RejRunning.complete (h : RejRunning s d rest n u) (hT : EngineTurn u)
    (he : u.engine = .exec (encode (.rej d))) (hl : u.rejBuf.length = 256) :
    ∃ v, step u = .next v ∧ RejDone s d rest n v := by
  obtain ⟨t, hs, ht, hslot, hout⟩ := rejCompletes u _ d hT he (decodeEncode _) hl
  have hlen := h.length_rejBuf
  refine ⟨t, hs, fun i hi => ?_, h.pending.same.mem ▸ hout, by rw [ht], by rw [ht, h.cmdq],
    by rw [ht], by rw [ht, h.pending.same.cmdCount], by rw [ht, h.pending.same.done, h.cmdq],
    by rw [ht, h.rejUsed], by omega, h.needed⟩
  dsimp only
  rw [← h.toInt_rejBuf hl hi]
  exact hslot i hi

/-! ### The run -/

/-- What is left to act and to be taken: every step of a running REJ but the last makes it less. -/
def State.rejWork (u : State) : Nat := u.script.length + u.incoming.length

theorem rejWork_lt_of_script (hs : step u = .next v) (hne : u.script ≠ []) :
    v.rejWork < u.rejWork := by
  obtain ⟨hp, hsc, hle⟩ := step_keeps hs
  have hpos := List.length_pos_of_ne_nil hne
  simp only [State.rejWork, State.incoming, List.length_append, hp]
  rw [hsc, List.length_drop]
  rw [hsc] at hle
  omega

theorem RejRunning.rejWork_lt {b0 b1 b2 : Byte} {bs : List Byte} (h : RejRunning s d rest n u)
    (hv : RejRunning s d rest (n + 1) v) (hs : step u = .next v) (hf : u.fifo = b0 :: b1 :: b2 :: bs) :
    v.rejWork < u.rejWork := by
  obtain ⟨-, hsc, -⟩ := step_keeps hs
  have hu := congrArg List.length h.pending.incoming
  have hv := congrArg List.length hv.pending.incoming
  have hlen : 3 ≤ u.incoming.length := by
    rw [State.incoming, hf]
    simp only [List.cons_append, List.length_cons]
    omega
  rw [List.length_drop] at hu hv
  rw [State.rejWork, State.rejWork, hsc, List.length_drop]
  omega

/-- The next step of the run completes the REJ or comes nearer to that (R225 to R227). -/
theorem RejRunning.next (h : RejRunning s d rest n u) (hacc : 256 ≤ (acceptedOf s.incoming).length) :
    ∃ v, step u = .next v ∧
      (RejDone s d rest n v ∨ ∃ m, RejRunning s d rest m v ∧ v.rejWork < u.rejWork) := by
  obtain hT | ⟨hne, v, hs, hf⟩ := engineTurn_or_fed h.pending.feeds h.pending.room
  case inr => exact ⟨v, hs, .inr ⟨n, h.fed hs hf, rejWork_lt_of_script hs hne⟩⟩
  obtain he | ⟨he, hf, hl⟩ := h.engine
  case inr =>
    have hs := rejWaits.2.1 u _ d hT he (decodeEncode _) hf
    exact ⟨_, hs, .inr ⟨n, h.fed hs (fedBy_of_engineTurn hT),
      rejWork_lt_of_script hs (h.script_ne_nil hacc hl hf)⟩⟩
  by_cases hfull : u.rejBuf.length = 256
  · obtain ⟨v, hs, hdone⟩ := h.complete hT he hfull
    exact ⟨v, hs, .inl hdone⟩
  have hl : u.rejBuf.length < 256 := by
    have := h.length_rejBuf
    omega
  match hf : u.fifo with
  | b0 :: b1 :: b2 :: bs =>
    obtain ⟨v, hs, hv⟩ := h.triple hT he hl hf
    exact ⟨v, hs, .inr ⟨n + 1, hv, h.rejWork_lt hv hs hf⟩⟩
  | [] | [_] | [_, _] =>
    have hshort : u.fifo.length < 3 := by simp [hf]
    obtain ⟨v, hs, hv⟩ := h.wait hT he hl hshort
    exact ⟨v, hs, .inr ⟨n, hv, rejWork_lt_of_script hs (h.script_ne_nil hacc hl hshort)⟩⟩

theorem RejRunning.runsTo (h : RejRunning s d rest n u)
    (hacc : 256 ≤ (acceptedOf s.incoming).length) : RunsTo u fun t => ∃ m, RejDone s d rest m t := by
  induction hw : u.rejWork using Nat.strong_induction_on generalizing u n with
  | _ k ih =>
    obtain ⟨v, hs, hdone | ⟨m, hm, hlt⟩⟩ := h.next hacc
    · exact .step hs (.here ⟨n, hdone⟩)
    · exact .step hs (ih _ (hw ▸ hlt) hm rfl)

theorem RejQueued.runsTo (h : RejQueued s d rest u) (hd : d.toNat < s.params.slots)
    (hacc : 256 ≤ (acceptedOf s.incoming).length) : RunsTo u fun t => ∃ m, RejDone s d rest m t := by
  induction hw : u.rejWork using Nat.strong_induction_on generalizing u with
  | _ k ih =>
    obtain hT | ⟨hne, v, hs, hf⟩ := engineTurn_or_fed h.pending.feeds h.pending.room
    · obtain ⟨v, hs, hv⟩ := h.start hd hT
      exact .step hs (hv.runsTo hacc)
    · exact .step hs (ih _ (hw ▸ rejWork_lt_of_script hs hne) (h.fed hs hf) rfl)

end

/-- Settles O28: whatever acts, the triples taken are the first of the stream, and as long as it gives
coefficients that are still needed the engine or the script goes on. -/
theorem rejWholeRun : Obligations.RejWholeRun := by
  intro s d rest he hq hd hf hr stream hacc
  have h : RejQueued s d rest s := ⟨⟨⟨rfl, rfl, rfl, rfl⟩, hf, hr, rfl⟩, he, hq⟩
  obtain ⟨k, t, hrun, n, hdone⟩ := h.runsTo hd hacc
  exact ⟨k, n, t, hrun, hdone⟩

end Sys2Proof.Machine
end

section
/-! PROOFS. The codec ENC and DEC (44_codec.md R260, R262, R264, R267). -/

namespace Sys2Proof.Machine

/-! ### Bits and the numbers they are the bits of -/

theorem eq_of_beq_one_eq {x y : Nat} (hx : x < 2) (hy : y < 2) (h : (x == 1) = (y == 1)) : x = y := by
  rw [beq_eq_beq] at h
  omega

theorem toBits_eq_map_range (n v : Nat) :
    toBits n v = (List.range n).map fun j => v / 2 ^ j % 2 == 1 := by
  refine List.ext_getElem? fun j => ?_
  by_cases hj : j < n
  · rw [getElem?_toBits n v j hj]
    simp [hj]
  · rw [List.getElem?_eq_none (by simpa using hj), List.getElem?_eq_none (by simpa using hj)]

theorem ofBits_map_range (g : Nat → Nat) (hg : ∀ j, g j < 2) (n : Nat) :
    ofBits ((List.range n).map fun j => g j == 1) = ((List.range n).map fun j => g j * 2 ^ j).sum := by
  induction n generalizing g with
  | zero => rfl
  | succ n ih =>
    have hhead : (if g 0 == 1 then 1 else 0) = g 0 := by
      have h0 := hg 0
      interval_cases g 0 <;> rfl
    have htail : ((List.range n).map fun j => g (j + 1) * 2 ^ (j + 1)).sum =
        2 * ((List.range n).map fun j => g (j + 1) * 2 ^ j).sum := by
      rw [← List.sum_map_mul_left]
      simp only [pow_succ', Nat.mul_left_comm]
    have hrest := ih (fun j => g (j + 1)) fun j => hg (j + 1)
    simp only [List.range_succ_eq_map, List.map_cons, List.map_map, Function.comp_def, ofBits,
      List.sum_cons, Nat.succ_eq_add_one, htail, hrest, hhead, pow_zero, mul_one]

/-- Bit j of the number of n bits is the jth of them. -/
theorem ofBits_map_range_bit (p : Nat → Bool) {n j : Nat} (hj : j < n) :
    (ofBits ((List.range n).map p) / 2 ^ j % 2 == 1) = p j := by
  have hbits := toBits_ofBits ((List.range n).map p)
  rw [List.length_map, List.length_range] at hbits
  have hbit := getElem?_toBits n (ofBits ((List.range n).map p)) j hj
  rw [hbits] at hbit
  simpa [hj] using hbit.symm

/-! ### Bytes by the bits of their stream -/

theorem getElem?_byteStream_map_range (b : Nat → Byte) {m k : Nat} (hk : k < 8 * m) :
    (byteStream ((List.range m).map b))[k]? = some (bitOf b k == 1) := by
  have hbyte : k / 8 < m := by omega
  rw [getElem?_byteStream]
  simp [hbyte, bitOf]

/-- Bytes whose streams agree up to bit 8 m - 1 agree up to byte m - 1 (R267). -/
theorem eq_of_bitOf_eq {b c : Nat → Byte} {m : Nat} (h : ∀ k, k < 8 * m → bitOf b k = bitOf c k)
    {k : Nat} (hk : k < m) : b k = c k := by
  refine BitVec.eq_of_getLsbD_eq fun e he => ?_
  have hbit := h (8 * k + e) (by omega)
  rw [bitOf, bitOf, show (8 * k + e) / 8 = k by omega, show (8 * k + e) % 8 = e by omega] at hbit
  rw [BitVec.getLsbD, BitVec.getLsbD, Nat.testBit_eq_decide_div_mod_eq,
    Nat.testBit_eq_decide_div_mod_eq, hbit]

/-! ### The commands of the codec -/

/-- The command i is one of the codec's: it runs as `run`, ENC or DEC, with the width n on slot r
(R93). -/
structure IsCodec (run : Instr → Nat → SlotNo → State → Result) (r : SlotNo) (n : Nat) (i : Instr) :
    Prop where
  exec_eq : exec i = run i n r
  slotsUsed : i.slotsUsed = [r]
  pos : 0 < n
  le : n ≤ 12

theorem IsCodec.wf {run : Instr → Nat → SlotNo → State → Result} {r : SlotNo} {n : Nat} {i : Instr}
    {p : Params} (h : IsCodec run r n i) (hr : r.toNat < p.slots) : i.wf p = true := by
  simpa [Instr.wf, h.slotsUsed] using hr

theorem isCodec_enc (a : SlotNo) : ∀ x ∈ [(1, Instr.enc1 a), (4, .enc4 a), (5, .enc5 a),
    (10, .enc10 a), (11, .enc11 a), (12, .enc12 a)], IsCodec encCommand a x.1 x.2 := by
  intro x hx
  simp only [List.mem_cons, List.not_mem_nil, or_false] at hx
  obtain rfl | rfl | rfl | rfl | rfl | rfl := hx <;> exact ⟨rfl, rfl, by simp, by simp⟩

theorem isCodec_dec (d : SlotNo) : ∀ x ∈ [(1, Instr.dec1 d), (4, .dec4 d), (5, .dec5 d),
    (10, .dec10 d), (11, .dec11 d), (12, .dec12 d)], IsCodec decCommand d x.1 x.2 := by
  intro x hx
  simp only [List.mem_cons, List.not_mem_nil, or_false] at hx
  obtain rfl | rfl | rfl | rfl | rfl | rfl := hx <;> exact ⟨rfl, rfl, by simp, by simp⟩

/-! ### ENC -/

/-- The bytes ENC writes, as a function of their index. -/
def encByte (n : Nat) (f : Nat → Int) (k : Nat) : Byte :=
  (byteEncode n ((List.range 256).map f)).getD k 0

theorem byteEncode_eq_map_range (n : Nat) (f : Nat → Int) :
    byteEncode n ((List.range 256).map f) = (List.range (32 * n)).map (encByte n f) := by
  refine List.ext_getElem (by simp) fun k hk _ => ?_
  rw [List.getElem_map, List.getElem_range, encByte, List.getD_eq_getElem _ _ hk]

theorem toNat_toHalf (v : Int) : (toHalf v).toNat = (v % 65536).toNat := BitVec.toNat_ofInt ..

/-- The stream of the bytes written is the coefficients' fields, one after the other (R260, R267). -/
theorem bitOf_encByte (f : Nat → Int) {n i j : Nat} (hi : i < 256) (hj : j < n) :
    bitOf (encByte n f) (n * i + j) = (f i % 65536).toNat / 2 ^ j % 2 := by
  have hend : n * (i + 1) ≤ n * 256 := Nat.mul_le_mul_left _ hi
  rw [Nat.mul_succ] at hend
  have hfield : ∀ v ∈ (List.range 256).map f, (toBits n (toHalf v).toNat).length = n :=
    fun v _ => length_toBits _ _
  have hstream : byteStream (byteEncode n ((List.range 256).map f)) =
      ((List.range 256).map f).flatMap fun v => toBits n (toHalf v).toNat := by
    refine byteStream_pack _ _ ?_
    rw [length_flatMap_const n _ _ hfield, List.length_map, List.length_range]
    omega
  have hindex : (n * i + j) / n = i ∧ (n * i + j) % n = j := by
    rw [Nat.mul_add_div (by omega), Nat.mul_add_mod, Nat.div_eq_of_lt hj, Nat.mod_eq_of_lt hj]
    exact ⟨rfl, rfl⟩
  have hbit := getElem?_byteStream_map_range (encByte n f) (m := 32 * n) (k := n * i + j) (by omega)
  rw [← byteEncode_eq_map_range, hstream, getElem?_flatMap_const n (by omega) _ _ hfield, hindex.1,
    hindex.2] at hbit
  simp only [List.getElem?_map, List.getElem?_range hi, Option.map_some, Option.bind_some,
    getElem?_toBits _ _ _ hj, Option.some.injEq, toNat_toHalf] at hbit
  exact (eq_of_beq_one_eq (Nat.mod_lt _ (by decide)) (bitOf_lt_two _ _) hbit).symm

theorem holdsBbuf_storeBbuf (m : Memory) (n : Nat) (b : Nat → Byte) :
    HoldsBbuf (storeBbuf m ((List.range n).map b)) n b := by
  intro k hk
  rw [bbufByte_storeBbuf]
  simp [hk]

theorem IsCodec.enc_wroteBbuf {a : SlotNo} {n : Nat} {i : Instr} {s : State} {f : Nat → Int}
    (h : IsCodec encCommand a n i) (ha : a.toNat < s.params.slots) (hf : HoldsSlot s.mem a f) :
    ∃ t, exec i s = .next t ∧ CompletedFrom s t ∧ t.sr = s.sr ∧
      HoldsBbuf t.mem (32 * n) (encByte n f) ∧ SameOutside 0x400 (32 * n) s.mem t.mem := by
  have hrun := encCommand_completes (n := n) (h.wf ha) hf
  obtain ⟨hframe, hsr⟩ := writesOnly_encCommand hrun
  refine ⟨_, by rw [h.exec_eq, hrun], by rw [CompletedFrom, finish_eq], hsr, ?_, hframe⟩
  rw [finish_mem, byteEncode_eq_map_range]
  exact holdsBbuf_storeBbuf _ _ _

/-- Settles O20: the bytes written hold the stream of the coefficients' fields. -/
theorem encResult : Obligations.EncResult := by
  intro s a f ha hf x hx
  obtain ⟨t, ht, hc, hsr, hbbuf, hframe⟩ := (isCodec_enc a x hx).enc_wroteBbuf ha hf
  exact ⟨t, _, ht, hc, hsr, hbbuf, fun i j hi hj => bitOf_encByte f hi hj, hframe⟩

/-! ### DEC -/

/-- Field i of n bits of the stream of bytes (R262). -/
def decField (n : Nat) (b : Nat → Byte) (i : Nat) : Nat :=
  ofBits ((List.range n).map fun j => bitOf b (n * i + j) == 1)

theorem decField_eq_sum (n : Nat) (b : Nat → Byte) (i : Nat) :
    decField n b i = ((List.range n).map fun j => bitOf b (n * i + j) * 2 ^ j).sum :=
  ofBits_map_range _ (fun _ => bitOf_lt_two _ _) n

theorem decField_lt {n : Nat} (hn : n ≤ 12) (b : Nat → Byte) (i : Nat) : decField n b i < 4096 := by
  have hlt := ofBits_lt ((List.range n).map fun j => bitOf b (n * i + j) == 1)
  rw [List.length_map, List.length_range] at hlt
  exact hlt.trans_le (Nat.pow_le_pow_right (by decide) hn)

theorem getD_byteDecode (b : Nat → Byte) {n i : Nat} (hi : i < 256) :
    (byteDecode n ((List.range (32 * n)).map b)).getD i 0 = decField n b i := by
  have hend : n * (i + 1) ≤ n * 256 := Nat.mul_le_mul_left _ hi
  rw [Nat.mul_succ] at hend
  rw [byteDecode, List.getD_eq_getElem?_getD, List.getElem?_map, getElem?_fields _ _ _ _ hi,
    take_drop_byteStream b (by omega), Option.map_some, Option.getD_some, decField]

/-- A field of at most 12 bits fits its coefficient whole. -/
theorem IsCodec.dec_wroteSlot {d : SlotNo} {n : Nat} {i : Instr} {s : State} {b : Nat → Byte}
    (h : IsCodec decCommand d n i) (hd : d.toNat < s.params.slots) (hb : HoldsBbuf s.mem (32 * n) b) :
    ∃ t, exec i s = .next t ∧ WroteSlot d (fun k => decField n b k) s t := by
  refine ⟨_, by rw [h.exec_eq]; exact bbufCommand_completes (h.wf hd) hb,
    wroteSlot_finishSlot s (length_byteDecode _ _) fun k hk => ?_⟩
  have hlt := decField_lt h.le b k
  rw [getD_byteDecode b hk, wrap16_of_fits (by omega)]

/-- Settles O21: coefficient i is field i of the stream, and a field is the sum of its bits' weights. -/
theorem decResult : Obligations.DecResult := by
  intro s d b hd x hx hb
  simpa only [decField_eq_sum] using (isCodec_dec d x hx).dec_wroteSlot hd hb

/-! ### The round trips -/

theorem CompletedFrom.params {s t : State} (h : CompletedFrom s t) : t.params = s.params := by
  rw [CompletedFrom] at h
  rw [h]

theorem decField_encByte {n i : Nat} {f : Nat → Int} (hn : n ≤ 12) (hi : i < 256)
    (hf : 0 ≤ f i ∧ f i < 2 ^ n) : (decField n (encByte n f) i : Int) = f i := by
  obtain ⟨hlo, hhi⟩ := hf
  have hwidth : (2 : Int) ^ n ≤ 2 ^ 12 := pow_le_pow_right₀ (by decide) hn
  have hfits : f i % 65536 = f i := Int.emod_eq_of_lt hlo (by omega)
  have hfield : decField n (encByte n f) i = ofBits (toBits n (f i).toNat) := by
    rw [decField, toBits_eq_map_range]
    refine congrArg ofBits (List.map_congr_left fun j hj => ?_)
    rw [bitOf_encByte f hi (List.mem_range.1 hj), hfits]
  have hlt : (f i).toNat < 2 ^ n := by
    zify
    rwa [Int.toNat_of_nonneg hlo]
  rw [hfield, ofBits_toBits, Nat.mod_eq_of_lt hlt, Int.toNat_of_nonneg hlo]

/-- Stream bit m of the fields written again is bit m mod n of field m / n. -/
theorem bitOf_encByte_decField (b : Nat → Byte) {n m : Nat} (hpos : 0 < n) (hn : n ≤ 12)
    (hm : m < 256 * n) : bitOf (encByte n fun i => decField n b i) m = bitOf b m := by
  have hi : m / n < 256 := Nat.div_lt_of_lt_mul (by rwa [Nat.mul_comm])
  have hj : m % n < n := Nat.mod_lt _ hpos
  have hbit := bitOf_encByte (fun i => decField n b i) hi hj
  have hlt := decField_lt hn b (m / n)
  have hfits : ((decField n b (m / n) : Int) % 65536).toNat = decField n b (m / n) := by omega
  have hfield := ofBits_map_range_bit (fun j => bitOf b (n * (m / n) + j) == 1) hj
  rw [Nat.div_add_mod, hfits] at hbit
  rw [Nat.div_add_mod] at hfield
  rw [hbit]
  exact eq_of_beq_one_eq (Nat.mod_lt _ (by decide)) (bitOf_lt_two _ _) hfield

theorem encByte_decField (b : Nat → Byte) {n k : Nat} (hpos : 0 < n) (hn : n ≤ 12) (hk : k < 32 * n) :
    encByte n (fun i => decField n b i) k = b k :=
  eq_of_bitOf_eq (fun _ hm => bitOf_encByte_decField b hpos hn (by omega)) hk

/-- Settles O22: each command's result holds the same stream of bits as what it read. -/
theorem codecRoundTrip : Obligations.CodecRoundTrip := by
  intro s a d ha hd x hx
  have hencA : IsCodec encCommand a x.1 x.2.1 :=
    isCodec_enc a _ (List.mem_map_of_mem (f := fun y => (y.1, y.2.1)) hx)
  have hencD : IsCodec encCommand d x.1 x.2.2.1 :=
    isCodec_enc d _ (List.mem_map_of_mem (f := fun y => (y.1, y.2.2.1)) hx)
  have hdecD : IsCodec decCommand d x.1 x.2.2.2 :=
    isCodec_dec d _ (List.mem_map_of_mem (f := fun y => (y.1, y.2.2.2)) hx)
  refine ⟨fun f hf hrange => ?_, fun b hb => ?_⟩
  · obtain ⟨t, ht, hc, -, hbbuf, -⟩ := hencA.enc_wroteBbuf ha hf
    obtain ⟨u, hu, -, -, hslot, -⟩ := hdecD.dec_wroteSlot (hc.params ▸ hd) hbbuf
    refine ⟨t, u, ht, hu, fun i hi => ?_⟩
    exact (hslot i hi).trans (congrArg some (decField_encByte hdecD.le hi (hrange i hi)))
  · obtain ⟨t, ht, hc, -, hslot, -⟩ := hdecD.dec_wroteSlot hd hb
    obtain ⟨u, hu, -, -, hbbuf, -⟩ := hencD.enc_wroteBbuf (hc.params ▸ hd) hslot
    refine ⟨t, u, ht, hu, fun k hk => ?_⟩
    exact (hbbuf k hk).trans (congrArg some (encByte_decField b hdecD.pos hdecD.le hk))

end Sys2Proof.Machine
end

section
/-! PROOFS. The pending bits of IRQ_STATUS and the error registers over a command and over a step
(60_exceptions.md R301, R305, R308, R316, R320). -/

namespace Sys2Proof.Machine

/-! ### A command that passed its check -/

/-- Settles O35. A completion touches neither the error registers nor the queue, and the start of a REJ
leaves all but the engine and the REJ progress. -/
theorem passingCommandsRecordNoError : Obligations.PassingCommandsRecordNoError := by
  intro i s t hw h
  cases exec_next h with
  | failed hn ht => rw [hw] at hn; cases hn
  | completed m r _ hm ht => rw [ht, finish_eq]; exact ⟨rfl, rfl, rfl, rfl⟩
  | started d _ hi ht => rw [ht]; exact ⟨rfl, rfl, rfl, rfl⟩

/-! ### Updates that clear no pending bit -/

/-- `t` has every pending bit of `s`, and DONE besides if the block was busy in `s` and is not in `t`
(R316, R320). -/
structure KeepsPending (s t : State) : Prop where
  done : t.irq.done = (s.irq.done || s.busy && !t.busy)
  err : s.irq.err = true → t.irq.err = true
  xofNeed : s.irq.xofNeed = true → t.irq.xofNeed = true

/-- With IRQ_STATUS as before, it is enough that a busy block stays busy. -/
theorem KeepsPending.of_irq_eq {s t : State} (hi : t.irq = s.irq)
    (hb : s.busy = true → t.busy = true) : KeepsPending s t where
  done := by
    rw [hi]
    cases hs : s.busy with
    | false => simp
    | true => simp [hb hs]
  err := by rw [hi]; exact id
  xofNeed := by rw [hi]; exact id

theorem KeepsPending.refl (s : State) : KeepsPending s s := .of_irq_eq rfl id

theorem busy_of_engine {s : State} (h : s.engine ≠ .idle) : s.busy = true := by
  rw [busy_eq]; exact decide_eq_true (.inl h)

theorem busy_of_queue {s : State} (h : s.cmdq ≠ []) : s.busy = true := by
  rw [busy_eq]; exact decide_eq_true (.inr h)

/-- What a command stores before it completes is no matter (R320). -/
theorem keepsPending_finish {s u : State} (hb : s.busy = true) (hi : u.irq = s.irq) :
    KeepsPending s (finish u) := by
  rw [finish_eq, hi]
  exact { done := by rw [hb]; simp [State.busy], err := id, xofNeed := id }

theorem keepsPending_failCommand {s : State} (hb : s.busy = true) (code : ErrorCode) (w : Word) :
    KeepsPending s (failCommand code w s) := by
  rw [failCommand_eq]
  exact { done := by rw [hb]; simp [State.busy], err := fun _ => rfl, xofNeed := id }

theorem keepsPending_hostError (code : ErrorCode) (off : Nat) (s : State) :
    KeepsPending s (hostError code off s) := by
  rw [hostError_eq]
  exact { done := by simp [State.busy, bne], err := fun _ => rfl, xofNeed := id }

/-- Leaving XWAIT for EXEC, the block stays busy (R226). -/
theorem keepsPending_wake (s : State) : KeepsPending s (wake s) := by
  refine .of_irq_eq (wake_irq s) fun hb => ?_
  rcases wake_cases s with ⟨w, -, h⟩ | ⟨-, h⟩ <;> rw [h]
  · exact busy_of_engine nofun
  · exact hb

/-! ### The engine -/

theorem keepsPending_rejStep {w : Word} {s : State} (he : s.engine = .exec w) :
    KeepsPending s (rejStep w s) := by
  have hb : s.busy = true := busy_of_engine (by rw [he]; nofun)
  rcases rejStep_cases w s with ⟨-, h⟩ | ⟨-, b0, b1, b2, rest, -, h⟩ | ⟨-, -, h⟩ <;> rw [h]
  · exact keepsPending_finish hb rfl
  · exact .of_irq_eq rfl id
  · exact { done := by simp [rejWait, State.busy], err := id, xofNeed := fun _ => rfl }

/-- A command begins in EXEC, so the block is busy (R42, R95). -/
theorem CommandAfter.keepsPending {i : Instr} {s t : State} (h : CommandAfter i s t)
    (hb : s.busy = true) : KeepsPending s t := by
  cases h with
  | failed hw ht => rw [ht]; exact keepsPending_failCommand hb ..
  | completed m r hw hm ht => rw [ht]; exact keepsPending_finish hb rfl
  | started d hw hi ht => rw [ht]; exact .of_irq_eq rfl fun _ => busy_of_engine nofun

/-- The block is busy with the word in the queue as with the word taken. -/
theorem KeepsPending.of_takeWord {w : Word} {rest : List Word} {s t : State}
    (h : KeepsPending (takeWord w rest s) t) (hq : s.cmdq = w :: rest) : KeepsPending s t where
  done := by
    have hs : s.busy = true := busy_of_queue (by rw [hq]; nofun)
    have hu : (takeWord w rest s).busy = true := busy_of_engine nofun
    rw [h.done, hu, hs, takeWord_irq]
  err := h.err
  xofNeed := h.xofNeed

theorem EngineAfter.keepsPending {s t : State} (h : EngineAfter s t) : KeepsPending s t := by
  have htaken : ∀ w rest, (takeWord w rest s).busy = true := fun _ _ => busy_of_engine nofun
  cases h with
  | nothing he hq ht => rw [ht]; exact .refl s
  | command w rest i he hq hi hx => exact ((exec_next hx).keepsPending (htaken w rest)).of_takeWord hq
  | undecoded w rest e he hq hi ht =>
    rw [ht]
    exact (keepsPending_failCommand (htaken w rest) ..).of_takeWord hq
  | running w he ht => rw [ht]; exact keepsPending_rejStep he
  | waiting w he ht => rw [ht]; exact keepsPending_wake s

/-! ### The host -/

theorem keepsPending_writeCmd (w : Word) (s : State) : KeepsPending s (writeCmd w s) := by
  rw [writeCmd]
  split
  · exact .of_irq_eq rfl id
  · split
    · exact keepsPending_hostError ..
    · exact .of_irq_eq rfl fun _ => busy_of_queue (by simp)

theorem keepsPending_writeXofData (v : Word) (s : State) : KeepsPending s (writeXofData v s) := by
  rw [writeXofData]
  split
  · have hw := keepsPending_wake { s with fifo := s.fifo ++ wordBytes v }
    exact ⟨hw.done, hw.err, hw.xofNeed⟩
  · exact keepsPending_hostError ..

/-- Of the host's writes only a soft reset and a write to IRQ_STATUS clear a pending bit (R316). -/
theorem HostWriteAfter.keepsPending {off : Nat} {v : Word} {s t : State}
    (h : HostWriteAfter off v s t) (hr : ¬ (off = 0x004 ∧ v.getLsbD 0 = true)) (hi : off ≠ 0x00C) :
    KeepsPending s t := by
  cases h with
  | locked hl hb => exact keepsPending_hostError ..
  | ctrl ho =>
    rw [writeCtrl, if_neg fun h0 => hr ⟨ho, h0⟩]
    exact .of_irq_eq rfl id
  | irqStatus ho => exact absurd ho hi
  | cmd ho => exact keepsPending_writeCmd v s
  | xofData ho => exact keepsPending_writeXofData v s
  | sa ho hb => exact .of_irq_eq rfl id
  | sb ho hb => exact .of_irq_eq rfl id
  | storage hw hb => exact .of_irq_eq rfl id
  | ignored => exact .refl s

theorem keepsPending_hostRead {off : Nat} {s t : State} (h : hostRead off s = .next t) :
    KeepsPending s t := by
  rcases hostRead_next h with ⟨v, rfl⟩ | ⟨-, -, rfl⟩
  · exact .of_irq_eq rfl id
  · have he := keepsPending_hostError .hostBusyAccess off s
    exact ⟨he.done, he.err, he.xofNeed⟩

/-! ### A step -/

/-- The next action is a host write of `v` to IRQ_STATUS (R27). -/
def WritesIrqStatus (v : Word) (s : State) : Prop :=
  ∃ addr lanes sc, s.script = .host (.write addr lanes v) :: sc ∧
    blockOffset s.params addr = some 0x00C

/-- The script is none of the block's state (log 3). -/
theorem KeepsPending.of_script {s t : State} {sc : List Event}
    (h : KeepsPending { s with script := sc } t) : KeepsPending s t :=
  ⟨h.done, h.err, h.xofNeed⟩

theorem StepAfter.keepsPending {s t : State} (h : StepAfter s t) (hr : ¬ ResetsNow s)
    (hi : ∀ v, ¬ WritesIrqStatus v s) : KeepsPending s t := by
  cases h with
  | engine hT h => exact .of_script h.keepsPending
  | read addr off sc hs ho h => exact .of_script (keepsPending_hostRead h)
  | write addr off lanes v sc hs ho hw =>
    have hnr : ¬ (off = 0x004 ∧ v.getLsbD 0 = true) := fun ⟨h4, h0⟩ =>
      hr (.inr ⟨addr, lanes, v, sc, hs, h4 ▸ ho, h0⟩)
    have hni : off ≠ 0x00C := fun hc => hi v ⟨addr, lanes, sc, hs, hc ▸ ho⟩
    exact .of_script (hw.keepsPending hnr hni)
  | outside a sc hs ht => rw [ht]; exact .of_irq_eq rfl id
  | reset sc hs ht => exact absurd (.inl ⟨sc, hs⟩) hr

/-- A host write to IRQ_STATUS clears the bits written 1 and leaves `busy` (R27, R308). -/
theorem step_of_writesIrqStatus {v : Word} {s t : State} (hi : WritesIrqStatus v s)
    (h : step s = .next t) :
    t.irq = { done := s.irq.done && !v.getLsbD 0, err := s.irq.err && !v.getLsbD 1,
              xofNeed := s.irq.xofNeed && !v.getLsbD 2 } ∧ t.busy = s.busy := by
  obtain ⟨addr, lanes, sc, hs, ho⟩ := hi
  rw [step_of_hostWrite hs ho, hostWrite_irqStatus, writeIrqStatus_eq] at h
  cases h
  exact ⟨rfl, rfl⟩

theorem written_of_cleared {b c : Bool} (hb : b = true) (h : (b && !c) = false) : c = true := by
  simpa [hb] using h

/-- Settles O55: a step that is neither a reset nor a write to IRQ_STATUS keeps the pending bits, and
such a write clears only the bits written 1. -/
theorem pendingBitsPersist : Obligations.PendingBitsPersist := by
  intro s t h
  by_cases hr : ResetsNow s
  · intro x _ _ _
    rcases hr with hr | ⟨addr, lanes, v, sc, hs, ho, h0⟩
    · exact .inl hr
    · exact .inr ⟨addr, lanes, v, sc, hs, .inr ⟨ho, h0⟩⟩
  by_cases hi : ∃ v, WritesIrqStatus v s
  · obtain ⟨v, hi⟩ := hi
    obtain ⟨hirq, -⟩ := step_of_writesIrqStatus hi h
    obtain ⟨addr, lanes, sc, hs, ho⟩ := hi
    intro x hx hbefore hafter
    refine .inr ⟨addr, lanes, v, sc, hs, .inl ⟨ho, ?_⟩⟩
    rw [hirq] at hx
    simp only [List.mem_cons, List.not_mem_nil, or_false] at hx
    rcases hx with rfl | rfl | rfl <;> exact written_of_cleared hbefore hafter
  · have hk := (step_next h).keepsPending hr (not_exists.1 hi)
    have hkept : ∀ x ∈ [(0, s.irq.done, t.irq.done), (1, s.irq.err, t.irq.err),
        (2, s.irq.xofNeed, t.irq.xofNeed)], x.2.1 = true → x.2.2 = true := by
      simp only [List.forall_mem_cons]
      exact ⟨fun hd => by rw [hk.done, hd, Bool.true_or], hk.err, hk.xofNeed, nofun⟩
    intro x hx hbefore hafter
    rw [hkept x hx hbefore] at hafter
    cases hafter

/-- Either reset clears DONE (R340, R343). -/
theorem done_of_resetsNow {s t : State} (hr : ResetsNow s) (h : step s = .next t) :
    t.irq.done = false := by
  obtain ⟨sc, hs | hs⟩ := step_of_resetsNow hr <;>
  · rw [hs] at h
    cases h
    rfl

/-- Settles O56. DONE follows `busy` in every step that clears no pending bit; a write to IRQ_STATUS
leaves `busy` and sets no bit. -/
theorem doneRule : Obligations.DoneRule := by
  refine fun s t h => ⟨fun hr => done_of_resetsNow hr h, fun hr => ?_⟩
  by_cases hi : ∃ v, WritesIrqStatus v s
  · obtain ⟨v, hi⟩ := hi
    obtain ⟨hirq, hbusy⟩ := step_of_writesIrqStatus hi h
    refine ⟨fun hs ht => ?_, fun _ hd => ?_⟩
    · rw [hbusy, hs] at ht
      cases ht
    · rw [hirq] at hd
      exact (Bool.and_eq_true_iff.1 hd).1
  · have hk := ((step_next h).keepsPending hr (not_exists.1 hi)).done
    refine ⟨fun hs ht => by simp [hk, hs, ht], fun hn hd => ?_⟩
    rw [hk] at hd
    simpa [hn] using hd

end Sys2Proof.Machine
end

section
/-! PROOFS. The resets (70_reset_and_hazards.md R340, R343), commands that read storage with no value
(R341), and what a command leaves besides data (R362). -/

namespace Sys2Proof.Machine

/-! ### The resets -/

theorem hardReset_eq (s : State) :
    hardReset s = { State.reset with params := s.params, script := s.script, rdata := s.rdata } := rfl

/-- A soft reset is a hardware reset that keeps slots and BBUF (R342, R343). -/
theorem softReset_eq (s : State) : softReset s = { hardReset s with mem := s.mem } := rfl

/-- Settles O42: the input takes its entry off the script and clears all else but the parameters and
the value last read. -/
theorem hardResetRule : Obligations.HardResetRule := by
  intro s sc hs
  simp only [step, hs, hardReset_eq]

/-- Settles O43: bit 0 alone decides what a CTRL write is, and a soft reset keeps what R343 keeps. -/
theorem softResetRule : Obligations.SoftResetRule := by
  intro s lanes v low hl h0
  rw [step_offering_write lanes v (by decide) hl, hostWrite_ctrl, writeCtrl, if_pos h0, softReset_eq,
    hardReset_eq]

/-! ### Operands with no value -/

section
variable {i : Instr} {s : State} (hw : i.wf s.params = true)
include hw

theorem slotCommand_faults {d a n : SlotNo} {F : List Int → List Int} (hn : n ∈ [a])
    (h : loadSlot s.mem n = none) : ∃ m ∈ [a], slotCommand i d a F s = .fault (.unwrittenSlot m) := by
  obtain rfl := List.mem_singleton.1 hn
  exact ⟨n, hn, by rw [slotCommand, checked_of_wf hw, withSlot_none h]⟩

theorem encCommand_faults {k : Nat} {a n : SlotNo} (hn : n ∈ [a]) (h : loadSlot s.mem n = none) :
    ∃ m ∈ [a], encCommand i k a s = .fault (.unwrittenSlot m) := by
  obtain rfl := List.mem_singleton.1 hn
  exact ⟨n, hn, by rw [encCommand, checked_of_wf hw, withSlot_none h]⟩

/-- A is loaded first, so that the fault names A whenever A lacks a value. -/
theorem slotCommand2_faults {d a b n : SlotNo} {F : List Int → List Int → List Int} (hn : n ∈ [a, b])
    (h : loadSlot s.mem n = none) :
    ∃ m ∈ [a, b], slotCommand2 i d a b F s = .fault (.unwrittenSlot m) := by
  rw [slotCommand2, checked_of_wf hw]
  cases ha : loadSlot s.mem a with
  | none => exact ⟨a, List.mem_cons_self .., withSlot_none ha _⟩
  | some f =>
    have hb : n ∈ [b] := List.mem_of_ne_of_mem (fun hna => by rw [hna, ha] at h; cases h) hn
    obtain rfl := List.mem_singleton.1 hb
    exact ⟨n, hn, by rw [withSlot_some ha, withSlot_none h]⟩

theorem bbufCommand_faults {n : Nat} {d : SlotNo} {F : List Byte → List Int}
    (h : loadBbuf s.mem n = none) : bbufCommand i n d F s = .fault .unwrittenBbuf := by
  rw [bbufCommand, checked_of_wf hw, withBbuf_none h]

/-- A command that passed its check and cannot load a source slot faults with a source slot (R150). -/
theorem exec_faults_of_slot {n : SlotNo} (hn : n ∈ sourceSlots i) (h : loadSlot s.mem n = none) :
    ∃ m ∈ sourceSlots i, exec i s = .fault (.unwrittenSlot m) := by
  cases i with
  | ntt d a | nttb d a | intt d a | pred d a | pscale d a imm | pcanon d a =>
    exact slotCommand_faults hw hn h
  | pmul d a b | padd d a b | psub d a b => exact slotCommand2_faults hw hn h
  | enc1 a | enc4 a | enc5 a | enc10 a | enc11 a | enc12 a => exact encCommand_faults hw hn h
  | _ => cases hn

/-- A command that passed its check and cannot load its bytes of BBUF faults (R78). -/
theorem exec_faults_of_bbuf (hpos : 0 < sourceBytes i) (h : loadBbuf s.mem (sourceBytes i) = none) :
    exec i s = .fault .unwrittenBbuf := by
  cases i with
  | dec1 d | dec4 d | dec5 d | dec10 d | dec11 d | dec12 d | cbd2 d | cbd3 d =>
    exact bbufCommand_faults hw h
  | _ => exact absurd hpos (lt_irrefl 0)

end

/-- Settles O33: one coefficient or byte with no value is enough for the load to fail. -/
theorem unwrittenOperandFaults : Obligations.UnwrittenOperandFaults :=
  ⟨fun _ _ _ _ hw hn hk hc => exec_faults_of_slot hw hn (loadSlot_none hk hc),
    fun _ _ _ hw hk hb => exec_faults_of_bbuf hw (Nat.zero_lt_of_lt hk) (loadBbuf_none hk hb)⟩

/-! ### What a command leaves besides data -/

/-- The state after a command, but for the data it writes: the command, whether it passes its check,
and the state without its data decide it (R362). -/
def statusAfter (i : Instr) (s : State) : State :=
  if i.wf s.params then
    match i with
    | .rej d => { s with engine := .exec (encode (.rej d)), rejBuf := [], rejUsed := 0 }
    | _ => finish s
  else failCommand .badSlot (encode i) s

theorem statusAfter_of_not_wf {i : Instr} {s : State} (h : i.wf s.params = false) :
    statusAfter i s = failCommand .badSlot (encode i) s := by
  unfold statusAfter
  rw [if_neg (by simp [h])]

theorem statusAfter_rej {d : SlotNo} {s : State} (h : (Instr.rej d).wf s.params = true) :
    statusAfter (.rej d) s =
      { s with engine := .exec (encode (.rej d)), rejBuf := [], rejUsed := 0 } := by
  unfold statusAfter
  rw [if_pos h]

theorem statusAfter_of_ne_rej {i : Instr} {s : State} (h : i.wf s.params = true)
    (hr : ∀ d, i ≠ .rej d) : statusAfter i s = finish s := by
  unfold statusAfter
  rw [if_pos h]
  split
  · exact absurd rfl (hr _)
  · rfl

theorem withoutData_failCommand (code : ErrorCode) (w : Word) (s : State) :
    (failCommand code w s).withoutData = failCommand code w s.withoutData := by
  rw [failCommand_eq, failCommand_eq]
  rfl

/-- What a command stores in completing is data only. -/
theorem withoutData_finish (m : Memory) (r : BitVec 16) (s : State) :
    (finish { s with mem := m, sr := r }).withoutData = finish s.withoutData := by
  rw [finish_eq, finish_eq]
  rfl

/-- A command takes the state without its data to `statusAfter` of it. -/
theorem withoutData_exec {i : Instr} {s t : State} (h : exec i s = .next t) :
    t.withoutData = statusAfter i s.withoutData := by
  by_cases hr : ∃ d, i = .rej d
  · obtain ⟨d, rfl⟩ := hr
    rcases execRej_next h with ⟨hw, rfl⟩ | ⟨hw, rfl⟩
    · rw [withoutData_failCommand, statusAfter_of_not_wf (s := s.withoutData) hw]
    · rw [statusAfter_rej (s := s.withoutData) hw]
      rfl
  · rw [not_exists] at hr
    cases exec_next h with
    | failed hw ht => rw [ht, withoutData_failCommand, statusAfter_of_not_wf (s := s.withoutData) hw]
    | completed m r hw hm ht =>
      rw [ht, withoutData_finish, statusAfter_of_ne_rej (s := s.withoutData) hw hr]
    | started d hw hi ht => exact absurd hi (hr d)

/-- Settles O36: what both commands leave besides data is one function of the states without data. -/
theorem dataIndependentStatus : Obligations.DataIndependentStatus := by
  intro i s₁ s₂ t₁ t₂ hs h₁ h₂
  rw [withoutData_exec h₁, withoutData_exec h₂, hs]

end Sys2Proof.Machine
end
